-- ==== Sys2Proof/Word.lean ====
section
/-! DEFINITION. The word types of the three ports and of every value of `F`.

The number format `FMT` is a parameter (00_scope.md R7), so each type is wide enough for both formats:
the container of a value of `F` has 64 bits, of which the low `W` are the value (`W` = 32 or 64).
The bits above `W` are zero in every well-formed word (`fits`, WellFormed.lean). DESIGN CHOICE, log 1. -/

namespace Sys2Proof

/-- One byte of a command word laid out in memory by a host or a test bench (20_memory.md R33). -/
abbrev Byte := BitVec 8

/-- One value of `F`: its `W`-bit encoding in `FMT` (40_numerics.md R64), in the low `W` bits. -/
abbrev Word := BitVec 64

/-- One command word of `CW = 2W + 8` bits (30_encoding.md R45), in the low `CW` bits: 72 or 136. -/
abbrev CmdWord := BitVec 136

/-- One response word of `RW = W + 2` bits (30_encoding.md R46), in the low `RW` bits: 34 or 66. -/
abbrev RspWord := BitVec 66

end Sys2Proof
end

