-- ==== Sys2Proof/Config.lean ====
section
/-! DEFINITION. Parameters of the hardware (00_scope.md R7), the abstract number system of 40_numerics.md R63 as one
record, the closed sets of names, and the one value the spec leaves open (the bits of the sine unit). -/

namespace Sys2Proof

/-- The numeric format `FMT` (00_scope.md R7): `binary32` is the value for this hardware, `binary64` the other admitted one. -/
inductive Fmt
  | binary32
  | binary64
deriving DecidableEq, Repr

/-- `W`, the width in bits of a value of `FMT` (R7). -/
def Fmt.width : Fmt → Nat
  | .binary32 => 32
  | .binary64 => 64

/-- Number of fraction bits of `FMT` (40_numerics.md R64). -/
def Fmt.fracBits : Fmt → Nat
  | .binary32 => 23
  | .binary64 => 52

/-- Number of exponent bits of `FMT` (40_numerics.md R64). -/
def Fmt.expBits : Fmt → Nat
  | .binary32 => 8
  | .binary64 => 11

/-- Exponent bias of `FMT` (40_numerics.md R64). -/
def Fmt.bias : Fmt → Nat
  | .binary32 => 127
  | .binary64 => 1023

/-- Precision of `FMT` in bits, the hidden bit included (40_numerics.md R64). -/
def Fmt.precision (fmt : Fmt) : Nat := fmt.fracBits + 1

/-- `CW = 2W + 8`, the command word width (R7, 30_encoding.md R45). -/
def Fmt.cmdWidth (fmt : Fmt) : Nat := 2 * fmt.width + 8

/-- `RW = W + 2`, the response word width (R7, 30_encoding.md R46). -/
def Fmt.rspWidth (fmt : Fmt) : Nat := fmt.width + 2

/-- `SIN_TOL`, the value for this hardware (R7, 40_numerics.md R76): the bound on the absolute error of `SINE(p)`. It is the default of a
parameter: `sinTolOf` (Machine/Sine.lean). -/
def Fmt.sinTol : Fmt → Rat
  | .binary32 => 1 / 2 ^ 20
  | .binary64 => 1 / 2 ^ 49

/-- The identification string `oscy-core/FMT` (00_scope.md R1). -/
def Fmt.ident : Fmt → String
  | .binary32 => "oscy-core/binary32"
  | .binary64 => "oscy-core/binary64"

/-- The waveform set: "a closed enumeration of four variants" (10_state.md R17). -/
inductive Waveform
  | sine
  | saw
  | square
  | triangle
deriving DecidableEq, Repr

/-- The correction mode `S.BL` (10_state.md R19). -/
inductive Mode
  | naive
  | bandlimited
deriving DecidableEq, Repr

/-- The names of the constants of 40_numerics.md R78 (`K_ZERO`, `K_HALF`, ...). -/
inductive Const
  | zero | half | one | negOne | two | three | four | negFour | twoPi
  | pa0 | pa1 | pa2 | pa3 | pa4 | pa5
  | pg0 | pg1 | pg2 | pg3 | pg4 | pg5
  | pw | ps | bg | bd | bs
deriving DecidableEq, Repr

/-- The abstract number type `F` and its primitives (40_numerics.md R63): "A model represents `F` and these primitives
as one configuration record so that a claim can quantify over it or fix it". Two kinds of number system are built:
`ieee` (Machine/Numeric.lean), one for each format and sine unit, and `idealNum` (Machine/Ideal.lean), the real numbers. -/
structure NumSys (F : Type) where
  add : F → F → F
  sub : F → F → F
  mul : F → F → F
  div : F → F → F
  lt : F → F → Bool
  gt : F → F → Bool
  ge : F → F → Bool
  trunc : F → F
  sin : F → F
  k : Const → F

/-- FREE VALUE (log 4): the sine unit of this hardware, some function of an operand's bits alone that has the properties `P` (40_numerics.md
R76 gives them: `AdmittedSine`). It has no body: nothing can be proved of it but `P`. Where there is no such function it could not be
declared, so it asks for one (any: `sineMeeting`), about which it says nothing. -/
opaque Config.sineOf (P : (Word → Word) → Prop) [Inhabited (Subtype P)] : Subtype P

end Sys2Proof
end

