-- ==== Sys2Proof/Syntax.lean ====
section
/-! DEFINITION. The commands: one constructor per row of spec/opcode_table.json (30_encoding.md R51, R59). -/

namespace Sys2Proof

/-- The eleven commands with their operands. An operand is a value of `F` exactly as its `W` bits stand (30_encoding.md R49). -/
inductive Instr
  /-- `OSC.NEW wf, mode, sr, hz` (R85) -/
  | oscNew (wf : Waveform) (bl : Mode) (sr hz : Word)
  /-- `OSC.SETF hz` (R87) -/
  | oscSetf (hz : Word)
  /-- `OSC.SETP p` (R88) -/
  | oscSetp (p : Word)
  /-- `OSC.RST` (R89) -/
  | oscRst
  /-- `OSC.NEXT` (R90) -/
  | oscNext
  /-- `OSC.BLEP p` (R116) -/
  | oscBlep (p : Word)
  /-- `WHITE.NEXT` (R127) -/
  | whiteNext
  /-- `PINK.NEW` (R129) -/
  | pinkNew
  /-- `PINK.NEXT` (R130) -/
  | pinkNext
  /-- `BROWN.NEW` (R135) -/
  | brownNew
  /-- `BROWN.NEXT` (R136) -/
  | brownNext
deriving DecidableEq, Repr

end Sys2Proof
end

