-- ==== Sys2Proof/Machine/State.lean ====
section
/-! DEFINITION. The state of the block (10_state.md R13 to R29) and, beside it, what stands at its ports: the events the host
will present, the random values the source will present, and the responses given so far. Plain data throughout. -/

namespace Sys2Proof.Machine

/-- The oscillator's elements (10_state.md R14 to R17, R19), over a number type: words in the machine, reals in the `IDEAL` profile. -/
structure Osc (F : Type) where
  /-- `S.PHASE` (R14) -/
  phase : F
  /-- `S.INC` (R15) -/
  inc : F
  /-- `S.SR` (R16) -/
  sr : F
  /-- `S.WF` (R17) -/
  wf : Waveform
  /-- `S.BL` (R19) -/
  bl : Mode
deriving DecidableEq, Repr

/-- The six taps `S.B[0]` to `S.B[5]` of the pink filter (10_state.md R20). -/
structure Taps (F : Type) where
  b0 : F
  b1 : F
  b2 : F
  b3 : F
  b4 : F
  b5 : F
deriving DecidableEq, Repr

/-- The two faults of the block (60_exceptions.md R146). They are effects of a command, not stops of the machine. -/
inductive FaultCode
  /-- code 1: the command word is a reserved encoding (R148) -/
  | ill
  /-- code 2: an oscillator command but `OSC.NEW` while `S.V = 0` (R149) -/
  | unc
deriving DecidableEq, Repr

/-- A response (30_encoding.md R46), over a number type. -/
inductive Response (F : Type)
  | ack
  | sample (v : F)
  | err (code : FaultCode)
deriving DecidableEq, Repr

/-- What the host does at the `CMD` port and the `rst` pin, in order (20_memory.md R36, 70_reset_and_hazards.md R163, R165). -/
inductive HostEvent
  /-- present a command word on `CMD` -/
  | command (w : CmdWord)
  /-- assert `rst` between commands, or while a command waits for its random value (R163) -/
  | rst
  /-- present a command word and assert `rst` while it is in flight, before its response (R165); `took` says whether the
  command had by then taken its random value -/
  | commandThenRst (w : CmdWord) (took : Bool)
deriving DecidableEq, Repr

/-- The state. `osc` is absent while `S.V = 0`: then the five elements "hold no value: a model must not give them one" (R18), and
R164 allows "an absent record (an option type)". `S.V` is `osc.isSome`. Log 1, 2, 3. -/
structure State where
  /-- the number format, a parameter (00_scope.md R7) that no step writes -/
  fmt : Fmt
  /-- the tolerance `SIN_TOL` of the sine unit, a parameter (00_scope.md R7) that no step writes; none is the value for this hardware. Log 4. -/
  sinTol : Option Rat
  /-- `S.V` and, when it is 1, `S.PHASE`, `S.INC`, `S.SR`, `S.WF`, `S.BL` -/
  osc : Option (Osc Word)
  /-- `S.B[0]` to `S.B[5]` -/
  taps : Taps Word
  /-- `S.PREV` (R21) -/
  prev : Word
  /-- `S.ILL` (R24) -/
  ill : Bool
  /-- `S.UNC` (R24) -/
  unc : Bool
  /-- the command in flight: a noise sample command waiting for its random value (R26, 60_exceptions.md R162) -/
  inflight : Option Instr
  /-- what the host will do, in order -/
  host : List HostEvent
  /-- the values the random source will present on `RND`, in order (20_memory.md R38) -/
  rnd : List Word
  /-- the response words given on `RSP`, oldest first (20_memory.md R37) -/
  rsp : List RspWord
deriving DecidableEq, Repr

/-- How a step can stop. -/
inductive Fault
  /-- A noise sample command waits for a random value and the source presents none (60_exceptions.md R162: "the step relation
  has no successor"). Raised by `step` from a waiting state, and by the noise commands of the `IDEAL` profile. Safe: the
  hardware does not go on either. -/
  | stuckOnRandom
deriving DecidableEq, Repr

/-- What the model declines to give a meaning. -/
inductive Refusal
  /-- an instruction with no meaning yet, by its mnemonic; raised by `exec`'s refused arms only (there are none left); safe -/
  | notModelled (mnemonic : String)
  /-- a division by zero in the `IDEAL` profile, which "has no value" (40_numerics.md R80: "a model refuses it"); raised by the
  `IDEAL` reference machine only, never by `step`; safe -/
  | idealDivisionByZero
deriving DecidableEq, Repr

/-- The outcome of a command or a step of the machine. -/
abbrev Result := Host.Outcome State Fault Refusal

/-- All taps at one value. -/
def tapsOf {F : Type} (x : F) : Taps F := ⟨x, x, x, x, x, x⟩

/-- The state after hardware reset (10_state.md R29, 70_reset_and_hazards.md R163) in a format, with nothing at the ports. -/
def State.resetAt (fmt : Fmt) : State where
  fmt := fmt
  sinTol := none
  osc := none
  taps := tapsOf 0
  prev := 0
  ill := false
  unc := false
  inflight := none
  host := []
  rnd := []
  rsp := []

/-- The state after hardware reset; `binary32` is "the value for this hardware" of the parameter `FMT` (00_scope.md R7). -/
def State.reset : State := State.resetAt .binary32

end Sys2Proof.Machine
end

