-- ==== Sys2Proof/Machine/Formulas.lean ====
section
/-! DEFINITION. The formulas of the block, each written once over an abstract number system (00_scope.md R8, 40_numerics.md R63) as the
nesting of primitives its rule gives (R75): the phase accumulator, the naive engines, the polyBLEP corrector, the
bandlimited synthesizer, and the noise filters. The machine uses them at `State.num`, the `IDEAL` profile at `idealNum`. -/

namespace Sys2Proof.Machine

/-- `frac(x) = fsub(x, ftrunc(x))` (40_numerics.md R73). -/
def frac {F : Type} (N : NumSys F) (x : F) : F := N.sub x (N.trunc x)

/-- `SINE(p) = SIN(fmul(K_TWO_PI, p))` (40_numerics.md R77, 42_naive_waveforms.md R101). A finite phase so large that the product overflows
gives NaN by `SIN_NAN`, outside the table of R106: log 13. -/
def sine {F : Type} (N : NumSys F) (p : F) : F := N.sin (N.mul (N.k .twoPi) p)

/-- `ACCUM(ph, d)` (41_oscillator_control.md R91): one addition, one comparison `≥ 1.0`, at most one subtraction of 1.0. In `IEEE`
the formula is computed as it stands where R95 (`d = 1`) and R97 item 1 (`d` of half a last place or less) describe it without its
roundings: log 13. -/
def accum {F : Type} (N : NumSys F) (ph d : F) : F :=
  let p1 := N.add ph d
  if N.ge p1 (N.k .one) then N.sub p1 (N.k .one) else p1

/-- `SAW(p)` (42_naive_waveforms.md R102). -/
def saw {F : Type} (N : NumSys F) (p : F) : F := N.sub (N.mul (N.k .two) p) (N.k .one)

/-- `SQUARE(p)` (R103). -/
def square {F : Type} (N : NumSys F) (p : F) : F := if N.lt p (N.k .half) then N.k .one else N.k .negOne

/-- `TRIANGLE(p)` (R104). -/
def triangle {F : Type} (N : NumSys F) (p : F) : F :=
  if N.lt p (N.k .half) then N.sub (N.mul (N.k .four) p) (N.k .one)
  else N.add (N.mul (N.k .negFour) p) (N.k .three)

/-- `NAIVE(wf, p)` (R100). -/
def naive {F : Type} (N : NumSys F) (wf : Waveform) (p : F) : F :=
  match wf with
  | .sine => sine N p
  | .saw => saw N p
  | .square => square N p
  | .triangle => triangle N p

/-- `BLEP(p, d)` (43_polyblep.md R110): the tests in the order written (R112), both strict (R111). For `p < 0` and `d = 0` R114 says `-inf` and names
no sign of the zero: the formula gives it for `+0.0`, and NaN for `-0.0` (log 13). -/
def blep {F : Type} (N : NumSys F) (p d : F) : F :=
  if N.lt p d then
    let t := N.div p d
    N.sub (N.sub (N.mul (N.k .two) t) (N.mul t t)) (N.k .one)
  else if N.gt p (N.sub (N.k .one) d) then
    let t := N.div (N.sub p (N.k .one)) d
    N.add (N.add (N.mul t t) (N.mul (N.k .two) t)) (N.k .one)
  else N.k .zero

/-- `BLSAW(p, d)` (R118). -/
def blSaw {F : Type} (N : NumSys F) (p d : F) : F := N.sub (saw N p) (blep N p d)

/-- The phase shifted by half a cycle and re-wrapped, `p2` of R119. -/
def halfShift {F : Type} (N : NumSys F) (p : F) : F := frac N (N.add p (N.k .half))

/-- `BLSQUARE(p, d)` (R119). -/
def blSquare {F : Type} (N : NumSys F) (p d : F) : F :=
  N.sub (N.add (square N p) (blep N p d)) (blep N (halfShift N p) d)

/-- `BL(wf, p, d)` (R117). -/
def bandlimited {F : Type} (N : NumSys F) (wf : Waveform) (p d : F) : F :=
  match wf with
  | .sine => sine N p
  | .saw => blSaw N p d
  | .square => blSquare N p d
  | .triangle => triangle N p

/-- `MAP(wf, bl, p, d)` (41_oscillator_control.md R92). -/
def mapSample {F : Type} (N : NumSys F) (wf : Waveform) (bl : Mode) (p d : F) : F :=
  match bl with
  | .naive => naive N wf p
  | .bandlimited => bandlimited N wf p d

/-- The elements after `OSC.NEW` (R85). -/
def newOsc {F : Type} (N : NumSys F) (wf : Waveform) (bl : Mode) (sr hz : F) : Osc F :=
  { phase := N.k .zero, inc := N.div hz sr, sr := sr, wf := wf, bl := bl }

/-- The elements after `OSC.NEXT` (R90): the phase advanced and wrapped, nothing else. -/
def advance {F : Type} (N : NumSys F) (o : Osc F) : Osc F := { o with phase := accum N o.phase o.inc }

/-- The sample of an oscillator at its present phase (R90, R92); `OSC.NEXT` takes it after `advance`. -/
def oscSample {F : Type} (N : NumSys F) (o : Osc F) : F := mapSample N o.wf o.bl o.phase o.inc

/-- `WHITE(u)` (44_noise.md R126). -/
def white {F : Type} (N : NumSys F) (u : F) : F := N.sub (N.mul (N.k .two) u) (N.k .one)

/-- One tap's update (44_noise.md R130, R131): `fadd(fmul(decay, tap), fmul(white, gain))`. -/
def tapStep {F : Type} (N : NumSys F) (decay gain : Const) (b w : F) : F :=
  N.add (N.mul (N.k decay) b) (N.mul w (N.k gain))

/-- The six updated taps (R130); tap 5 uses the same formula with its signed gain (R132). -/
def pinkTaps {F : Type} (N : NumSys F) (b : Taps F) (w : F) : Taps F where
  b0 := tapStep N .pa0 .pg0 b.b0 w
  b1 := tapStep N .pa1 .pg1 b.b1 w
  b2 := tapStep N .pa2 .pg2 b.b2 w
  b3 := tapStep N .pa3 .pg3 b.b3 w
  b4 := tapStep N .pa4 .pg4 b.b4 w
  b5 := tapStep N .pa5 .pg5 b.b5 w

/-- The pink sample from the updated taps (R130, R131): the sum from tap 0 to tap 5, then the direct term, then the scale. -/
def pinkOut {F : Type} (N : NumSys F) (b : Taps F) (w : F) : F :=
  let s := N.add (N.add (N.add (N.add (N.add b.b0 b.b1) b.b2) b.b3) b.b4) b.b5
  N.mul (N.add s (N.mul w (N.k .pw))) (N.k .ps)

/-- The brown integrator's new value (R136). -/
def brownPrev {F : Type} (N : NumSys F) (prev w : F) : F :=
  N.div (N.add prev (N.mul (N.k .bg) w)) (N.k .bd)

/-- The brown sample from the new integrator value (R136). -/
def brownOut {F : Type} (N : NumSys F) (prev : F) : F := N.mul prev (N.k .bs)

end Sys2Proof.Machine
end

