-- ==== Sys2Proof/WellFormed.lean ====
section
/-! DEFINITION. Well-formed words and commands: an operand is a `W`-bit pattern (30_encoding.md R49). Every `W`-bit pattern
is a legal operand, NaN and infinity included, so this is the only check. -/

namespace Sys2Proof

/-- The container holds a `W`-bit pattern: nothing stands above bit `W - 1`. -/
def fits (fmt : Fmt) (x : Word) : Bool := decide (x.toNat < 2 ^ fmt.width)

/-- A command whose operands are `W`-bit patterns of `fmt`. -/
def Instr.wellFormed (fmt : Fmt) : Instr → Bool
  | .oscNew _ _ sr hz => fits fmt sr && fits fmt hz
  | .oscSetf hz => fits fmt hz
  | .oscSetp p => fits fmt p
  | .oscRst => true
  | .oscNext => true
  | .oscBlep p => fits fmt p
  | .whiteNext => true
  | .pinkNew => true
  | .pinkNext => true
  | .brownNew => true
  | .brownNext => true

end Sys2Proof
end

