-- ==== Sys2Proof/Decode.lean ====
section
/-! DEFINITION. Decoding and encoding of command words (30_encoding.md R45 to R54), the opcode table as rows of mask and match
(R51), and the little-endian byte layout of a stored word (20_memory.md R33). -/

namespace Sys2Proof

/-- Why a word is no command. All but `partialWord` are the reserved encodings of 30_encoding.md R54, by the line of R53's
procedure that finds them. `partialWord` is no encoding at all: a byte list that is not one whole word, which the `CMD`
port cannot carry (20_memory.md R34). -/
inductive Reserved
  /-- the bit `z` is 1 -/
  | zBit
  /-- `wf`, `bl` or slot `b` is not zero in a word whose `op` is not `OSC.NEW`'s -/
  | unusedField
  /-- slot `a` is not zero in a word whose `op` takes no operand -/
  | slotA
  /-- `op` is one of 0, 7, D, E, F -/
  | opcode
  /-- a byte list that is not exactly `CW / 8` bytes long -/
  | partialWord
deriving DecidableEq, Repr

/-- The result of decoding: exactly one of a command and "reserved" (R53). -/
inductive Decoded
  | command (i : Instr)
  | reserved (why : Reserved)
deriving DecidableEq, Repr

/-- The field of `len` bits of a command word whose lowest bit is `lo`, as an unsigned integer (00_scope.md R9). -/
def cmdField (w : CmdWord) (lo len : Nat) : Nat := w.toNat / 2 ^ lo % 2 ^ len

/-- The code of a waveform (10_state.md R17, 30_encoding.md R47). -/
def wfCode : Waveform → Nat
  | .sine => 0
  | .saw => 1
  | .square => 2
  | .triangle => 3

/-- The waveform of a 2-bit code (R17, R47); the field has no other values. -/
def wfOfCode : Nat → Waveform
  | 0 => .sine
  | 1 => .saw
  | 2 => .square
  | _ => .triangle

/-- The code of a mode (10_state.md R19, 30_encoding.md R48). -/
def modeCode : Mode → Nat
  | .naive => 0
  | .bandlimited => 1

/-- The mode of a 1-bit code (R19, R48); the field has no other values. -/
def modeOfCode : Nat → Mode
  | 0 => .naive
  | _ => .bandlimited

/-- A `W`-bit field as the word of an operand, exactly as its bits stand (30_encoding.md R49). -/
def operandOf (n : Nat) : Word := BitVec.ofNat 64 n

/-- `decode(cw)` of 30_encoding.md R53, line by line; fields at the places of R50. Only the low `CW` bits are read: the port
has no others (20_memory.md R36). -/
def decode (fmt : Fmt) (w : CmdWord) : Decoded :=
  let op := cmdField w (2 * fmt.width + 4) 4
  let wf := cmdField w (2 * fmt.width + 2) 2
  let bl := cmdField w (2 * fmt.width + 1) 1
  let z := cmdField w (2 * fmt.width) 1
  let a := cmdField w fmt.width fmt.width
  let b := cmdField w 0 fmt.width
  if z ≠ 0 then .reserved .zBit
  else if op = 1 then .command (.oscNew (wfOfCode wf) (modeOfCode bl) (operandOf a) (operandOf b))
  else if wf ≠ 0 ∨ bl ≠ 0 ∨ b ≠ 0 then .reserved .unusedField
  else if op = 2 then .command (.oscSetf (operandOf a))
  else if op = 3 then .command (.oscSetp (operandOf a))
  else if op = 6 then .command (.oscBlep (operandOf a))
  else if a ≠ 0 then .reserved .slotA
  else if op = 4 then .command .oscRst
  else if op = 5 then .command .oscNext
  else if op = 8 then .command .whiteNext
  else if op = 9 then .command .pinkNew
  else if op = 10 then .command .pinkNext
  else if op = 11 then .command .brownNew
  else if op = 12 then .command .brownNext
  else .reserved .opcode

/-- A command word from its fields (30_encoding.md R50); `z` is 0 in every command (R52). -/
def packCmd (fmt : Fmt) (op wf bl a b : Nat) : CmdWord :=
  BitVec.ofNat 136 (op * 2 ^ (2 * fmt.width + 4) + wf * 2 ^ (2 * fmt.width + 2) + bl * 2 ^ (2 * fmt.width + 1)
    + a * 2 ^ fmt.width + b)

/-- The word of a command (30_encoding.md R51, R59): "All fields not listed are zero". -/
def encode (fmt : Fmt) : Instr → CmdWord
  | .oscNew wf bl sr hz => packCmd fmt 1 (wfCode wf) (modeCode bl) sr.toNat hz.toNat
  | .oscSetf hz => packCmd fmt 2 0 0 hz.toNat 0
  | .oscSetp p => packCmd fmt 3 0 0 p.toNat 0
  | .oscRst => packCmd fmt 4 0 0 0 0
  | .oscNext => packCmd fmt 5 0 0 0 0
  | .oscBlep p => packCmd fmt 6 0 0 p.toNat 0
  | .whiteNext => packCmd fmt 8 0 0 0 0
  | .pinkNew => packCmd fmt 9 0 0 0 0
  | .pinkNext => packCmd fmt 10 0 0 0 0
  | .brownNew => packCmd fmt 11 0 0 0 0
  | .brownNext => packCmd fmt 12 0 0 0 0

/-- The mask and the match of each command's row: the columns `mask`, `match` of spec/opcode_table.json (30_encoding.md R51)
for `binary32` and `mask_w64`, `match_w64` for `binary64`, the numbers written out as the table has them. -/
def tableRow : Fmt → Instr → CmdWord × CmdWord
  | .binary32, .oscNew _ _ _ _ => (0xF10000000000000000, 0x100000000000000000)
  | .binary32, .oscSetf _ => (0xFF00000000FFFFFFFF, 0x200000000000000000)
  | .binary32, .oscSetp _ => (0xFF00000000FFFFFFFF, 0x300000000000000000)
  | .binary32, .oscRst => (0xFFFFFFFFFFFFFFFFFF, 0x400000000000000000)
  | .binary32, .oscNext => (0xFFFFFFFFFFFFFFFFFF, 0x500000000000000000)
  | .binary32, .oscBlep _ => (0xFF00000000FFFFFFFF, 0x600000000000000000)
  | .binary32, .whiteNext => (0xFFFFFFFFFFFFFFFFFF, 0x800000000000000000)
  | .binary32, .pinkNew => (0xFFFFFFFFFFFFFFFFFF, 0x900000000000000000)
  | .binary32, .pinkNext => (0xFFFFFFFFFFFFFFFFFF, 0xA00000000000000000)
  | .binary32, .brownNew => (0xFFFFFFFFFFFFFFFFFF, 0xB00000000000000000)
  | .binary32, .brownNext => (0xFFFFFFFFFFFFFFFFFF, 0xC00000000000000000)
  | .binary64, .oscNew _ _ _ _ => (0xF100000000000000000000000000000000, 0x1000000000000000000000000000000000)
  | .binary64, .oscSetf _ => (0xFF0000000000000000FFFFFFFFFFFFFFFF, 0x2000000000000000000000000000000000)
  | .binary64, .oscSetp _ => (0xFF0000000000000000FFFFFFFFFFFFFFFF, 0x3000000000000000000000000000000000)
  | .binary64, .oscRst => (0xFFFFFFFFFFFFFFFFFFFFFFFFFFFFFFFFFF, 0x4000000000000000000000000000000000)
  | .binary64, .oscNext => (0xFFFFFFFFFFFFFFFFFFFFFFFFFFFFFFFFFF, 0x5000000000000000000000000000000000)
  | .binary64, .oscBlep _ => (0xFF0000000000000000FFFFFFFFFFFFFFFF, 0x6000000000000000000000000000000000)
  | .binary64, .whiteNext => (0xFFFFFFFFFFFFFFFFFFFFFFFFFFFFFFFFFF, 0x8000000000000000000000000000000000)
  | .binary64, .pinkNew => (0xFFFFFFFFFFFFFFFFFFFFFFFFFFFFFFFFFF, 0x9000000000000000000000000000000000)
  | .binary64, .pinkNext => (0xFFFFFFFFFFFFFFFFFFFFFFFFFFFFFFFFFF, 0xA000000000000000000000000000000000)
  | .binary64, .brownNew => (0xFFFFFFFFFFFFFFFFFFFFFFFFFFFFFFFFFF, 0xB000000000000000000000000000000000)
  | .binary64, .brownNext => (0xFFFFFFFFFFFFFFFFFFFFFFFFFFFFFFFFFF, 0xC000000000000000000000000000000000)

/-- The number a list of bytes stands for, byte 0 the least significant (20_memory.md R33: "little-endian: byte 0 holds bits
7:0"). -/
def natOfBytes : List Byte → Nat
  | [] => 0
  | b :: rest => b.toNat + 256 * natOfBytes rest

/-- The first `n` bytes of a number, least significant first (R33). -/
def bytesOfNat : Nat → Nat → List Byte
  | 0, _ => []
  | n + 1, v => BitVec.ofNat 8 v :: bytesOfNat n (v / 256)

/-- A command word as a host or a test bench stores it (R33): `CW / 8` bytes, 9 or 17. -/
def cmdBytes (fmt : Fmt) (w : CmdWord) : List Byte := bytesOfNat (fmt.cmdWidth / 8) w.toNat

/-- Decoding of a stored word. Total on any byte list; a list that is not exactly one word is refused by name. -/
def decodeBytes (fmt : Fmt) (bs : List Byte) : Decoded :=
  if bs.length * 8 = fmt.cmdWidth then decode fmt (BitVec.ofNat 136 (natOfBytes bs)) else .reserved .partialWord

/-- The format whose command words have `nbits` bits in spec/opcode_table.json: 72 is `binary32`, 136 is `binary64`
(30_encoding.md R45). -/
def fmtOfTableBits (nbits : Nat) : Fmt := if nbits ≤ 72 then .binary32 else .binary64

/-- What the decoder reads from the table's word `w` of `nbits` bits: laid out as stored bytes, then decoded. -/
def decodeTableWord (nbits w : Nat) : Option Instr :=
  let fmt := fmtOfTableBits nbits
  match decodeBytes fmt (cmdBytes fmt (BitVec.ofNat 136 (w % 2 ^ nbits))) with
  | .command i => some i
  | .reserved _ => none

end Sys2Proof
end

