-- ==== Sys2Proof/Machine/Flags.lean ====
section
/-! DEFINITION. The status bits and flags (10_state.md R24, R25). The block has no condition codes and no arithmetic flags (R24), and
the IEEE 754 flags are not implemented (40_numerics.md R71): the only flags are the two sticky fault bits, the constructed
flag and the pins that show them. -/

namespace Sys2Proof.Machine

/-- The number of a fault (60_exceptions.md R146). -/
def faultNumber : FaultCode → Nat
  | .ill => 1
  | .unc => 2

/-- The first half of the fault action (60_exceptions.md R147): the sticky bit of the code is set, the other kept. -/
def setSticky (c : FaultCode) (s : State) : State :=
  match c with
  | .ill => { s with ill := true }
  | .unc => { s with unc := true }

/-- `S.V`, the constructed flag (10_state.md R18). -/
def State.constructed (s : State) : Bool := s.osc.isSome

/-- The output pin `fault_ill` (10_state.md R24, 20_memory.md R32). -/
def State.pinFaultIll (s : State) : Bool := s.ill

/-- The output pin `fault_unc` (R24, R32). -/
def State.pinFaultUnc (s : State) : Bool := s.unc

/-- The signal `cmd_ready` between steps (20_memory.md R36): low exactly while a command is in flight. -/
def State.cmdReady (s : State) : Bool := s.inflight.isNone

/-- The reference register `STATUS` (10_state.md R25): bit 1 is `UNC`, bit 0 is `ILL`. Not readable by any command. -/
def State.statusReg (s : State) : BitVec 2 := BitVec.ofNat 2 (2 * s.unc.toNat + s.ill.toNat)

end Sys2Proof.Machine
end

