-- ==== Sys2Proof/Machine/Operands.lean ====
section
/-! DEFINITION. What the bits of an operand mean (30_encoding.md R49, 40_numerics.md R64): the IEEE 754 interchange encoding of
`FMT`, read into a sign, a magnitude and a class, and written back.

Every finite value of a format is a whole number of UNITS, one unit being its least subnormal, `2 ^ (-lsbExp)`. So a
finite value is an integer of units, exact arithmetic on values is integer arithmetic, and no exponent is carried along. -/

namespace Sys2Proof.Machine

/-- One unit is `2 ^ (-lsbExp)`, the least subnormal of the format: 149 for `binary32`, 1074 for `binary64`. -/
def lsbExp (fmt : Fmt) : Nat := fmt.bias + fmt.fracBits - 1

/-- The encoding of `+inf`: exponent field all ones, fraction zero. Every finite magnitude is below it, every NaN above. -/
def infMag (fmt : Fmt) : Nat := (2 ^ fmt.expBits - 1) * 2 ^ fmt.fracBits

/-- The low `W` bits of a container (30_encoding.md R49). -/
def toWidth (fmt : Fmt) (x : Word) : Word := BitVec.ofNat 64 (x.toNat % 2 ^ fmt.width)

/-- The sign bit, bit `W - 1` (R64). -/
def negOf (fmt : Fmt) (x : Word) : Bool := decide (x.toNat / 2 ^ (fmt.width - 1) % 2 = 1)

/-- The bits below the sign, exponent and fraction fields together, as an unsigned number (R64). -/
def magOf (fmt : Fmt) (x : Word) : Nat := x.toNat % 2 ^ (fmt.width - 1)

/-- The word with a given sign and magnitude. -/
def mkWord (fmt : Fmt) (neg : Bool) (mag : Nat) : Word :=
  BitVec.ofNat 64 (if neg then 2 ^ (fmt.width - 1) + mag else mag)

/-- NaN: exponent field all ones, fraction not zero (R64). -/
def isNaN (fmt : Fmt) (x : Word) : Bool := decide (infMag fmt < magOf fmt x)

/-- An infinity: exponent field all ones, fraction zero (R64). -/
def isInf (fmt : Fmt) (x : Word) : Bool := decide (magOf fmt x = infMag fmt)

/-- A zero of either sign. -/
def isZero (fmt : Fmt) (x : Word) : Bool := decide (magOf fmt x = 0)

/-- A finite value: neither NaN nor an infinity. -/
def isFinite (fmt : Fmt) (x : Word) : Bool := decide (magOf fmt x < infMag fmt)

/-- The units of a magnitude (R64): the fraction itself in the subnormal range (exponent field 0), otherwise the significand
with its hidden bit, shifted by the exponent field less one. At `infMag` it is `2 ^ (emax + 1)`, above every finite value,
so that an infinity compares as one. -/
def unitsOf (fmt : Fmt) (mag : Nat) : Nat :=
  if mag < 2 ^ fmt.fracBits then mag
  else (2 ^ fmt.fracBits + mag % 2 ^ fmt.fracBits) * 2 ^ (mag / 2 ^ fmt.fracBits - 1)

/-- The signed units of a word. -/
def sunits (fmt : Fmt) (x : Word) : Int := if negOf fmt x then -(unitsOf fmt (magOf fmt x) : Int) else unitsOf fmt (magOf fmt x)

/-- The real value of a finite word, a dyadic rational. -/
def valueOf (fmt : Fmt) (x : Word) : Rat := (sunits fmt x : Rat) / ((2 ^ lsbExp fmt : Nat) : Rat)

/-- The canonical quiet NaN (40_numerics.md R70): sign 0, exponent all ones, top fraction bit 1, the rest 0. -/
def canonNaN (fmt : Fmt) : Word := mkWord fmt false (infMag fmt + 2 ^ (fmt.fracBits - 1))

/-- An infinity of a given sign. -/
def infWord (fmt : Fmt) (neg : Bool) : Word := mkWord fmt neg (infMag fmt)

/-- A zero of a given sign. -/
def zeroWord (fmt : Fmt) (neg : Bool) : Word := mkWord fmt neg 0

/-- `-y`: the sign bit flipped (40_numerics.md R66). Not a command's primitive; only `fsub` is defined by it. -/
def flipSign (fmt : Fmt) (x : Word) : Word := mkWord fmt (!negOf fmt x) (magOf fmt x)

end Sys2Proof.Machine
end

