-- ==== Sys2Proof/Machine/Numeric.lean ====
section
/-! DEFINITION. The numeric primitives in the `IEEE` profile (40_numerics.md R63 to R73) and the `IEEE` number systems, one for each sine
primitive. -/

namespace Sys2Proof.Machine

/-- `n / d` rounded to the nearest integer, ties to the even one. -/
def roundHalfEven (n d : Nat) : Nat :=
  let q := n / d
  let r := n % d
  if 2 * r < d then q else if d < 2 * r then q + 1 else q + q % 2

/-- How many units the last place of the result stands for, as a power of two, when `n / d` units are rounded: 0 in the
subnormal range and the first binade, one more for each further binade. -/
def quantumExp (fmt : Fmt) (n d : Nat) : Nat := Nat.log2 (n / d) - fmt.fracBits

/-- The magnitude of the value of `FMT` nearest to `n / d` units, ties to even (R65 roundTiesToEven): the significand is rounded to
a whole number of quanta and stands in the low bits, each binade above the first adds one to the exponent field above
them, and a significand that rounds up to the next power of two carries into that field. Gradual underflow, no flush to
zero; overflow gives the infinity. -/
def roundMag (fmt : Fmt) (n d : Nat) : Nat :=
  let e := quantumExp fmt n d
  min (e * 2 ^ fmt.fracBits + roundHalfEven n (d * 2 ^ e)) (infMag fmt)

/-- `fadd` (R65, R66, R70). -/
def fadd (fmt : Fmt) (x y : Word) : Word :=
  if isNaN fmt x || isNaN fmt y then canonNaN fmt
  else if isInf fmt x then
    if isInf fmt y && (negOf fmt x != negOf fmt y) then canonNaN fmt else infWord fmt (negOf fmt x)
  else if isInf fmt y then infWord fmt (negOf fmt y)
  else
    let t := sunits fmt x + sunits fmt y
    if t = 0 then zeroWord fmt (negOf fmt x && negOf fmt y)
    else mkWord fmt (decide (t < 0)) (roundMag fmt t.natAbs 1)

/-- `fsub(x, y) = fadd(x, -y)` (R66). -/
def fsub (fmt : Fmt) (x y : Word) : Word := fadd fmt x (flipSign fmt y)

/-- `fmul` (R65, R67, R70): a product of units is in units of `2 ^ (-2 lsbExp)`. -/
def fmul (fmt : Fmt) (x y : Word) : Word :=
  let neg := negOf fmt x != negOf fmt y
  if isNaN fmt x || isNaN fmt y then canonNaN fmt
  else if isInf fmt x || isInf fmt y then
    if isZero fmt x || isZero fmt y then canonNaN fmt else infWord fmt neg
  else mkWord fmt neg (roundMag fmt (unitsOf fmt (magOf fmt x) * unitsOf fmt (magOf fmt y)) (2 ^ lsbExp fmt))

/-- `fdiv` (R65, R68, R70). No division traps. -/
def fdiv (fmt : Fmt) (x y : Word) : Word :=
  let neg := negOf fmt x != negOf fmt y
  if isNaN fmt x || isNaN fmt y then canonNaN fmt
  else if isInf fmt x then if isInf fmt y then canonNaN fmt else infWord fmt neg
  else if isInf fmt y then zeroWord fmt neg
  else if isZero fmt y then if isZero fmt x then canonNaN fmt else infWord fmt neg
  else mkWord fmt neg (roundMag fmt (unitsOf fmt (magOf fmt x) * 2 ^ lsbExp fmt) (unitsOf fmt (magOf fmt y)))

/-- `flt`: real order, the two zeros equal, false with a NaN operand (R69). -/
def flt (fmt : Fmt) (x y : Word) : Bool :=
  !isNaN fmt x && !isNaN fmt y && decide (sunits fmt x < sunits fmt y)

/-- `fgt` (R69). -/
def fgt (fmt : Fmt) (x y : Word) : Bool :=
  !isNaN fmt x && !isNaN fmt y && decide (sunits fmt y < sunits fmt x)

/-- `fge` (R69). -/
def fge (fmt : Fmt) (x y : Word) : Bool :=
  !isNaN fmt x && !isNaN fmt y && decide (sunits fmt y ≤ sunits fmt x)

/-- `ftrunc`: toward zero, with the sign of the operand, zeros included (R72). 1.0 is `2 ^ lsbExp` units. -/
def ftrunc (fmt : Fmt) (x : Word) : Word :=
  if isNaN fmt x then canonNaN fmt
  else if isInf fmt x then infWord fmt (negOf fmt x)
  else mkWord fmt (negOf fmt x)
    (roundMag fmt (unitsOf fmt (magOf fmt x) / 2 ^ lsbExp fmt * 2 ^ lsbExp fmt) 1)

/-- A decimal literal's word (R79): `± digits / 10 ^ places` rounded to nearest, ties to even. A literal beyond the largest
finite value gives the infinity of its sign from the midpoint on, as the four operations do (R65); R79 does not say so: DESIGN CHOICE,
log 16. -/
def ofDecimal (fmt : Fmt) (neg : Bool) (digits places : Nat) : Word :=
  mkWord fmt neg (roundMag fmt (digits * 2 ^ lsbExp fmt) (10 ^ places))

/-- The constants' bit patterns, the table of 40_numerics.md R78 (columns `binary32` and `binary64`). The literals are the
document's, unaudited (91_not_in_source.md N3; UNVERIFIED, log 9): each stands in one line. `pg5` carries its sign (44_noise.md R132). -/
def constBits : Fmt → Const → Word
  | .binary32, .zero => 0x00000000
  | .binary32, .half => 0x3F000000
  | .binary32, .one => 0x3F800000
  | .binary32, .negOne => 0xBF800000
  | .binary32, .two => 0x40000000
  | .binary32, .three => 0x40400000
  | .binary32, .four => 0x40800000
  | .binary32, .negFour => 0xC0800000
  | .binary32, .twoPi => 0x40C90FDB
  | .binary32, .pa0 => 0x3F7FB54A
  | .binary32, .pa1 => 0x3F7E4A38
  | .binary32, .pa2 => 0x3F781062
  | .binary32, .pa3 => 0x3F5DD2F2
  | .binary32, .pa4 => 0x3F0CCCCD
  | .binary32, .pa5 => 0xBF42F838
  | .binary32, .pg0 => 0x3D6366BD
  | .binary32, .pg1 => 0x3D99C165
  | .binary32, .pg2 => 0x3E1D8B61
  | .binary32, .pg3 => 0x3E9EF7F8
  | .binary32, .pg4 => 0x3F086F8E
  | .binary32, .pg5 => 0xBC8A6DAD
  | .binary32, .pw => 0x3F094467
  | .binary32, .ps => 0x3DE147AE
  | .binary32, .bg => 0x3CA3D70A
  | .binary32, .bd => 0x3F828F5C
  | .binary32, .bs => 0x40600000
  | .binary64, .zero => 0x0000000000000000
  | .binary64, .half => 0x3FE0000000000000
  | .binary64, .one => 0x3FF0000000000000
  | .binary64, .negOne => 0xBFF0000000000000
  | .binary64, .two => 0x4000000000000000
  | .binary64, .three => 0x4008000000000000
  | .binary64, .four => 0x4010000000000000
  | .binary64, .negFour => 0xC010000000000000
  | .binary64, .twoPi => 0x401921FB54442D18
  | .binary64, .pa0 => 0x3FEFF6A93F290ABB
  | .binary64, .pa1 => 0x3FEFC947064ECE9A
  | .binary64, .pa2 => 0x3FEF020C49BA5E35
  | .binary64, .pa3 => 0x3FEBBA5E353F7CEE
  | .binary64, .pa4 => 0x3FE199999999999A
  | .binary64, .pa5 => 0xBFE85F06F6944674
  | .binary64, .pg0 => 0x3FAC6CD799AF690F
  | .binary64, .pg1 => 0x3FB3382C9737BF8A
  | .binary64, .pg2 => 0x3FC3B16C1E364BEC
  | .binary64, .pg3 => 0x3FD3DEFEFE784083
  | .binary64, .pg4 => 0x3FE10DF1C5AA999C
  | .binary64, .pg5 => 0xBF914DB59578A2A9
  | .binary64, .pw => 0x3FE1288CE703AFB8
  | .binary64, .ps => 0x3FBC28F5C28F5C29
  | .binary64, .bg => 0x3F947AE147AE147B
  | .binary64, .bd => 0x3FF051EB851EB852
  | .binary64, .bs => 0x400C000000000000

/-- The literals of 40_numerics.md R78 as the document writes them: sign, digits, number of decimal places. `twoPi` is the
decimal expansion that R78 prints, cut where the rule cuts it. -/
def constLiteral : Const → Bool × Nat × Nat
  | .zero => (false, 0, 0)
  | .half => (false, 5, 1)
  | .one => (false, 1, 0)
  | .negOne => (true, 1, 0)
  | .two => (false, 2, 0)
  | .three => (false, 3, 0)
  | .four => (false, 4, 0)
  | .negFour => (true, 4, 0)
  | .twoPi => (false, 6283185307179586476925286766559, 30)
  | .pa0 => (false, 99886, 5)
  | .pa1 => (false, 99332, 5)
  | .pa2 => (false, 96900, 5)
  | .pa3 => (false, 86650, 5)
  | .pa4 => (false, 55000, 5)
  | .pa5 => (true, 7616, 4)
  | .pg0 => (false, 555179, 7)
  | .pg1 => (false, 750759, 7)
  | .pg2 => (false, 1538520, 7)
  | .pg3 => (false, 3104856, 7)
  | .pg4 => (false, 5329522, 7)
  | .pg5 => (true, 168980, 7)
  | .pw => (false, 5362, 4)
  | .ps => (false, 11, 2)
  | .bg => (false, 2, 2)
  | .bd => (false, 102, 2)
  | .bs => (false, 35, 1)

/-- The `IEEE` number system of a format with a given sine primitive (00_scope.md R8, 40_numerics.md R63). -/
def ieee (fmt : Fmt) (sin : Word → Word) : NumSys Word where
  add := fadd fmt
  sub := fsub fmt
  mul := fmul fmt
  div := fdiv fmt
  lt := flt fmt
  gt := fgt fmt
  ge := fge fmt
  trunc := ftrunc fmt
  sin := sin
  k := constBits fmt

end Sys2Proof.Machine
end

