-- ==== Sys2Proof/Laws/Rounding.lean ====
section
/-! SUPPORT. Rounding (40_numerics.md R65): the units of magnitudes are strictly increasing, and `roundMag` answers at most `m` exactly when
its argument lies below the midpoint between the magnitudes `m` and `m + 1`, a tie going to the even one. Monotonicity,
exactness and nearness all follow from that one characterisation. -/

namespace Sys2Proof.Machine

theorem roundHalfEven_le_iff {n d k : Nat} (hd : 0 < d) :
    roundHalfEven n d ≤ k ↔ 2 * n < (2 * k + 1) * d ∨ (2 * n = (2 * k + 1) * d ∧ k % 2 = 0) := by
  have hn : d * (n / d) + n % d = n := Nat.div_add_mod n d
  have hr : n % d < d := Nat.mod_lt n hd
  unfold roundHalfEven
  generalize n / d = q at *
  generalize n % d = r at *
  subst hn
  rcases lt_trichotomy k q with hk | hk | hk
  · obtain ⟨j, rfl⟩ : ∃ j, q = k + 1 + j := ⟨q - (k + 1), by omega⟩
    have h1 : 2 * (d * (k + 1 + j) + r) = (2 * k + 1) * d + d + 2 * (d * j) + 2 * r := by ring
    rw [h1]
    dsimp only
    split_ifs <;> omega
  · subst hk
    have h1 : 2 * (d * k + r) = 2 * (d * k) + 2 * r := by ring
    have h2 : (2 * k + 1) * d = 2 * (d * k) + d := by ring
    rw [h1, h2]
    dsimp only
    split_ifs <;> omega
  · obtain ⟨j, rfl⟩ : ∃ j, k = q + 1 + j := ⟨k - (q + 1), by omega⟩
    have h1 : 2 * (d * q + r) = 2 * (d * q) + 2 * r := by ring
    have h2 : (2 * (q + 1 + j) + 1) * d = 2 * (d * q) + 3 * d + 2 * (d * j) := by ring
    rw [h1, h2]
    dsimp only
    split_ifs <;> omega

theorem fracBits_pos (fmt : Fmt) : 0 < fmt.fracBits := by cases fmt <;> decide

/-- On the binade of quantum `2 ^ e` (both its ends included) a magnitude's units are its significand times the quantum. -/
theorem unitsOf_binade (fmt : Fmt) (e j : Nat) (hlo : e = 0 ∨ 2 ^ fmt.fracBits ≤ j) (hhi : j ≤ 2 * 2 ^ fmt.fracBits) :
    unitsOf fmt (e * 2 ^ fmt.fracBits + j) = j * 2 ^ e := by
  have hP : 0 < 2 ^ fmt.fracBits := Nat.two_pow_pos _
  unfold unitsOf
  generalize 2 ^ fmt.fracBits = P at *
  by_cases h1 : j < P
  · have he : e = 0 := by omega
    subst he
    simp [h1]
  · have h2 : ¬ e * P + j < P := by
      have : 0 ≤ e * P := Nat.zero_le _
      omega
    rw [if_neg h2]
    by_cases h3 : j < 2 * P
    · have hd : (e * P + j) / P = e + 1 := by
        rw [Nat.div_eq_of_lt_le] <;> nlinarith
      have hm : (e * P + j) % P = j - P := by
        have := Nat.div_add_mod (e * P + j) P
        rw [hd] at this
        have h4 : P * (e + 1) = e * P + P := by ring
        omega
      rw [hd, hm]
      congr 1
      omega
    · have h4 : j = 2 * P := by omega
      subst h4
      have hd : (e * P + 2 * P) / P = e + 2 := by
        rw [← Nat.add_mul, Nat.mul_div_cancel _ hP]
      have hm : (e * P + 2 * P) % P = 0 := by
        rw [← Nat.add_mul, Nat.mul_mod_left]
      rw [hd, hm]
      simp only [Nat.add_zero, show e + 2 - 1 = e + 1 by omega]
      ring

/-- Every magnitude lies in one binade. -/
theorem exists_binade (fmt : Fmt) (m : Nat) :
    ∃ e j, m = e * 2 ^ fmt.fracBits + j ∧ (e = 0 ∨ 2 ^ fmt.fracBits ≤ j) ∧ j < 2 * 2 ^ fmt.fracBits := by
  have hP : 0 < 2 ^ fmt.fracBits := Nat.two_pow_pos _
  generalize 2 ^ fmt.fracBits = P at *
  by_cases h : m < P
  · exact ⟨0, m, by omega, by omega, by omega⟩
  · have h1 := Nat.div_add_mod m P
    have h2 := Nat.mod_lt m hP
    have h3 : 1 ≤ m / P := (Nat.one_le_div_iff hP).2 (by omega)
    obtain ⟨e, he⟩ : ∃ e, m / P = e + 1 := ⟨m / P - 1, by omega⟩
    rw [he] at h1
    have h4 : P * (e + 1) = e * P + P := by ring
    exact ⟨e, P + m % P, by omega, by omega, by omega⟩

theorem unitsOf_lt_succ (fmt : Fmt) (m : Nat) : unitsOf fmt m < unitsOf fmt (m + 1) := by
  obtain ⟨e, j, rfl, hlo, hhi⟩ := exists_binade fmt m
  rw [unitsOf_binade fmt e j hlo (by omega), Nat.add_assoc, unitsOf_binade fmt e (j + 1) (by omega) (by omega)]
  have := Nat.two_pow_pos e
  nlinarith

theorem unitsOf_strictMono (fmt : Fmt) : StrictMono (unitsOf fmt) := strictMono_nat_of_lt_succ (unitsOf_lt_succ fmt)

theorem unitsOf_le_iff {fmt : Fmt} {a b : Nat} : unitsOf fmt a ≤ unitsOf fmt b ↔ a ≤ b := (unitsOf_strictMono fmt).le_iff_le

theorem unitsOf_lt_iff {fmt : Fmt} {a b : Nat} : unitsOf fmt a < unitsOf fmt b ↔ a < b := (unitsOf_strictMono fmt).lt_iff_lt

@[simp] theorem unitsOf_zero (fmt : Fmt) : unitsOf fmt 0 = 0 := by
  simp [unitsOf]

/-- The characterisation of rounding. -/
theorem roundMag_le_iff {fmt : Fmt} {n d m : Nat} (hd : 0 < d) (hm : m < infMag fmt) :
    roundMag fmt n d ≤ m ↔
      2 * n < (unitsOf fmt m + unitsOf fmt (m + 1)) * d ∨
        (2 * n = (unitsOf fmt m + unitsOf fmt (m + 1)) * d ∧ m % 2 = 0) := by
  have hP : 0 < 2 ^ fmt.fracBits := Nat.two_pow_pos _
  have hPeven : 2 ^ fmt.fracBits % 2 = 0 := by
    obtain ⟨g, hg⟩ : ∃ g, fmt.fracBits = g + 1 := ⟨fmt.fracBits - 1, by have := fracBits_pos fmt; omega⟩
    rw [hg, pow_succ]; omega
  have hk1 : n / d * d ≤ n := Nat.div_mul_le_self n d
  have hk2 : n < (n / d + 1) * d := by
    have := Nat.lt_div_mul_add (a := n) hd
    nlinarith
  unfold roundMag
  dsimp only
  rw [min_le_iff]
  have hmin : ∀ a : Nat, (a ≤ m ∨ infMag fmt ≤ m) ↔ a ≤ m := fun a => by omega
  rw [hmin]
  -- the quotient lies in the binade of the quantum
  have hlow : quantumExp fmt n d = 0 ∨ 2 ^ fmt.fracBits * 2 ^ quantumExp fmt n d ≤ n / d := by
    unfold quantumExp
    by_cases h : Nat.log2 (n / d) ≤ fmt.fracBits
    · left; omega
    · right
      have hne : n / d ≠ 0 := by intro h0; rw [h0] at h; simp at h
      rw [← pow_add, show fmt.fracBits + (Nat.log2 (n / d) - fmt.fracBits) = Nat.log2 (n / d) by omega]
      exact Nat.log2_self_le hne
  have hhigh : n / d + 1 ≤ 2 * 2 ^ fmt.fracBits * 2 ^ quantumExp fmt n d := by
    unfold quantumExp
    have h1 : n / d < 2 ^ (Nat.log2 (n / d) + 1) := Nat.lt_log2_self
    have h2 : 2 ^ (Nat.log2 (n / d) + 1) ≤ 2 * 2 ^ fmt.fracBits * 2 ^ (Nat.log2 (n / d) - fmt.fracBits) := by
      rw [show 2 * 2 ^ fmt.fracBits = 2 ^ (fmt.fracBits + 1) by ring, ← pow_add]
      exact Nat.pow_le_pow_right (by omega) (by omega)
    omega
  generalize quantumExp fmt n d = e at *
  have hQ : 0 < 2 ^ e := Nat.two_pow_pos e
  have hdQ : 0 < d * 2 ^ e := Nat.mul_pos hd hQ
  have umono := unitsOf_lt_succ fmt m
  have hupper : unitsOf fmt (e * 2 ^ fmt.fracBits + 2 * 2 ^ fmt.fracBits) = 2 * 2 ^ fmt.fracBits * 2 ^ e :=
    unitsOf_binade fmt e _ (by omega) (by omega)
  have hrange : roundHalfEven n (d * 2 ^ e) ≤ 2 * 2 ^ fmt.fracBits := by
    rw [roundHalfEven_le_iff hdQ]
    left
    generalize n / d = k at *
    generalize 2 ^ fmt.fracBits = P at *
    generalize 2 ^ e = Q at *
    have h1 : (k + 1) * d ≤ 2 * P * Q * d := Nat.mul_le_mul_right d hhigh
    nlinarith [Nat.mul_pos hd hQ]
  have hrangeLow : e = 0 ∨ 2 ^ fmt.fracBits ≤ roundHalfEven n (d * 2 ^ e) := by
    rcases hlow with h | h
    · exact Or.inl h
    · right
      by_contra hcon
      have hle : roundHalfEven n (d * 2 ^ e) ≤ 2 ^ fmt.fracBits - 1 := by omega
      rw [roundHalfEven_le_iff hdQ] at hle
      generalize n / d = k at *
      generalize 2 ^ fmt.fracBits = P at *
      generalize 2 ^ e = Q at *
      have h1 : P * Q * d ≤ k * d := Nat.mul_le_mul_right d h
      have h2 : (2 * (P - 1) + 1) * (d * Q) + d * Q = 2 * (P * Q * d) := by
        obtain ⟨p, rfl⟩ : ∃ p, P = p + 1 := ⟨P - 1, by omega⟩
        simp only [Nat.add_sub_cancel]; ring
      omega
  rcases lt_or_ge m (e * 2 ^ fmt.fracBits + 2 * 2 ^ fmt.fracBits) with hmu | hmu
  · by_cases hml : e = 0 ∨ e * 2 ^ fmt.fracBits + 2 ^ fmt.fracBits ≤ m
    · -- the same binade
      obtain ⟨j, rfl⟩ : ∃ j, m = e * 2 ^ fmt.fracBits + j := by
        rcases hml with h | h
        · exact ⟨m, by subst h; omega⟩
        · exact ⟨m - e * 2 ^ fmt.fracBits, by omega⟩
      have hj : e = 0 ∨ 2 ^ fmt.fracBits ≤ j := by omega
      rw [Nat.add_assoc (e * 2 ^ fmt.fracBits) j 1, unitsOf_binade fmt e j hj (by omega),
        unitsOf_binade fmt e (j + 1) (by omega) (by omega)]
      have hpar : (e * 2 ^ fmt.fracBits + j) % 2 = j % 2 := by
        rw [Nat.add_mod, Nat.mul_mod, hPeven]; simp
      rw [hpar, Nat.add_le_add_iff_left, roundHalfEven_le_iff hdQ]
      rw [show (j * 2 ^ e + (j + 1) * 2 ^ e) * d = (2 * j + 1) * (d * 2 ^ e) by ring]
    · -- below it
      have he : e ≠ 0 := by tauto
      have hPe : 2 ^ fmt.fracBits ≤ roundHalfEven n (d * 2 ^ e) := by tauto
      have h1 : unitsOf fmt (m + 1) ≤ 2 ^ fmt.fracBits * 2 ^ e := by
        rw [← unitsOf_binade fmt e (2 ^ fmt.fracBits) (by omega) (by omega), unitsOf_le_iff]
        omega
      have h2 : 2 ^ fmt.fracBits * 2 ^ e ≤ n / d := by tauto
      have h3 : (unitsOf fmt m + unitsOf fmt (m + 1)) * d < 2 * n := by
        generalize unitsOf fmt m = u at *
        generalize unitsOf fmt (m + 1) = v at *
        have h4 : u + v + 1 ≤ 2 * (n / d) := by omega
        have h5 : (u + v + 1) * d ≤ 2 * (n / d) * d := Nat.mul_le_mul_right d h4
        nlinarith
      constructor
      · intro h; omega
      · intro h; omega
  · -- above it
    have h1 : 2 * 2 ^ fmt.fracBits * 2 ^ e ≤ unitsOf fmt m := by
      rw [← hupper, unitsOf_le_iff]; exact hmu
    have h2 : 2 * n < (unitsOf fmt m + unitsOf fmt (m + 1)) * d := by
      generalize unitsOf fmt m = u at *
      generalize unitsOf fmt (m + 1) = v at *
      have h4 : 2 * (n / d + 1) ≤ u + v := by omega
      have h5 : 2 * (n / d + 1) * d ≤ (u + v) * d := Nat.mul_le_mul_right d h4
      nlinarith
    constructor
    · intro _; exact Or.inl h2
    · intro _; omega

theorem roundMag_le_infMag (fmt : Fmt) (n d : Nat) : roundMag fmt n d ≤ infMag fmt := by
  unfold roundMag; exact min_le_right _ _

/-- An argument at most the value of a magnitude rounds to at most that magnitude. -/
theorem roundMag_le_of_le {fmt : Fmt} {n d m : Nat} (hd : 0 < d) (h : n ≤ unitsOf fmt m * d) : roundMag fmt n d ≤ m := by
  by_cases hm : m < infMag fmt
  · rw [roundMag_le_iff hd hm]
    left
    have := unitsOf_lt_succ fmt m
    nlinarith
  · exact le_trans (roundMag_le_infMag fmt n d) (by omega)

/-- An argument at least the value of a magnitude rounds to at least that magnitude. -/
theorem le_roundMag_of_le {fmt : Fmt} {n d m : Nat} (hd : 0 < d) (hm : m ≤ infMag fmt) (h : unitsOf fmt m * d ≤ n) :
    m ≤ roundMag fmt n d := by
  by_contra hcon
  obtain ⟨k, rfl⟩ : ∃ k, m = k + 1 := ⟨m - 1, by omega⟩
  have hle : roundMag fmt n d ≤ k := by omega
  rw [roundMag_le_iff hd (by omega)] at hle
  have := unitsOf_lt_succ fmt k
  have h2 : (unitsOf fmt k + unitsOf fmt (k + 1)) * d < 2 * n := by nlinarith
  omega

/-- A representable value rounds to itself. -/
theorem roundMag_exact {fmt : Fmt} {d m : Nat} (hd : 0 < d) (hm : m ≤ infMag fmt) :
    roundMag fmt (unitsOf fmt m * d) d = m :=
  le_antisymm (roundMag_le_of_le hd le_rfl) (le_roundMag_of_le hd hm le_rfl)

/-- Rounding is monotonic (40_numerics.md R83 item 5). -/
theorem roundMag_mono {fmt : Fmt} {n d n' d' : Nat} (hd : 0 < d) (hd' : 0 < d') (h : n * d' ≤ n' * d) :
    roundMag fmt n d ≤ roundMag fmt n' d' := by
  by_cases hm : roundMag fmt n' d' < infMag fmt
  · rw [roundMag_le_iff hd hm]
    have h' := (roundMag_le_iff (n := n') hd' hm).1 le_rfl
    generalize unitsOf fmt (roundMag fmt n' d') + unitsOf fmt (roundMag fmt n' d' + 1) = u at *
    have h1 : (2 * n) * d' ≤ (2 * n') * d := by nlinarith
    rcases h' with h' | ⟨h', hev⟩
    · left
      have : (2 * n) * d' < (u * d) * d' := by
        calc (2 * n) * d' ≤ (2 * n') * d := h1
          _ < (u * d') * d := Nat.mul_lt_mul_of_pos_right h' hd
          _ = (u * d) * d' := by ring
      exact Nat.lt_of_mul_lt_mul_right this
    · have : (2 * n) * d' ≤ (u * d) * d' := by
        calc (2 * n) * d' ≤ (2 * n') * d := h1
          _ = (u * d') * d := by rw [h']
          _ = (u * d) * d' := by ring
      have h2 : 2 * n ≤ u * d := Nat.le_of_mul_le_mul_right this hd'
      rcases Nat.lt_or_ge (2 * n) (u * d) with h3 | h3
      · exact Or.inl h3
      · exact Or.inr ⟨by omega, hev⟩
  · have := roundMag_le_infMag fmt n d
    have := roundMag_le_infMag fmt n' d'
    omega

/-- No finite magnitude is nearer to the argument than its rounding, when the rounding is finite. -/
theorem roundMag_nearest {fmt : Fmt} {n d : Nat} (hd : 0 < d) (hr : roundMag fmt n d < infMag fmt) (m : Nat) :
    |(unitsOf fmt (roundMag fmt n d) * d : Int) - n| ≤ |(unitsOf fmt m * d : Int) - n| := by
  have h1 := (roundMag_le_iff (n := n) hd hr).1 le_rfl
  set r := roundMag fmt n d with hrdef
  have hlow : r = 0 ∨ (unitsOf fmt (r - 1) + unitsOf fmt r) * d ≤ 2 * n := by
    rcases Nat.eq_zero_or_pos r with h0 | h0
    · exact Or.inl h0
    · right
      by_contra hcon
      have : roundMag fmt n d ≤ r - 1 := by
        rw [roundMag_le_iff hd (by omega)]
        left
        rw [show r - 1 + 1 = r by omega]; omega
      omega
  have h1' : 2 * n ≤ (unitsOf fmt r + unitsOf fmt (r + 1)) * d := by omega
  rcases lt_trichotomy m r with h | h | h
  · have hl : (unitsOf fmt (r - 1) + unitsOf fmt r) * d ≤ 2 * n := by
      rcases hlow with h0 | h0
      · omega
      · exact h0
    have hm : unitsOf fmt m ≤ unitsOf fmt (r - 1) := unitsOf_le_iff.2 (by omega)
    have hm2 : unitsOf fmt m ≤ unitsOf fmt r := unitsOf_le_iff.2 (by omega)
    have e1 : unitsOf fmt m * d ≤ unitsOf fmt (r - 1) * d := Nat.mul_le_mul_right d hm
    have e3 : unitsOf fmt m * d ≤ unitsOf fmt r * d := Nat.mul_le_mul_right d hm2
    rw [Nat.add_mul] at hl
    zify at *
    rw [abs_le]
    constructor
    · have := neg_abs_le ((unitsOf fmt m * d : Int) - n); linarith [abs_nonneg ((unitsOf fmt m * d : Int) - n), neg_le_abs ((unitsOf fmt m * d : Int) - n)]
    · linarith [neg_le_abs ((unitsOf fmt m * d : Int) - n)]
  · subst h; exact le_rfl
  · have hm : unitsOf fmt (r + 1) ≤ unitsOf fmt m := unitsOf_le_iff.2 (by omega)
    have hm2 : unitsOf fmt r ≤ unitsOf fmt m := unitsOf_le_iff.2 (by omega)
    have e1 : unitsOf fmt (r + 1) * d ≤ unitsOf fmt m * d := Nat.mul_le_mul_right d hm
    have e3 : unitsOf fmt r * d ≤ unitsOf fmt m * d := Nat.mul_le_mul_right d hm2
    rw [Nat.add_mul] at h1'
    zify at *
    rw [abs_le]
    constructor
    · linarith [le_abs_self ((unitsOf fmt m * d : Int) - n)]
    · linarith [le_abs_self ((unitsOf fmt m * d : Int) - n)]

end Sys2Proof.Machine
end

