-- ==== Sys2Proof/Laws/Arithmetic.lean ====
section
/-! SUPPORT. The IEEE primitives on finite operands, said once: the units of a result are the exact units of the operation rounded by
`signedRound`, and `signedRound` is monotonic and exact on representable values. Callers cite these and do not unfold the
primitives. -/

namespace Sys2Proof.Machine

theorem nanMag_lt (fmt : Fmt) : infMag fmt + 2 ^ (fmt.fracBits - 1) < 2 ^ (fmt.width - 1) := by cases fmt <;> decide

theorem infMag_lt (fmt : Fmt) : infMag fmt < 2 ^ (fmt.width - 1) := lt_of_le_of_lt (Nat.le_add_right _ _) (nanMag_lt fmt)

theorem infMag_pos (fmt : Fmt) : 0 < infMag fmt := by cases fmt <;> decide

theorem width_eq (fmt : Fmt) : 2 ^ fmt.width = 2 * 2 ^ (fmt.width - 1) := by cases fmt <;> decide

theorem width_le (fmt : Fmt) : 2 ^ fmt.width ≤ 2 ^ 64 := by cases fmt <;> decide

theorem toNat_mkWord {fmt : Fmt} {s : Bool} {m : Nat} (h : m < 2 ^ (fmt.width - 1)) :
    (mkWord fmt s m).toNat = if s then 2 ^ (fmt.width - 1) + m else m := by
  have h1 := width_eq fmt
  have h2 := width_le fmt
  unfold mkWord
  rw [BitVec.toNat_ofNat]
  apply Nat.mod_eq_of_lt
  split <;> omega

@[simp] theorem magOf_mkWord {fmt : Fmt} {s : Bool} {m : Nat} (h : m < 2 ^ (fmt.width - 1)) : magOf fmt (mkWord fmt s m) = m := by
  unfold magOf
  rw [toNat_mkWord h]
  cases s
  · simp [Nat.mod_eq_of_lt h]
  · simp [Nat.mod_eq_of_lt h]

@[simp] theorem negOf_mkWord {fmt : Fmt} {s : Bool} {m : Nat} (h : m < 2 ^ (fmt.width - 1)) : negOf fmt (mkWord fmt s m) = s := by
  have hp : 0 < 2 ^ (fmt.width - 1) := Nat.two_pow_pos _
  unfold negOf
  rw [toNat_mkWord h]
  cases s
  · simp [Nat.div_eq_of_lt h]
  · simp [Nat.add_div_left _ hp, Nat.div_eq_of_lt h]

theorem fits_mkWord {fmt : Fmt} {s : Bool} {m : Nat} (h : m < 2 ^ (fmt.width - 1)) : fits fmt (mkWord fmt s m) = true := by
  have h1 := width_eq fmt
  unfold fits
  rw [toNat_mkWord h, decide_eq_true_iff]
  split <;> omega

theorem magOf_lt (fmt : Fmt) (x : Word) : magOf fmt x < 2 ^ (fmt.width - 1) := Nat.mod_lt _ (Nat.two_pow_pos _)

theorem sunits_mkWord {fmt : Fmt} {s : Bool} {m : Nat} (h : m < 2 ^ (fmt.width - 1)) :
    sunits fmt (mkWord fmt s m) = if s then -(unitsOf fmt m : Int) else unitsOf fmt m := by
  unfold sunits
  rw [magOf_mkWord h, negOf_mkWord h]

theorem isNaN_eq_false {fmt : Fmt} {x : Word} : isNaN fmt x = false ↔ magOf fmt x ≤ infMag fmt := by
  simp [isNaN]

theorem isFinite_iff {fmt : Fmt} {x : Word} : isFinite fmt x = true ↔ magOf fmt x < infMag fmt := by
  simp [isFinite]

theorem isInf_iff {fmt : Fmt} {x : Word} : isInf fmt x = true ↔ magOf fmt x = infMag fmt := by
  simp [isInf]

theorem isZero_iff {fmt : Fmt} {x : Word} : isZero fmt x = true ↔ magOf fmt x = 0 := by
  simp [isZero]

theorem isNaN_of_isFinite {fmt : Fmt} {x : Word} (h : isFinite fmt x = true) : isNaN fmt x = false := by
  rw [isNaN_eq_false]; rw [isFinite_iff] at h; omega

theorem isInf_of_isFinite {fmt : Fmt} {x : Word} (h : isFinite fmt x = true) : isInf fmt x = false := by
  rw [isFinite_iff] at h
  simp only [isInf, decide_eq_false_iff_not]; omega

theorem sunits_eq_zero_iff {fmt : Fmt} {x : Word} : sunits fmt x = 0 ↔ magOf fmt x = 0 := by
  have h : unitsOf fmt (magOf fmt x) = 0 ↔ magOf fmt x = 0 := by
    constructor
    · intro h
      have : unitsOf fmt (magOf fmt x) ≤ unitsOf fmt 0 := by simp [h]
      exact Nat.le_zero.1 (unitsOf_le_iff.1 this)
    · intro h; simp [h]
  unfold sunits
  split
  · rw [neg_eq_zero, Int.natCast_eq_zero, h]
  · rw [Int.natCast_eq_zero, h]

/-- The units of the value nearest to `t / d` units, with its sign. -/
def signedRound (fmt : Fmt) (t : Int) (d : Nat) : Int :=
  if t < 0 then -(unitsOf fmt (roundMag fmt t.natAbs d) : Int) else unitsOf fmt (roundMag fmt t.natAbs d)

@[simp] theorem signedRound_zero {fmt : Fmt} {d : Nat} (hd : 0 < d) : signedRound fmt 0 d = 0 := by
  have : roundMag fmt 0 d ≤ 0 := roundMag_le_of_le hd (by simp)
  simp [signedRound, Nat.le_zero.1 this]

theorem signedRound_neg {fmt : Fmt} {t : Int} {d : Nat} (hd : 0 < d) : signedRound fmt (-t) d = -signedRound fmt t d := by
  rcases lt_trichotomy t 0 with h | h | h
  · simp [signedRound, h, not_lt.2 (le_of_lt h), Int.natAbs_neg]
  · subst h; simp [hd]
  · simp [signedRound, h, not_lt.2 (le_of_lt h), Int.natAbs_neg]

theorem signedRound_nonneg {fmt : Fmt} {t : Int} {d : Nat} (h : 0 ≤ t) : 0 ≤ signedRound fmt t d := by
  simp [signedRound, not_lt.2 h]

theorem signedRound_of_nonneg {fmt : Fmt} {t : Int} {d : Nat} (h : 0 ≤ t) :
    signedRound fmt t d = unitsOf fmt (roundMag fmt t.natAbs d) := by
  simp [signedRound, not_lt.2 h]

/-- Rounding is monotonic, over the signed values (40_numerics.md R83 item 5). -/
theorem signedRound_mono {fmt : Fmt} {t t' : Int} {d d' : Nat} (hd : 0 < d) (hd' : 0 < d') (h : t * d' ≤ t' * d) :
    signedRound fmt t d ≤ signedRound fmt t' d' := by
  have key : ∀ {a a' : Int} {e e' : Nat}, 0 < e → 0 < e' → 0 ≤ a → a * e' ≤ a' * e →
      signedRound fmt a e ≤ signedRound fmt a' e' := by
    intro a a' e e' he he' ha hle
    have ha' : 0 ≤ a' := by
      by_contra hcon
      have : a' * e < 0 := mul_neg_of_neg_of_pos (by omega) (by exact_mod_cast he)
      have : 0 ≤ a * e' := mul_nonneg ha (by positivity)
      omega
    rw [signedRound_of_nonneg ha, signedRound_of_nonneg ha']
    have : a.natAbs * e' ≤ a'.natAbs * e := by
      zify
      rw [abs_of_nonneg ha, abs_of_nonneg ha']; exact hle
    exact_mod_cast unitsOf_le_iff.2 (roundMag_mono he he' this)
  by_cases ht : 0 ≤ t
  · exact key hd hd' ht h
  · by_cases ht' : 0 ≤ t'
    · have h1 : signedRound fmt t d ≤ 0 := by
        have : 0 ≤ signedRound fmt (-t) d := signedRound_nonneg (by omega)
        rw [signedRound_neg hd] at this; omega
      exact le_trans h1 (signedRound_nonneg ht')
    · have := key (a := -t') (a' := -t) hd' hd (by omega) (by rw [neg_mul, neg_mul]; omega)
      rw [signedRound_neg hd', signedRound_neg hd] at this
      omega

/-- The value of a word that is not NaN rounds to itself. -/
theorem signedRound_exact {fmt : Fmt} {z : Word} {d : Nat} (hd : 0 < d) (hz : isNaN fmt z = false) :
    signedRound fmt (sunits fmt z * d) d = sunits fmt z := by
  rw [isNaN_eq_false] at hz
  have hpos : signedRound fmt ((unitsOf fmt (magOf fmt z) : Int) * d) d = unitsOf fmt (magOf fmt z) := by
    rw [signedRound_of_nonneg (by positivity)]
    rw [show ((unitsOf fmt (magOf fmt z) : Int) * d).natAbs = unitsOf fmt (magOf fmt z) * d by
      rw [Int.natAbs_mul]; simp]
    rw [roundMag_exact hd hz]
  unfold sunits
  split
  · rw [neg_mul, signedRound_neg hd, hpos]
  · exact hpos

theorem signedRound_le {fmt : Fmt} {t : Int} {d : Nat} {z : Word} (hd : 0 < d) (hz : isNaN fmt z = false)
    (h : t ≤ sunits fmt z * d) : signedRound fmt t d ≤ sunits fmt z := by
  rw [← signedRound_exact hd hz]
  exact signedRound_mono hd hd (by have : (0 : Int) < d := by exact_mod_cast hd
                                   nlinarith)

theorem le_signedRound {fmt : Fmt} {t : Int} {d : Nat} {z : Word} (hd : 0 < d) (hz : isNaN fmt z = false)
    (h : sunits fmt z * d ≤ t) : sunits fmt z ≤ signedRound fmt t d := by
  rw [← signedRound_exact hd hz]
  exact signedRound_mono hd hd (by have : (0 : Int) < d := by exact_mod_cast hd
                                   nlinarith)

theorem roundMag_lt_width (fmt : Fmt) (n d : Nat) : roundMag fmt n d < 2 ^ (fmt.width - 1) :=
  lt_of_le_of_lt (roundMag_le_infMag fmt n d) (infMag_lt fmt)

theorem notNaN_mkWord_roundMag (fmt : Fmt) (s : Bool) (n d : Nat) : isNaN fmt (mkWord fmt s (roundMag fmt n d)) = false := by
  rw [isNaN_eq_false, magOf_mkWord (roundMag_lt_width fmt n d)]; exact roundMag_le_infMag fmt n d

@[simp] theorem isNaN_zeroWord (fmt : Fmt) (s : Bool) : isNaN fmt (zeroWord fmt s) = false := by
  rw [isNaN_eq_false]
  unfold zeroWord
  rw [magOf_mkWord (Nat.two_pow_pos _)]; exact Nat.zero_le _

@[simp] theorem sunits_zeroWord (fmt : Fmt) (s : Bool) : sunits fmt (zeroWord fmt s) = 0 := by
  unfold zeroWord
  rw [sunits_mkWord (Nat.two_pow_pos _)]; simp

@[simp] theorem isNaN_infWord (fmt : Fmt) (s : Bool) : isNaN fmt (infWord fmt s) = false := by
  unfold infWord
  rw [isNaN_eq_false, magOf_mkWord (infMag_lt fmt)]

@[simp] theorem isNaN_canonNaN (fmt : Fmt) : isNaN fmt (canonNaN fmt) = true := by
  cases fmt <;> decide

/-- `fadd` of finite operands is the exact sum rounded, and no NaN. -/
theorem fadd_finite {fmt : Fmt} {x y : Word} (hx : isFinite fmt x = true) (hy : isFinite fmt y = true) :
    isNaN fmt (fadd fmt x y) = false ∧ sunits fmt (fadd fmt x y) = signedRound fmt (sunits fmt x + sunits fmt y) 1 := by
  unfold fadd
  simp only [isNaN_of_isFinite hx, isNaN_of_isFinite hy, isInf_of_isFinite hx, isInf_of_isFinite hy, Bool.or_self,
    Bool.false_eq_true, if_false]
  split_ifs with h
  · refine ⟨isNaN_zeroWord _ _, ?_⟩
    rw [sunits_zeroWord, h, signedRound_zero Nat.one_pos]
  · refine ⟨notNaN_mkWord_roundMag _ _ _ _, ?_⟩
    rw [sunits_mkWord (roundMag_lt_width _ _ _)]
    by_cases hneg : sunits fmt x + sunits fmt y < 0 <;> simp [signedRound, hneg]

theorem flipSign_finite {fmt : Fmt} {x : Word} :
    magOf fmt (flipSign fmt x) = magOf fmt x ∧ sunits fmt (flipSign fmt x) = -sunits fmt x := by
  unfold flipSign
  refine ⟨magOf_mkWord (magOf_lt fmt x), ?_⟩
  rw [sunits_mkWord (magOf_lt fmt x)]
  unfold sunits
  cases negOf fmt x <;> simp

theorem isFinite_flipSign {fmt : Fmt} {x : Word} : isFinite fmt (flipSign fmt x) = isFinite fmt x := by
  unfold isFinite
  rw [flipSign_finite.1]

/-- `fsub` of finite operands is the exact difference rounded, and no NaN. -/
theorem fsub_finite {fmt : Fmt} {x y : Word} (hx : isFinite fmt x = true) (hy : isFinite fmt y = true) :
    isNaN fmt (fsub fmt x y) = false ∧ sunits fmt (fsub fmt x y) = signedRound fmt (sunits fmt x - sunits fmt y) 1 := by
  have := fadd_finite hx (isFinite_flipSign.trans hy)
  unfold fsub
  rw [flipSign_finite.2, ← sub_eq_add_neg] at this
  exact this

theorem natAbs_sunits (fmt : Fmt) (x : Word) : (sunits fmt x).natAbs = unitsOf fmt (magOf fmt x) := by
  unfold sunits; split <;> simp

theorem sunits_neg_iff {fmt : Fmt} {x : Word} (hx : magOf fmt x ≠ 0) : sunits fmt x < 0 ↔ negOf fmt x = true := by
  have hpos : 0 < unitsOf fmt (magOf fmt x) := by
    have : unitsOf fmt 0 < unitsOf fmt (magOf fmt x) := unitsOf_lt_iff.2 (Nat.pos_of_ne_zero hx)
    simpa using this
  unfold sunits
  split
  · simp_all
  · simp_all

/-- `fmul` of finite operands is the exact product rounded, and no NaN. -/
theorem fmul_finite {fmt : Fmt} {x y : Word} (hx : isFinite fmt x = true) (hy : isFinite fmt y = true) :
    isNaN fmt (fmul fmt x y) = false ∧
      sunits fmt (fmul fmt x y) = signedRound fmt (sunits fmt x * sunits fmt y) (2 ^ lsbExp fmt) := by
  have hL : 0 < 2 ^ lsbExp fmt := Nat.two_pow_pos _
  unfold fmul
  simp only [isNaN_of_isFinite hx, isNaN_of_isFinite hy, isInf_of_isFinite hx, isInf_of_isFinite hy, Bool.or_self,
    Bool.false_eq_true, if_false]
  refine ⟨notNaN_mkWord_roundMag _ _ _ _, ?_⟩
  rw [sunits_mkWord (roundMag_lt_width _ _ _)]
  by_cases h0 : magOf fmt x = 0 ∨ magOf fmt y = 0
  · have h1 : unitsOf fmt (magOf fmt x) * unitsOf fmt (magOf fmt y) = 0 := by
      rcases h0 with h | h <;> simp [h]
    have h2 : sunits fmt x * sunits fmt y = 0 := by
      rcases h0 with h | h
      · rw [sunits_eq_zero_iff.2 h, zero_mul]
      · rw [sunits_eq_zero_iff.2 h, mul_zero]
    have h3 : roundMag fmt 0 (2 ^ lsbExp fmt) = 0 := Nat.le_zero.1 (roundMag_le_of_le hL (by simp))
    rw [h1, h2, signedRound_zero hL, h3]
    simp
  · have hx0 : magOf fmt x ≠ 0 := by tauto
    have hy0 : magOf fmt y ≠ 0 := by tauto
    have hneg : (sunits fmt x * sunits fmt y < 0) ↔ (negOf fmt x != negOf fmt y) = true := by
      have hxi := sunits_neg_iff hx0
      have hyi := sunits_neg_iff hy0
      have hx1 : sunits fmt x ≠ 0 := fun h => hx0 (sunits_eq_zero_iff.1 h)
      have hy1 : sunits fmt y ≠ 0 := fun h => hy0 (sunits_eq_zero_iff.1 h)
      rw [mul_neg_iff]
      cases hnx : negOf fmt x <;> cases hny : negOf fmt y <;> simp [hnx, hny] at hxi hyi ⊢ <;> omega
    unfold signedRound
    rw [Int.natAbs_mul, natAbs_sunits, natAbs_sunits]
    by_cases h : (negOf fmt x != negOf fmt y) = true
    · rw [if_pos h, if_pos (hneg.2 h)]
    · rw [if_neg h, if_neg (fun h' => h (hneg.1 h'))]

/-- `fdiv` of finite operands, the divisor not zero, is the exact quotient rounded, and no NaN. -/
theorem fdiv_finite {fmt : Fmt} {x y : Word} (hx : isFinite fmt x = true) (hy : isFinite fmt y = true) (hy0 : magOf fmt y ≠ 0) :
    isNaN fmt (fdiv fmt x y) = false ∧
      sunits fmt (fdiv fmt x y) =
        signedRound fmt ((sunits fmt x * 2 ^ lsbExp fmt) * (sunits fmt y).sign) (sunits fmt y).natAbs := by
  have hypos : 0 < unitsOf fmt (magOf fmt y) := by
    have : unitsOf fmt 0 < unitsOf fmt (magOf fmt y) := unitsOf_lt_iff.2 (Nat.pos_of_ne_zero hy0)
    simpa using this
  have hz : isZero fmt y = false := by simp [isZero, hy0]
  unfold fdiv
  simp only [isNaN_of_isFinite hx, isNaN_of_isFinite hy, isInf_of_isFinite hx, isInf_of_isFinite hy, hz, Bool.or_self,
    Bool.false_eq_true, if_false]
  refine ⟨notNaN_mkWord_roundMag _ _ _ _, ?_⟩
  rw [sunits_mkWord (roundMag_lt_width _ _ _), natAbs_sunits]
  have hyi := sunits_neg_iff hy0
  have hy1 : sunits fmt y ≠ 0 := fun h => hy0 (sunits_eq_zero_iff.1 h)
  by_cases hx0 : magOf fmt x = 0
  · have h2 : sunits fmt x = 0 := sunits_eq_zero_iff.2 hx0
    have h3 : roundMag fmt 0 (unitsOf fmt (magOf fmt y)) = 0 := Nat.le_zero.1 (roundMag_le_of_le hypos (by simp))
    rw [h2, hx0]
    simp [hypos, h3]
  · have hxi := sunits_neg_iff hx0
    have hx1 : sunits fmt x ≠ 0 := fun h => hx0 (sunits_eq_zero_iff.1 h)
    have hL : (0 : Int) < 2 ^ lsbExp fmt := by positivity
    have hneg : (sunits fmt x * 2 ^ lsbExp fmt * (sunits fmt y).sign < 0) ↔ (negOf fmt x != negOf fmt y) = true := by
      rcases lt_or_gt_of_ne hy1 with h | h
      · rw [Int.sign_eq_neg_one_of_neg h, mul_neg_one, neg_lt_zero, mul_pos_iff_of_pos_right hL]
        have hny : negOf fmt y = true := hyi.1 h
        cases hnx : negOf fmt x <;> simp [hnx, hny] at hxi ⊢ <;> omega
      · rw [Int.sign_eq_one_of_pos h, mul_one, mul_neg_iff]
        have hny : negOf fmt y = false := by
          cases hh : negOf fmt y
          · rfl
          · have := hyi.2 hh; omega
        cases hnx : negOf fmt x <;> simp [hnx, hny] at hxi ⊢ <;> omega
    have habs : (sunits fmt x * 2 ^ lsbExp fmt * (sunits fmt y).sign).natAbs = unitsOf fmt (magOf fmt x) * 2 ^ lsbExp fmt := by
      rw [Int.natAbs_mul, Int.natAbs_mul, natAbs_sunits, Int.natAbs_sign_of_ne_zero hy1, mul_one, Int.natAbs_pow]
      rfl
    unfold signedRound
    rw [habs]
    by_cases h : (negOf fmt x != negOf fmt y) = true
    · rw [if_pos h, if_pos (hneg.2 h)]
    · rw [if_neg h, if_neg (fun h' => h (hneg.1 h'))]

/-- A word that is not NaN and lies between two finite words is finite. -/
theorem isFinite_of_bounds {fmt : Fmt} {x lo hi : Word} (hx : isNaN fmt x = false) (hlo : isFinite fmt lo = true)
    (hhi : isFinite fmt hi = true) (h1 : sunits fmt lo ≤ sunits fmt x) (h2 : sunits fmt x ≤ sunits fmt hi) :
    isFinite fmt x = true := by
  rw [isNaN_eq_false] at hx
  rw [isFinite_iff] at *
  by_contra hcon
  have hm : magOf fmt x = infMag fmt := by omega
  have hl : unitsOf fmt (magOf fmt lo) < unitsOf fmt (infMag fmt) := unitsOf_lt_iff.2 hlo
  have hh : unitsOf fmt (magOf fmt hi) < unitsOf fmt (infMag fmt) := unitsOf_lt_iff.2 hhi
  have e1 : (sunits fmt lo).natAbs = _ := natAbs_sunits fmt lo
  have e2 : (sunits fmt hi).natAbs = _ := natAbs_sunits fmt hi
  have e3 : (sunits fmt x).natAbs = _ := natAbs_sunits fmt x
  rw [hm] at e3
  omega

end Sys2Proof.Machine
end

