-- ==== Sys2Proof/Machine/Ranges.lean ====
section
/-! DEFINITION. Ranges of values and correct rounding: the terms of 40_numerics.md R65, R76 and R83. -/

namespace Sys2Proof.Machine

/-- `0 ≤ x < 1` (00_scope.md R11). A NaN is not in it. -/
def inUnit (fmt : Fmt) (x : Word) : Bool := fge fmt x (constBits fmt .zero) && flt fmt x (constBits fmt .one)

/-- `-1 ≤ x ≤ 1`. -/
def inSignedUnit (fmt : Fmt) (x : Word) : Bool :=
  fge fmt x (constBits fmt .negOne) && fge fmt (constBits fmt .one) x

/-- `-bound ≤ x ≤ bound`; a NaN is not. -/
def within (fmt : Fmt) (bound x : Word) : Bool := fge fmt bound x && fge fmt x (flipSign fmt bound)

/-- `r` is `exact` rounded to `FMT` with roundTiesToEven (40_numerics.md R65): no finite value is nearer, of two equally near the one with
the even last fraction bit is taken, and the infinity of the sign of `exact` results exactly from the midpoint above the
largest finite value on. -/
structure RoundsTo (fmt : Fmt) (exact : ℚ) (r : Word) : Prop where
  notNaN : isNaN fmt r = false
  nearest : isFinite fmt r = true → ∀ z, isFinite fmt z = true → |valueOf fmt r - exact| ≤ |valueOf fmt z - exact|
  even : isFinite fmt r = true → ∀ z, isFinite fmt z = true → valueOf fmt z ≠ valueOf fmt r →
    |valueOf fmt z - exact| = |valueOf fmt r - exact| → magOf fmt r % 2 = 0
  overflow : isInf fmt r = true ↔
    ((unitsOf fmt (infMag fmt - 1) + unitsOf fmt (infMag fmt) : ℕ) : ℚ) / (2 * 2 ^ lsbExp fmt) ≤ |exact|
  sign : exact ≠ 0 → (negOf fmt r = true ↔ exact < 0)

end Sys2Proof.Machine
end

