-- ==== Sys2Proof/Laws/Values.lean ====
section
/-! SUPPORT. Real values of words: comparisons are comparisons of units, and a word built from `roundMag` is the correctly rounded one
(`RoundsTo`). -/

namespace Sys2Proof.Machine

theorem unit_pos (fmt : Fmt) : (0 : ℚ) < 2 ^ lsbExp fmt := by positivity

theorem valueOf_eq (fmt : Fmt) (x : Word) : valueOf fmt x = (sunits fmt x : ℚ) / 2 ^ lsbExp fmt := by
  unfold valueOf; push_cast; rfl

theorem valueOf_lt_iff {fmt : Fmt} {x y : Word} : valueOf fmt x < valueOf fmt y ↔ sunits fmt x < sunits fmt y := by
  rw [valueOf_eq, valueOf_eq, div_lt_div_iff_of_pos_right (unit_pos fmt)]; exact_mod_cast Iff.rfl

theorem valueOf_le_iff {fmt : Fmt} {x y : Word} : valueOf fmt x ≤ valueOf fmt y ↔ sunits fmt x ≤ sunits fmt y := by
  rw [valueOf_eq, valueOf_eq, div_le_div_iff_of_pos_right (unit_pos fmt)]; exact_mod_cast Iff.rfl

theorem flt_iff {fmt : Fmt} {x y : Word} (hx : isNaN fmt x = false) (hy : isNaN fmt y = false) :
    flt fmt x y = true ↔ sunits fmt x < sunits fmt y := by simp [flt, hx, hy]

theorem fgt_iff {fmt : Fmt} {x y : Word} (hx : isNaN fmt x = false) (hy : isNaN fmt y = false) :
    fgt fmt x y = true ↔ sunits fmt y < sunits fmt x := by simp [fgt, hx, hy]

theorem fge_iff {fmt : Fmt} {x y : Word} (hx : isNaN fmt x = false) (hy : isNaN fmt y = false) :
    fge fmt x y = true ↔ sunits fmt y ≤ sunits fmt x := by simp [fge, hx, hy]

/-- A comparison that holds has no NaN operand. -/
theorem flt_elim {fmt : Fmt} {x y : Word} (h : flt fmt x y = true) :
    isNaN fmt x = false ∧ isNaN fmt y = false ∧ sunits fmt x < sunits fmt y := by
  simp only [flt, Bool.and_eq_true, Bool.not_eq_true', decide_eq_true_eq] at h; tauto

theorem fgt_elim {fmt : Fmt} {x y : Word} (h : fgt fmt x y = true) :
    isNaN fmt x = false ∧ isNaN fmt y = false ∧ sunits fmt y < sunits fmt x := by
  simp only [fgt, Bool.and_eq_true, Bool.not_eq_true', decide_eq_true_eq] at h; tauto

theorem fge_elim {fmt : Fmt} {x y : Word} (h : fge fmt x y = true) :
    isNaN fmt x = false ∧ isNaN fmt y = false ∧ sunits fmt y ≤ sunits fmt x := by
  simp only [fge, Bool.and_eq_true, Bool.not_eq_true', decide_eq_true_eq] at h; tauto

theorem infMag_pred_odd (fmt : Fmt) : (infMag fmt - 1) % 2 = 1 := by cases fmt <;> decide

/-- The rounding of `n / d`, seen from below: the midpoint under a positive result is not above `n / d`, and a tie went to the even
magnitude. -/
theorem roundMag_lower {fmt : Fmt} {n d : Nat} (hd : 0 < d) (h0 : 0 < roundMag fmt n d) :
    (unitsOf fmt (roundMag fmt n d - 1) + unitsOf fmt (roundMag fmt n d)) * d ≤ 2 * n ∧
      ((unitsOf fmt (roundMag fmt n d - 1) + unitsOf fmt (roundMag fmt n d)) * d = 2 * n → roundMag fmt n d % 2 = 0) := by
  have hle := roundMag_le_infMag fmt n d
  have hneg : ¬ roundMag fmt n d ≤ roundMag fmt n d - 1 := by omega
  rw [roundMag_le_iff hd (by omega), show roundMag fmt n d - 1 + 1 = roundMag fmt n d by omega] at hneg
  push Not at hneg
  refine ⟨hneg.1, fun h => ?_⟩
  have := hneg.2 h.symm
  omega

/-- Seen from above. -/
theorem roundMag_upper {fmt : Fmt} {n d : Nat} (hd : 0 < d) (hr : roundMag fmt n d < infMag fmt) :
    2 * n ≤ (unitsOf fmt (roundMag fmt n d) + unitsOf fmt (roundMag fmt n d + 1)) * d ∧
      (2 * n = (unitsOf fmt (roundMag fmt n d) + unitsOf fmt (roundMag fmt n d + 1)) * d → roundMag fmt n d % 2 = 0) := by
  have h := (roundMag_le_iff (n := n) hd hr).1 le_rfl
  constructor
  · omega
  · intro he; omega

/-- Of two finite magnitudes equally near, the rounding is the even one. -/
theorem roundMag_tie {fmt : Fmt} {n d m : Nat} (hd : 0 < d) (hr : roundMag fmt n d < infMag fmt) (hm : m ≠ roundMag fmt n d)
    (h : |(unitsOf fmt m * d : Int) - n| = |(unitsOf fmt (roundMag fmt n d) * d : Int) - n|) : roundMag fmt n d % 2 = 0 := by
  have up := roundMag_upper hd hr
  have lo := fun h0 => roundMag_lower (fmt := fmt) (n := n) hd h0
  generalize roundMag fmt n d = r at *
  rcases lt_or_gt_of_ne hm with hlt | hgt
  · have lo := lo (by omega)
    have h1 : unitsOf fmt m ≤ unitsOf fmt (r - 1) := unitsOf_le_iff.2 (by omega)
    have h2 : unitsOf fmt (r - 1) < unitsOf fmt r := unitsOf_lt_iff.2 (by omega)
    have e1 : unitsOf fmt m * d ≤ unitsOf fmt (r - 1) * d := Nat.mul_le_mul_right d h1
    have e2 : unitsOf fmt (r - 1) * d < unitsOf fmt r * d := Nat.mul_lt_mul_of_pos_right h2 hd
    rw [Nat.add_mul] at lo
    apply lo.2
    rcases abs_eq_abs.1 h with h | h
    · omega
    · omega
  · have h1 : unitsOf fmt (r + 1) ≤ unitsOf fmt m := unitsOf_le_iff.2 (by omega)
    have h2 : unitsOf fmt r < unitsOf fmt (r + 1) := unitsOf_lt_iff.2 (by omega)
    have e1 : unitsOf fmt (r + 1) * d ≤ unitsOf fmt m * d := Nat.mul_le_mul_right d h1
    have e2 : unitsOf fmt r * d < unitsOf fmt (r + 1) * d := Nat.mul_lt_mul_of_pos_right h2 hd
    rw [Nat.add_mul] at up
    apply up.2
    rcases abs_eq_abs.1 h with h | h
    · omega
    · omega

theorem roundMag_zero {fmt : Fmt} {d : Nat} (hd : 0 < d) : roundMag fmt 0 d = 0 :=
  Nat.le_zero.1 (roundMag_le_of_le hd (by simp))

/-- A word of the sign of `exact` whose magnitude is `|exact|` rounded is `exact` correctly rounded (40_numerics.md R65). -/
theorem roundsTo_mkWord {fmt : Fmt} {neg : Bool} {n d : Nat} {exact : ℚ} (hd : 0 < d)
    (habs : |exact| = (n : ℚ) / (d * 2 ^ lsbExp fmt)) (hsign : exact ≠ 0 → (neg = true ↔ exact < 0)) :
    RoundsTo fmt exact (mkWord fmt neg (roundMag fmt n d)) := by
  have hw := roundMag_lt_width fmt n d
  have hL := unit_pos fmt
  have hdq : (0 : ℚ) < d := by exact_mod_cast hd
  -- the exact value with its sign
  have hex : exact = (if neg then -1 else 1) * ((n : ℚ) / (d * 2 ^ lsbExp fmt)) := by
    by_cases h0 : exact = 0
    · rw [h0, abs_zero] at habs
      rw [← habs, h0, mul_zero]
    · have := hsign h0
      cases neg
      · have h1 : 0 ≤ exact := by by_contra hc; exact absurd (this.2 (lt_of_not_ge hc)) (by simp)
        rw [← habs, abs_of_nonneg h1]; simp
      · have h1 : exact < 0 := this.1 rfl
        rw [← habs, abs_of_neg h1]; simp
  have hval : valueOf fmt (mkWord fmt neg (roundMag fmt n d)) =
      (if neg then -1 else 1) * ((unitsOf fmt (roundMag fmt n d) : ℚ) / 2 ^ lsbExp fmt) := by
    rw [valueOf_eq, sunits_mkWord hw]
    cases neg <;> simp [neg_div]
  -- distances, in units over the common denominator
  have hdist : ∀ a : ℤ, |(if neg then -1 else 1 : ℚ) * ((a : ℚ) / 2 ^ lsbExp fmt) - exact| =
      ((|a * d - n| : ℤ) : ℚ) / (d * 2 ^ lsbExp fmt) := by
    intro a
    rw [hex, ← mul_sub, abs_mul, show |(if neg then -1 else 1 : ℚ)| = 1 by cases neg <;> simp, one_mul,
      show (a : ℚ) / 2 ^ lsbExp fmt - n / (d * 2 ^ lsbExp fmt) = ((a * d - n : ℤ) : ℚ) / (d * 2 ^ lsbExp fmt) by
        push_cast; field_simp, abs_div, abs_of_pos (mul_pos hdq hL), Int.cast_abs]
  have hden : (0 : ℚ) < d * 2 ^ lsbExp fmt := mul_pos hdq hL
  -- the units of another word, seen from the sign of the result
  have hz : ∀ z, valueOf fmt z = (if neg then -1 else 1) * (((if neg then -sunits fmt z else sunits fmt z : ℤ) : ℚ) / 2 ^ lsbExp fmt) := by
    intro z; rw [valueOf_eq]; cases neg <;> simp [neg_div]
  have hcase : ∀ z, (if neg then -sunits fmt z else sunits fmt z : ℤ) = unitsOf fmt (magOf fmt z) ∨
      (if neg then -sunits fmt z else sunits fmt z : ℤ) = -unitsOf fmt (magOf fmt z) := by
    intro z; have := natAbs_sunits fmt z; cases neg <;> simp <;> omega
  have hvr : valueOf fmt (mkWord fmt neg (roundMag fmt n d)) =
      (if neg then -1 else 1) * (((unitsOf fmt (roundMag fmt n d) : ℤ) : ℚ) / 2 ^ lsbExp fmt) := by rw [hval]; rfl
  have hnear : ∀ z, roundMag fmt n d < infMag fmt →
      |(unitsOf fmt (roundMag fmt n d) * d : ℤ) - n| ≤ |(if neg then -sunits fmt z else sunits fmt z : ℤ) * d - n| := by
    intro z hr
    have h1 := roundMag_nearest hd hr (magOf fmt z)
    rcases hcase z with h | h
    · rw [h]; exact h1
    · rw [h]
      refine le_trans h1 ?_
      have : (0 : ℤ) ≤ unitsOf fmt (magOf fmt z) * d := by positivity
      rw [neg_mul, abs_le]
      constructor
      · linarith [neg_le_abs (-((unitsOf fmt (magOf fmt z) : ℤ) * d) - n)]
      · linarith [neg_le_abs (-((unitsOf fmt (magOf fmt z) : ℤ) * d) - n)]
  refine ⟨notNaN_mkWord_roundMag _ _ _ _, ?_, ?_, ?_, ?_⟩
  · intro hf z _
    rw [isFinite_iff, magOf_mkWord hw] at hf
    rw [hvr, hz z, hdist, hdist, div_le_div_iff_of_pos_right hden]
    exact_mod_cast hnear z hf
  · intro hf z _ hne heq
    rw [isFinite_iff, magOf_mkWord hw] at hf
    rw [magOf_mkWord hw]
    rw [hvr, hz z, hdist, hdist, div_left_inj' hden.ne'] at heq
    have heq : |(if neg then -sunits fmt z else sunits fmt z : ℤ) * d - n| = |(unitsOf fmt (roundMag fmt n d) * d : ℤ) - n| := by
      exact_mod_cast heq
    rcases hcase z with h | h
    · rw [h] at heq
      refine roundMag_tie hd hf ?_ heq
      intro hm
      apply hne
      rw [hvr, hz z, h, hm]
    · -- the opposite sign can be as near only if it is as near as zero
      rw [h] at heq
      by_cases hm0 : unitsOf fmt (magOf fmt z) = 0
      · have hmz : magOf fmt z = 0 := by
          have : unitsOf fmt (magOf fmt z) ≤ unitsOf fmt 0 := by simp [hm0]
          exact Nat.le_zero.1 (unitsOf_le_iff.1 this)
        refine roundMag_tie (m := 0) hd hf ?_ (by rw [hm0] at heq; simpa using heq)
        intro hm
        apply hne
        rw [hvr, hz z, h, hm0, ← hm]; simp
      · have h1 := roundMag_nearest hd hf 0
        have hpos : (0 : ℤ) < unitsOf fmt (magOf fmt z) * d := by
          have : 0 < unitsOf fmt (magOf fmt z) := Nat.pos_of_ne_zero hm0
          positivity
        rw [← heq] at h1
        simp only [unitsOf_zero, Nat.cast_zero, zero_mul, zero_sub, abs_neg, Nat.abs_cast] at h1
        have := neg_le_abs (-(unitsOf fmt (magOf fmt z) : ℤ) * d - n)
        nlinarith
  · rw [isInf_iff, magOf_mkWord hw, habs, div_le_div_iff₀ (by positivity) hden]
    have hpos := infMag_pos fmt
    have h1 := roundMag_le_iff (n := n) hd (show infMag fmt - 1 < infMag fmt by omega)
    have h2 := infMag_pred_odd fmt
    have h3 := roundMag_le_infMag fmt n d
    rw [show infMag fmt - 1 + 1 = infMag fmt by omega] at h1
    have h4 : roundMag fmt n d = infMag fmt ↔ (unitsOf fmt (infMag fmt - 1) + unitsOf fmt (infMag fmt)) * d ≤ 2 * n := by omega
    rw [h4]
    constructor
    · intro h
      have h : (((unitsOf fmt (infMag fmt - 1) + unitsOf fmt (infMag fmt)) * d : ℕ) : ℚ) ≤ ((2 * n : ℕ) : ℚ) := by exact_mod_cast h
      push_cast at *
      nlinarith
    · intro h
      have h : (((unitsOf fmt (infMag fmt - 1) + unitsOf fmt (infMag fmt)) * d : ℕ) : ℚ) * 2 ^ lsbExp fmt ≤ ((2 * n : ℕ) : ℚ) * 2 ^ lsbExp fmt := by
        push_cast at *; linarith
      exact_mod_cast le_of_mul_le_mul_right h hL
  · intro h0
    rw [negOf_mkWord hw]
    exact hsign h0

theorem abs_valueOf (fmt : Fmt) (x : Word) : |valueOf fmt x| = (unitsOf fmt (magOf fmt x) : ℚ) / 2 ^ lsbExp fmt := by
  rw [valueOf_eq, abs_div, abs_of_pos (unit_pos fmt), ← natAbs_sunits, Nat.cast_natAbs]; simp

theorem valueOf_neg_iff {fmt : Fmt} {x : Word} (h : valueOf fmt x ≠ 0) : valueOf fmt x < 0 ↔ negOf fmt x = true := by
  have hL := unit_pos fmt
  have : magOf fmt x ≠ 0 := by
    intro h0; apply h; rw [valueOf_eq, sunits_eq_zero_iff.2 h0]; simp
  rw [← sunits_neg_iff this, valueOf_eq, div_neg_iff]
  have : ¬ (2 : ℚ) ^ lsbExp fmt < 0 := by linarith
  simp [hL]

@[simp] theorem negOf_flipSign (fmt : Fmt) (x : Word) : negOf fmt (flipSign fmt x) = !negOf fmt x := by
  unfold flipSign; exact negOf_mkWord (magOf_lt fmt x)

@[simp] theorem isNaN_flipSign (fmt : Fmt) (x : Word) : isNaN fmt (flipSign fmt x) = isNaN fmt x := by
  unfold isNaN; rw [flipSign_finite.1]

@[simp] theorem isInf_flipSign (fmt : Fmt) (x : Word) : isInf fmt (flipSign fmt x) = isInf fmt x := by
  unfold isInf; rw [flipSign_finite.1]

end Sys2Proof.Machine
end

