-- ==== Sys2Proof/Laws/Bounds.lean ====
section
/-! SUPPORT. Ranges through roundings (40_numerics.md R83 item 5): a bound on the operands gives, by monotonicity, a bound on a rounded result
that is itself a computed word, so that ranges over all operands reduce to an evaluation at the bounds. And exactness: which
whole numbers of units are values of the format. -/

namespace Sys2Proof.Machine

/-- `|x| ≤ |B|`, `B` finite, `x` no NaN: the form in which bounds travel. -/
def Bounded (fmt : Fmt) (B x : Word) : Prop :=
  isFinite fmt B = true ∧ isNaN fmt x = false ∧ (sunits fmt x).natAbs ≤ (sunits fmt B).natAbs

theorem Bounded.isFinite {fmt : Fmt} {B x : Word} (h : Bounded fmt B x) : isFinite fmt x = true := by
  obtain ⟨hB, -, hle⟩ := h
  rw [natAbs_sunits, natAbs_sunits, unitsOf_le_iff] at hle
  rw [isFinite_iff] at hB ⊢
  omega

theorem Bounded.trans {fmt : Fmt} {A B x : Word} (h : Bounded fmt B x) (h' : Bounded fmt A B) : Bounded fmt A x :=
  ⟨h'.1, h.2.1, le_trans h.2.2 h'.2.2⟩

theorem bounded_refl {fmt : Fmt} {x : Word} (h : Sys2Proof.Machine.isFinite fmt x = true) : Bounded fmt x x :=
  ⟨h, isNaN_of_isFinite h, le_rfl⟩

theorem natAbs_signedRound (fmt : Fmt) (t : Int) (d : Nat) : (signedRound fmt t d).natAbs = unitsOf fmt (roundMag fmt t.natAbs d) := by
  unfold signedRound; split <;> simp

/-- A computed result that is finite bounds the sum of any bounded operands. -/
theorem Bounded.fadd {fmt : Fmt} {A B x y : Word} (hx : Bounded fmt A x) (hy : Bounded fmt B y) (hA : 0 ≤ sunits fmt A) (hB : 0 ≤ sunits fmt B)
    (hfin : Sys2Proof.Machine.isFinite fmt (Machine.fadd fmt A B) = true) : Bounded fmt (Machine.fadd fmt A B) (Machine.fadd fmt x y) := by
  obtain ⟨hn, hs⟩ := fadd_finite hx.isFinite hy.isFinite
  obtain ⟨hn', hs'⟩ := fadd_finite hx.1 hy.1
  refine ⟨hfin, hn, ?_⟩
  rw [hs, hs', natAbs_signedRound, natAbs_signedRound, unitsOf_le_iff]
  apply roundMag_mono one_pos one_pos
  have h1 := hx.2.2
  have h2 := hy.2.2
  omega

theorem Bounded.flip {fmt : Fmt} {B x : Word} (h : Bounded fmt B x) : Bounded fmt B (flipSign fmt x) :=
  ⟨h.1, by rw [isNaN_flipSign]; exact h.2.1, by rw [flipSign_finite.2, Int.natAbs_neg]; exact h.2.2⟩

theorem Bounded.fsub {fmt : Fmt} {A B x y : Word} (hx : Bounded fmt A x) (hy : Bounded fmt B y) (hA : 0 ≤ sunits fmt A) (hB : 0 ≤ sunits fmt B)
    (hfin : Sys2Proof.Machine.isFinite fmt (Machine.fadd fmt A B) = true) : Bounded fmt (Machine.fadd fmt A B) (Machine.fsub fmt x y) :=
  hx.fadd hy.flip hA hB hfin

theorem Bounded.fmul {fmt : Fmt} {A B x y : Word} (hx : Bounded fmt A x) (hy : Bounded fmt B y)
    (hfin : Sys2Proof.Machine.isFinite fmt (Machine.fmul fmt A B) = true) : Bounded fmt (Machine.fmul fmt A B) (Machine.fmul fmt x y) := by
  obtain ⟨hn, hs⟩ := fmul_finite hx.isFinite hy.isFinite
  obtain ⟨hn', hs'⟩ := fmul_finite hx.1 hy.1
  refine ⟨hfin, hn, ?_⟩
  rw [hs, hs', natAbs_signedRound, natAbs_signedRound, unitsOf_le_iff, Int.natAbs_mul, Int.natAbs_mul]
  exact roundMag_mono (Nat.two_pow_pos _) (Nat.two_pow_pos _) (Nat.mul_le_mul_right _ (Nat.mul_le_mul hx.2.2 hy.2.2))

/-- Division by a fixed finite divisor that is not zero. -/
theorem Bounded.fdiv {fmt : Fmt} {A x y : Word} (hx : Bounded fmt A x) (hy : Sys2Proof.Machine.isFinite fmt y = true) (hy0 : magOf fmt y ≠ 0)
    (hfin : Sys2Proof.Machine.isFinite fmt (Machine.fdiv fmt A y) = true) : Bounded fmt (Machine.fdiv fmt A y) (Machine.fdiv fmt x y) := by
  obtain ⟨hn, hs⟩ := fdiv_finite hx.isFinite hy hy0
  obtain ⟨hn', hs'⟩ := fdiv_finite hx.1 hy hy0
  have hypos : 0 < (sunits fmt y).natAbs := Int.natAbs_pos.2 (fun h => hy0 (sunits_eq_zero_iff.1 h))
  refine ⟨hfin, hn, ?_⟩
  rw [hs, hs', natAbs_signedRound, natAbs_signedRound, unitsOf_le_iff]
  apply roundMag_mono hypos hypos
  simp only [Int.natAbs_mul, Int.natAbs_pow]
  exact Nat.mul_le_mul_right _ (Nat.mul_le_mul_right _ (Nat.mul_le_mul_right _ hx.2.2))

/-- `within` as a bound. -/
theorem within_iff_bounded {fmt : Fmt} {B x : Word} (hB : isFinite fmt B = true) (h0 : 0 ≤ sunits fmt B) :
    within fmt B x = true ↔ Bounded fmt B x := by
  have hn := isNaN_of_isFinite hB
  have hn' : isNaN fmt (flipSign fmt B) = false := by rw [isNaN_flipSign]; exact hn
  by_cases hx : isNaN fmt x = false
  · unfold within
    rw [Bool.and_eq_true, fge_iff hn hx, fge_iff hx hn', flipSign_finite.2]
    unfold Bounded
    simp only [hB, hx, true_and]
    omega
  · have : isNaN fmt x = true := by simpa using hx
    simp [within, fge, Bounded, this]

/-! The unit interval. -/

@[simp] theorem sunits_zero (fmt : Fmt) : sunits fmt (constBits fmt .zero) = 0 := by cases fmt <;> decide

@[simp] theorem sunits_one (fmt : Fmt) : sunits fmt (constBits fmt .one) = 2 ^ lsbExp fmt := by cases fmt <;> decide +kernel

@[simp] theorem sunits_negOne (fmt : Fmt) : sunits fmt (constBits fmt .negOne) = -2 ^ lsbExp fmt := by cases fmt <;> decide +kernel

@[simp] theorem sunits_half (fmt : Fmt) : sunits fmt (constBits fmt .half) * 2 = 2 ^ lsbExp fmt := by cases fmt <;> decide +kernel

@[simp] theorem sunits_two (fmt : Fmt) : sunits fmt (constBits fmt .two) = 2 * 2 ^ lsbExp fmt := by cases fmt <;> decide +kernel

@[simp] theorem isFinite_constBits (fmt : Fmt) (c : Const) : isFinite fmt (constBits fmt c) = true := by
  cases fmt <;> cases c <;> decide

@[simp] theorem isNaN_constBits (fmt : Fmt) (c : Const) : isNaN fmt (constBits fmt c) = false :=
  isNaN_of_isFinite (isFinite_constBits fmt c)

theorem constBits_zero (fmt : Fmt) : constBits fmt .zero = zeroWord fmt false := by cases fmt <;> rfl

/-- A value not above a finite one and not below another is finite, from comparisons of units. -/
theorem isFinite_of_sunits {fmt : Fmt} {x : Word} (hx : isNaN fmt x = false) (h1 : -(2 ^ lsbExp fmt * 4) ≤ sunits fmt x)
    (h2 : sunits fmt x ≤ 2 ^ lsbExp fmt * 4) : isFinite fmt x = true := by
  have e : sunits fmt (constBits fmt .four) = 2 ^ lsbExp fmt * 4 := by cases fmt <;> decide +kernel
  have e' : sunits fmt (constBits fmt .negFour) = -(2 ^ lsbExp fmt * 4) := by cases fmt <;> decide +kernel
  exact isFinite_of_bounds hx (isFinite_constBits fmt .negFour) (isFinite_constBits fmt .four) (by rw [e']; exact h1) (by rw [e]; exact h2)

theorem inUnit_iff {fmt : Fmt} {x : Word} :
    inUnit fmt x = true ↔ isNaN fmt x = false ∧ 0 ≤ sunits fmt x ∧ sunits fmt x < 2 ^ lsbExp fmt := by
  by_cases hx : isNaN fmt x = false
  · unfold inUnit
    rw [Bool.and_eq_true, fge_iff hx (isNaN_constBits _ _), flt_iff hx (isNaN_constBits _ _)]
    simp [hx]
  · have : isNaN fmt x = true := by simpa using hx
    simp [inUnit, fge, this]

theorem inSignedUnit_iff {fmt : Fmt} {x : Word} :
    inSignedUnit fmt x = true ↔ isNaN fmt x = false ∧ -2 ^ lsbExp fmt ≤ sunits fmt x ∧ sunits fmt x ≤ 2 ^ lsbExp fmt := by
  by_cases hx : isNaN fmt x = false
  · unfold inSignedUnit
    rw [Bool.and_eq_true, fge_iff hx (isNaN_constBits _ _), fge_iff (isNaN_constBits _ _) hx]
    simp [hx]
  · have : isNaN fmt x = true := by simpa using hx
    simp [inSignedUnit, fge, this]

theorem isFinite_of_inUnit {fmt : Fmt} {x : Word} (h : inUnit fmt x = true) : isFinite fmt x = true := by
  obtain ⟨h1, h2, h3⟩ := inUnit_iff.1 h
  have : (0 : Int) < 2 ^ lsbExp fmt := by positivity
  exact isFinite_of_sunits h1 (by omega) (by omega)

theorem inSignedUnit_iff_bounded {fmt : Fmt} {x : Word} : inSignedUnit fmt x = true ↔ Bounded fmt (constBits fmt .one) x := by
  have : (0 : Int) < 2 ^ lsbExp fmt := by positivity
  rw [inSignedUnit_iff]
  unfold Bounded
  simp only [isFinite_constBits, sunits_one, true_and]
  generalize (2 : Int) ^ lsbExp fmt = L at *
  constructor <;> rintro ⟨h1, h2⟩ <;> exact ⟨h1, by omega⟩

/-- The largest value below 1, `1 - 2 ^ (-precision)` (41_oscillator_control.md R94). -/
def belowOne : Fmt → Word
  | .binary32 => 0x3F7FFFFF
  | .binary64 => 0x3FEFFFFFFFFFFFFF

/-- The largest value below 2. -/
def belowTwo : Fmt → Word
  | .binary32 => 0x3FFFFFFF
  | .binary64 => 0x3FFFFFFFFFFFFFFF

theorem isNaN_belowOne (fmt : Fmt) : isNaN fmt (belowOne fmt) = false := by cases fmt <;> decide

theorem isNaN_belowTwo (fmt : Fmt) : isNaN fmt (belowTwo fmt) = false := by cases fmt <;> decide

theorem sunits_belowTwo (fmt : Fmt) : sunits fmt (belowTwo fmt) = 2 * sunits fmt (belowOne fmt) := by cases fmt <;> decide +kernel

theorem sunits_belowOne_lt (fmt : Fmt) : sunits fmt (belowOne fmt) < 2 ^ lsbExp fmt := by cases fmt <;> decide +kernel

theorem sunits_belowOne_mul (fmt : Fmt) :
    sunits fmt (belowOne fmt) * (2 * 2 ^ fmt.fracBits) = 2 ^ lsbExp fmt * (2 * 2 ^ fmt.fracBits - 1) := by
  cases fmt <;> decide +kernel

/-- Nothing lies between `belowOne` and 1. -/
theorem le_belowOne {fmt : Fmt} {x : Word} (h : sunits fmt x < 2 ^ lsbExp fmt) : sunits fmt x ≤ sunits fmt (belowOne fmt) := by
  have h1 : sunits fmt (belowOne fmt) = unitsOf fmt (magOf fmt (belowOne fmt)) := by cases fmt <;> decide +kernel
  have h2 : (2 ^ lsbExp fmt : Int) = unitsOf fmt (magOf fmt (belowOne fmt) + 1) := by cases fmt <;> decide +kernel
  have h3 : (0 : Int) ≤ unitsOf fmt (magOf fmt (belowOne fmt)) := by positivity
  rw [h2] at h
  rw [h1]
  by_cases hn : negOf fmt x = true
  · have : sunits fmt x ≤ 0 := by simp [sunits, hn]
    omega
  · have e : sunits fmt x = unitsOf fmt (magOf fmt x) := by simp [sunits, hn]
    rw [e] at h ⊢
    have := unitsOf_lt_iff.1 (by exact_mod_cast h : unitsOf fmt (magOf fmt x) < unitsOf fmt (magOf fmt (belowOne fmt) + 1))
    exact_mod_cast unitsOf_le_iff.2 (by omega : magOf fmt x ≤ magOf fmt (belowOne fmt))

/-- A step down from a magnitude loses at least the last place of a value below 1, relatively. -/
theorem unitsOf_pred_mul (fmt : Fmt) (m : Nat) :
    unitsOf fmt m * (2 * 2 ^ fmt.fracBits) ≤ unitsOf fmt (m + 1) * (2 * 2 ^ fmt.fracBits - 1) := by
  obtain ⟨e, j, rfl, hlo, hhi⟩ := exists_binade fmt m
  rw [unitsOf_binade fmt e j hlo (by omega), Nat.add_assoc, unitsOf_binade fmt e (j + 1) (by omega) (by omega)]
  have hP : 0 < 2 ^ fmt.fracBits := Nat.two_pow_pos _
  generalize 2 ^ fmt.fracBits = P at *
  obtain ⟨q, hq⟩ : ∃ q, 2 * P = j + 1 + q := ⟨2 * P - (j + 1), by omega⟩
  rw [hq, show j + 1 + q - 1 = j + q by omega]
  have : j * (j + 1 + q) ≤ (j + 1) * (j + q) := by nlinarith
  calc j * 2 ^ e * (j + 1 + q) = j * (j + 1 + q) * 2 ^ e := by ring
    _ ≤ (j + 1) * (j + q) * 2 ^ e := Nat.mul_le_mul_right _ this
    _ = (j + 1) * 2 ^ e * (j + q) := by ring

/-! Exactness. -/

/-- Every `a * 2 ^ e` units with a significand of at most `precision` bits is the value of a magnitude. -/
theorem exists_unitsOf (fmt : Fmt) (a e : Nat) (ha : a ≤ 2 * 2 ^ fmt.fracBits) : ∃ m, unitsOf fmt m = a * 2 ^ e := by
  induction e generalizing a with
  | zero => exact ⟨0 * 2 ^ fmt.fracBits + a, unitsOf_binade fmt 0 a (.inl rfl) ha⟩
  | succ e ih =>
    by_cases h : 2 ^ fmt.fracBits ≤ a
    · exact ⟨_, unitsOf_binade fmt (e + 1) a (.inr h) ha⟩
    · obtain ⟨m, hm⟩ := ih (2 * a) (by omega)
      exact ⟨m, by rw [hm]; ring⟩

/-- Whole units of a value's own last place, no more of them than the value has, are a value of no larger magnitude. -/
theorem exists_unitsOf_part (fmt : Fmt) (m : Nat) :
    ∃ e, 2 ^ e ∣ unitsOf fmt m ∧ ∀ t, 2 ^ e ∣ t → t ≤ unitsOf fmt m → ∃ m', m' ≤ m ∧ unitsOf fmt m' = t := by
  obtain ⟨e, j, rfl, hlo, hhi⟩ := exists_binade fmt m
  rw [unitsOf_binade fmt e j hlo (by omega)]
  refine ⟨e, Dvd.intro_left _ rfl, ?_⟩
  rintro t ⟨a, rfl⟩ hle
  rw [mul_comm] at hle
  have ha : a ≤ j := Nat.le_of_mul_le_mul_right hle (Nat.two_pow_pos e)
  obtain ⟨m', hm'⟩ := exists_unitsOf fmt a e (by omega)
  refine ⟨m', ?_, by rw [hm', mul_comm]⟩
  rw [← unitsOf_le_iff (fmt := fmt), hm', unitsOf_binade fmt e j hlo (by omega)]
  exact Nat.mul_le_mul_right _ ha

/-- A whole number of units that is the value of a magnitude is not rounded. -/
theorem signedRound_of_units {fmt : Fmt} {t : Int} {m : Nat} (hm : m ≤ infMag fmt) (h : t.natAbs = unitsOf fmt m) :
    signedRound fmt t 1 = t := by
  have : roundMag fmt t.natAbs 1 = m := by
    rw [h]; simpa using roundMag_exact (fmt := fmt) (d := 1) one_pos hm
  unfold signedRound
  rw [this, ← h]
  split <;> omega

/-- Truncation of a finite value is exact, of the same sign, and drops the part below 1 (40_numerics.md R72). -/
theorem ftrunc_finite {fmt : Fmt} {x : Word} (hx : isFinite fmt x = true) :
    isFinite fmt (ftrunc fmt x) = true ∧ negOf fmt (ftrunc fmt x) = negOf fmt x ∧
      unitsOf fmt (magOf fmt (ftrunc fmt x)) = unitsOf fmt (magOf fmt x) / 2 ^ lsbExp fmt * 2 ^ lsbExp fmt := by
  obtain ⟨e, hdvd, hall⟩ := exists_unitsOf_part fmt (magOf fmt x)
  have hle : unitsOf fmt (magOf fmt x) / 2 ^ lsbExp fmt * 2 ^ lsbExp fmt ≤ unitsOf fmt (magOf fmt x) := Nat.div_mul_le_self _ _
  have hd : 2 ^ e ∣ unitsOf fmt (magOf fmt x) / 2 ^ lsbExp fmt * 2 ^ lsbExp fmt := by
    by_cases h : lsbExp fmt ≤ e
    · have : 2 ^ lsbExp fmt ∣ unitsOf fmt (magOf fmt x) := dvd_trans (pow_dvd_pow 2 h) hdvd
      rw [Nat.div_mul_cancel this]; exact hdvd
    · exact dvd_trans (pow_dvd_pow 2 (by omega)) (Dvd.intro_left _ rfl)
  obtain ⟨m', hm', hu⟩ := hall _ hd hle
  rw [isFinite_iff] at hx
  have hr : roundMag fmt (unitsOf fmt (magOf fmt x) / 2 ^ lsbExp fmt * 2 ^ lsbExp fmt) 1 = m' := by
    rw [← hu]; simpa using roundMag_exact (fmt := fmt) (d := 1) (m := m') one_pos (by omega)
  have hI := infMag_lt fmt
  unfold ftrunc
  rw [isNaN_eq_false.2 (by omega : magOf fmt x ≤ infMag fmt)]
  have : isInf fmt x = false := by simp [isInf]; omega
  rw [this, hr]
  simp only [Bool.false_eq_true, if_false]
  refine ⟨by rw [isFinite_iff, magOf_mkWord (by omega)]; omega, negOf_mkWord (by omega), by rw [magOf_mkWord (by omega), hu]⟩

/-- The fractional part of a finite value is exact, and `+0.0` on an integer of either sign (R73). -/
theorem frac_finite {fmt : Fmt} {x : Word} (hx : isFinite fmt x = true) :
    isFinite fmt (fsub fmt x (ftrunc fmt x)) = true ∧
    sunits fmt (fsub fmt x (ftrunc fmt x)) = sunits fmt x - sunits fmt (ftrunc fmt x) ∧
    (sunits fmt x = sunits fmt (ftrunc fmt x) → fsub fmt x (ftrunc fmt x) = zeroWord fmt false) := by
  obtain ⟨hf, hn, hu⟩ := ftrunc_finite hx
  obtain ⟨gn, gs⟩ := fsub_finite hx hf
  obtain ⟨e, hdvd, hall⟩ := exists_unitsOf_part fmt (magOf fmt x)
  have hle : unitsOf fmt (magOf fmt x) % 2 ^ lsbExp fmt ≤ unitsOf fmt (magOf fmt x) := Nat.mod_le _ _
  have hd : 2 ^ e ∣ unitsOf fmt (magOf fmt x) % 2 ^ lsbExp fmt := by
    by_cases h : lsbExp fmt ≤ e
    · have : 2 ^ lsbExp fmt ∣ unitsOf fmt (magOf fmt x) := dvd_trans (pow_dvd_pow 2 h) hdvd
      rw [Nat.mod_eq_zero_of_dvd this]; exact dvd_zero _
    · exact (Nat.dvd_mod_iff (pow_dvd_pow 2 (by omega))).2 hdvd
  obtain ⟨m', hm', hu'⟩ := hall _ hd hle
  have hdm := Nat.div_add_mod (unitsOf fmt (magOf fmt x)) (2 ^ lsbExp fmt)
  rw [mul_comm] at hdm
  have habs : (sunits fmt x - sunits fmt (ftrunc fmt x)).natAbs = unitsOf fmt m' := by
    unfold sunits
    rw [hn, hu, hu']
    generalize unitsOf fmt (magOf fmt x) / 2 ^ lsbExp fmt * 2 ^ lsbExp fmt = q at *
    split <;> omega
  rw [isFinite_iff] at hx
  have hs : signedRound fmt (sunits fmt x - sunits fmt (ftrunc fmt x)) 1 = sunits fmt x - sunits fmt (ftrunc fmt x) :=
    signedRound_of_units (by omega) habs
  rw [hs] at gs
  refine ⟨?_, gs, ?_⟩
  · have := natAbs_sunits fmt (fsub fmt x (ftrunc fmt x))
    rw [gs, habs] at this
    have := (unitsOf_strictMono fmt).injective this
    rw [isFinite_iff]; omega
  · intro he
    have hx' : isFinite fmt x = true := isFinite_iff.2 hx
    unfold fsub fadd
    simp only [isNaN_of_isFinite hx', isNaN_flipSign, isInf_flipSign, isNaN_of_isFinite hf, isInf_of_isFinite hx', isInf_of_isFinite hf,
      Bool.or_self, Bool.false_eq_true, if_false, flipSign_finite.2, negOf_flipSign, hn, he, add_neg_cancel, if_true]
    simp

/-- A fraction `± a / 2 ^ k` below 8 with at most `precision` bits in `a` is the value of a word. -/
theorem exists_word (fmt : Fmt) (a k : ℕ) (ha : a ≤ 2 * 2 ^ fmt.fracBits) (hk : k ≤ lsbExp fmt) (hlt : a * 2 ^ (lsbExp fmt - k) ≤ 2 ^ lsbExp fmt * 8) (neg : Bool) :
    ∃ z, fits fmt z = true ∧ isFinite fmt z = true ∧ valueOf fmt z = (if neg then -1 else 1) * ((a : ℚ) / 2 ^ k) := by
  obtain ⟨m, hm⟩ := exists_unitsOf fmt a (lsbExp fmt - k) ha
  have hmi : m < infMag fmt := by
    rw [← unitsOf_lt_iff (fmt := fmt), hm]
    refine lt_of_le_of_lt hlt ?_
    cases fmt <;> decide +kernel
  have hw := lt_trans hmi (infMag_lt fmt)
  refine ⟨mkWord fmt neg m, fits_mkWord hw, by rw [isFinite_iff, magOf_mkWord hw]; exact hmi, ?_⟩
  rw [valueOf_eq, sunits_mkWord hw, hm]
  have e : (2 : ℚ) ^ lsbExp fmt = 2 ^ k * 2 ^ (lsbExp fmt - k) := by rw [← pow_add]; congr 1; omega
  rw [e]
  cases neg <;> push_cast <;> simp <;> field_simp


/-- The values of `K_TWO_PI` (40_numerics.md R78). -/
theorem valueOf_twoPi_binary32 : valueOf .binary32 (constBits .binary32 .twoPi) = 13176795 / 2097152 := by decide +kernel

theorem valueOf_twoPi_binary64 : valueOf .binary64 (constBits .binary64 .twoPi) = 884279719003555 / 140737488355328 := by
  have a : sunits .binary64 (constBits .binary64 .twoPi) = 884279719003555 * 2 ^ 1027 := by decide +kernel
  rw [valueOf_eq, a, show lsbExp .binary64 = 47 + 1027 from rfl, pow_add]
  generalize hx : (2:ℤ)^1027 = x
  have : (2:ℚ)^1027 = (x:ℚ) := by rw [← hx, Int.cast_pow, Int.cast_ofNat]
  rw [this]
  have h0 : (x:ℚ) ≠ 0 := by rw [← this]; positivity
  push_cast
  rw [mul_div_mul_right _ _ h0]
  norm_num

end Sys2Proof.Machine
end

