-- ==== Sys2Proof/Laws/Encoding.lean ====
section
/-! SUPPORT. The fields of a packed command word, the word of a decoded command, and bytes (30_encoding.md R50 to R53, 20_memory.md R33). -/

namespace Sys2Proof

theorem fits_iff {fmt : Fmt} {x : Word} : fits fmt x = true ↔ x.toNat < 2 ^ fmt.width := by simp [fits]

/-- The number of a packed word whose fields are in range. -/
theorem toNat_packCmd {fmt : Fmt} {op wf bl a b : Nat} (hop : op < 16) (hwf : wf < 4) (hbl : bl < 2) (ha : a < 2 ^ fmt.width)
    (hb : b < 2 ^ fmt.width) :
    (packCmd fmt op wf bl a b).toNat =
      op * 2 ^ (2 * fmt.width + 4) + wf * 2 ^ (2 * fmt.width + 2) + bl * 2 ^ (2 * fmt.width + 1) + a * 2 ^ fmt.width + b := by
  unfold packCmd
  rw [BitVec.toNat_ofNat, Nat.mod_eq_of_lt]
  cases fmt <;> simp only [Fmt.width] at * <;> omega

/-- Each field of a packed word is what was packed. -/
theorem fields_packCmd {fmt : Fmt} {op wf bl a b : Nat} (hop : op < 16) (hwf : wf < 4) (hbl : bl < 2) (ha : a < 2 ^ fmt.width)
    (hb : b < 2 ^ fmt.width) :
    cmdField (packCmd fmt op wf bl a b) (2 * fmt.width + 4) 4 = op ∧
    cmdField (packCmd fmt op wf bl a b) (2 * fmt.width + 2) 2 = wf ∧
    cmdField (packCmd fmt op wf bl a b) (2 * fmt.width + 1) 1 = bl ∧
    cmdField (packCmd fmt op wf bl a b) (2 * fmt.width) 1 = 0 ∧
    cmdField (packCmd fmt op wf bl a b) fmt.width fmt.width = a ∧
    cmdField (packCmd fmt op wf bl a b) 0 fmt.width = b := by
  unfold cmdField
  rw [toNat_packCmd hop hwf hbl ha hb]
  cases fmt <;> simp only [Fmt.width] at * <;> omega

/-- A word is the sum of its fields (R50). -/
theorem toNat_of_fields (fmt : Fmt) (w : CmdWord) :
    w.toNat % 2 ^ fmt.cmdWidth =
      cmdField w (2 * fmt.width + 4) 4 * 2 ^ (2 * fmt.width + 4) + cmdField w (2 * fmt.width + 2) 2 * 2 ^ (2 * fmt.width + 2)
      + cmdField w (2 * fmt.width + 1) 1 * 2 ^ (2 * fmt.width + 1) + cmdField w (2 * fmt.width) 1 * 2 ^ (2 * fmt.width)
      + cmdField w fmt.width fmt.width * 2 ^ fmt.width + cmdField w 0 fmt.width := by
  unfold cmdField
  generalize w.toNat = n
  cases fmt <;> simp only [Fmt.width, Fmt.cmdWidth] <;> omega

theorem cmdField_lt (w : CmdWord) (lo len : Nat) : cmdField w lo len < 2 ^ len := Nat.mod_lt _ (Nat.two_pow_pos _)

@[simp] theorem wfOfCode_wfCode (wf : Waveform) : wfOfCode (wfCode wf) = wf := by cases wf <;> rfl

@[simp] theorem modeOfCode_modeCode (bl : Mode) : modeOfCode (modeCode bl) = bl := by cases bl <;> rfl

theorem wfCode_wfOfCode {n : Nat} (h : n < 4) : wfCode (wfOfCode n) = n := by
  obtain rfl | rfl | rfl | rfl : n = 0 ∨ n = 1 ∨ n = 2 ∨ n = 3 := by omega
  all_goals rfl

theorem modeCode_modeOfCode {n : Nat} (h : n < 2) : modeCode (modeOfCode n) = n := by
  obtain rfl | rfl : n = 0 ∨ n = 1 := by omega
  all_goals rfl

theorem wfCode_lt (wf : Waveform) : wfCode wf < 4 := by cases wf <;> decide

theorem modeCode_lt (bl : Mode) : modeCode bl < 2 := by cases bl <;> decide

@[simp] theorem operandOf_toNat (x : Word) : operandOf x.toNat = x := by simp [operandOf]

theorem toNat_operandOf {fmt : Fmt} {n : Nat} (h : n < 2 ^ fmt.width) : (operandOf n).toNat = n := by
  unfold operandOf
  rw [BitVec.toNat_ofNat, Nat.mod_eq_of_lt]
  cases fmt <;> simp only [Fmt.width] at h <;> omega

theorem length_bytesOfNat (n v : Nat) : (bytesOfNat n v).length = n := by
  induction n generalizing v with
  | zero => rfl
  | succ n ih => simp [bytesOfNat, ih]

/-- The bytes of a number give back the number, modulo what they can hold. -/
theorem natOfBytes_bytesOfNat (n v : Nat) : natOfBytes (bytesOfNat n v) = v % 256 ^ n := by
  induction n generalizing v with
  | zero => simp [bytesOfNat, natOfBytes, Nat.mod_one]
  | succ n ih =>
    simp only [bytesOfNat, natOfBytes, ih, BitVec.toNat_ofNat]
    rw [pow_succ' 256 n, Nat.mod_mul]

/-- Decoding reads the low `CW` bits only. -/
theorem decode_low {fmt : Fmt} {w w' : CmdWord} (h : w.toNat % 2 ^ fmt.cmdWidth = w'.toNat % 2 ^ fmt.cmdWidth) :
    decode fmt w = decode fmt w' := by
  have hf : ∀ lo len, lo + len ≤ fmt.cmdWidth → cmdField w lo len = cmdField w' lo len := by
    intro lo len hle
    unfold cmdField
    obtain ⟨r, hr⟩ : ∃ r, fmt.cmdWidth = lo + len + r := ⟨fmt.cmdWidth - (lo + len), by omega⟩
    rw [hr, pow_add, pow_add] at h
    have key : ∀ n : Nat, n / 2 ^ lo % 2 ^ len = n % (2 ^ lo * 2 ^ len * 2 ^ r) / 2 ^ lo % 2 ^ len := by
      intro n
      rw [Nat.mul_assoc, Nat.mod_mul_right_div_self, Nat.mod_mul_right_mod]
    rw [key w.toNat, key w'.toNat, h]
  unfold decode
  rw [hf _ _ (by simp [Fmt.cmdWidth]), hf _ _ (by simp [Fmt.cmdWidth]), hf _ _ (by simp [Fmt.cmdWidth]),
    hf _ _ (by simp [Fmt.cmdWidth]), hf _ _ (by simp [Fmt.cmdWidth]; omega), hf _ _ (by simp [Fmt.cmdWidth]; omega)]

/-- A mask of `len` ones above bit `lo` selects that field. -/
theorem and_field (n lo len : Nat) : n &&& ((2 ^ len - 1) * 2 ^ lo) = n / 2 ^ lo % 2 ^ len * 2 ^ lo := by
  apply Nat.eq_of_testBit_eq
  intro i
  rw [Nat.testBit_and, Nat.testBit_mul_two_pow, Nat.testBit_mul_two_pow, Nat.testBit_mod_two_pow, Nat.testBit_div_two_pow,
    Nat.testBit_two_pow_sub_one]
  by_cases h : lo ≤ i
  · simp [h, Nat.sub_add_cancel h, Bool.and_comm]
  · simp [h]

/-- A word that decodes to a command has exactly the fields of one row of R51. -/
theorem decode_cases {fmt : Fmt} {w : CmdWord} {i : Instr} (h : decode fmt w = .command i) :
    cmdField w (2 * fmt.width) 1 = 0 ∧
    ((cmdField w (2 * fmt.width + 4) 4 = 1 ∧ i = .oscNew (wfOfCode (cmdField w (2 * fmt.width + 2) 2))
        (modeOfCode (cmdField w (2 * fmt.width + 1) 1)) (operandOf (cmdField w fmt.width fmt.width)) (operandOf (cmdField w 0 fmt.width))) ∨
     (cmdField w (2 * fmt.width + 2) 2 = 0 ∧ cmdField w (2 * fmt.width + 1) 1 = 0 ∧ cmdField w 0 fmt.width = 0 ∧
      ((cmdField w (2 * fmt.width + 4) 4 = 2 ∧ i = .oscSetf (operandOf (cmdField w fmt.width fmt.width))) ∨
       (cmdField w (2 * fmt.width + 4) 4 = 3 ∧ i = .oscSetp (operandOf (cmdField w fmt.width fmt.width))) ∨
       (cmdField w (2 * fmt.width + 4) 4 = 6 ∧ i = .oscBlep (operandOf (cmdField w fmt.width fmt.width))) ∨
       (cmdField w fmt.width fmt.width = 0 ∧
        ((cmdField w (2 * fmt.width + 4) 4 = 4 ∧ i = .oscRst) ∨ (cmdField w (2 * fmt.width + 4) 4 = 5 ∧ i = .oscNext) ∨
         (cmdField w (2 * fmt.width + 4) 4 = 8 ∧ i = .whiteNext) ∨ (cmdField w (2 * fmt.width + 4) 4 = 9 ∧ i = .pinkNew) ∨
         (cmdField w (2 * fmt.width + 4) 4 = 10 ∧ i = .pinkNext) ∨ (cmdField w (2 * fmt.width + 4) 4 = 11 ∧ i = .brownNew) ∨
         (cmdField w (2 * fmt.width + 4) 4 = 12 ∧ i = .brownNext)))))) := by
  unfold decode at h
  dsimp only at h
  generalize cmdField w (2 * fmt.width + 4) 4 = op at *
  generalize cmdField w (2 * fmt.width + 2) 2 = wf at *
  generalize cmdField w (2 * fmt.width + 1) 1 = bl at *
  generalize cmdField w (2 * fmt.width) 1 = zb at *
  generalize cmdField w fmt.width fmt.width = a at *
  generalize cmdField w 0 fmt.width = b at *
  by_cases hz : zb = 0
  swap
  · simp [hz] at h
  refine ⟨hz, ?_⟩
  rw [if_neg (by simpa using hz)] at h
  by_cases h1 : op = 1
  · rw [if_pos h1] at h; exact .inl ⟨h1, by simpa using h.symm⟩
  rw [if_neg h1] at h
  right
  by_cases hu : wf ≠ 0 ∨ bl ≠ 0 ∨ b ≠ 0
  · simp [hu] at h
  rw [if_neg hu] at h
  refine ⟨by omega, by omega, by omega, ?_⟩
  by_cases h2 : op = 2
  · rw [if_pos h2] at h; exact .inl ⟨h2, by simpa using h.symm⟩
  rw [if_neg h2] at h
  by_cases h3 : op = 3
  · rw [if_pos h3] at h; exact .inr <| .inl ⟨h3, by simpa using h.symm⟩
  rw [if_neg h3] at h
  by_cases h6 : op = 6
  · rw [if_pos h6] at h; exact .inr <| .inr <| .inl ⟨h6, by simpa using h.symm⟩
  rw [if_neg h6] at h
  by_cases ha : a = 0
  swap
  · simp [ha] at h
  rw [if_neg (by simpa using ha)] at h
  refine .inr <| .inr <| .inr ⟨ha, ?_⟩
  by_cases h4 : op = 4
  · rw [if_pos h4] at h; exact .inl ⟨h4, by simpa using h.symm⟩
  rw [if_neg h4] at h
  by_cases h5 : op = 5
  · rw [if_pos h5] at h; exact .inr <| .inl ⟨h5, by simpa using h.symm⟩
  rw [if_neg h5] at h
  by_cases h8 : op = 8
  · rw [if_pos h8] at h; exact .inr <| .inr <| .inl ⟨h8, by simpa using h.symm⟩
  rw [if_neg h8] at h
  by_cases h9 : op = 9
  · rw [if_pos h9] at h; exact .inr <| .inr <| .inr <| .inl ⟨h9, by simpa using h.symm⟩
  rw [if_neg h9] at h
  by_cases h10 : op = 10
  · rw [if_pos h10] at h; exact .inr <| .inr <| .inr <| .inr <| .inl ⟨h10, by simpa using h.symm⟩
  rw [if_neg h10] at h
  by_cases h11 : op = 11
  · rw [if_pos h11] at h; exact .inr <| .inr <| .inr <| .inr <| .inr <| .inl ⟨h11, by simpa using h.symm⟩
  rw [if_neg h11] at h
  by_cases h12 : op = 12
  · rw [if_pos h12] at h; exact .inr <| .inr <| .inr <| .inr <| .inr <| .inr ⟨h12, by simpa using h.symm⟩
  · simp [h12] at h

/-- The mask of a command without operands: the whole word is fixed (R51). -/
theorem mask_full {W : ℕ} (hW : 2 * W + 8 ≤ 136) (w : CmdWord) (k : ℕ) (hk : k < 256) :
    w &&& BitVec.ofNat 136 (2 ^ (2 * W + 8) - 1) = BitVec.ofNat 136 (k * 2 ^ (2 * W)) ↔ w.toNat % 2 ^ (2 * W + 8) = k * 2 ^ (2 * W) := by
  have h1 : 2 ^ (2 * W + 8) ≤ 2 ^ 136 := Nat.pow_le_pow_right (by omega) hW
  have h2 : k * 2 ^ (2 * W) < 2 ^ (2 * W + 8) := by rw [pow_add]; nlinarith [Nat.two_pow_pos (2 * W)]
  have h3 : 0 < 2 ^ (2 * W + 8) := Nat.two_pow_pos _
  rw [← BitVec.toNat_inj, BitVec.toNat_and, BitVec.toNat_ofNat, BitVec.toNat_ofNat, Nat.mod_eq_of_lt (by omega), Nat.mod_eq_of_lt (by omega),
    Nat.and_two_pow_sub_one_eq_mod]


/-- The mask of a command whose one operand stands in slot `a`. -/
theorem mask_slotA {W : ℕ} (hW : 2 * W + 8 ≤ 136) (w : CmdWord) (k : ℕ) (hk : k < 256) :
    w &&& BitVec.ofNat 136 (255 * 2 ^ (2 * W) + (2 ^ W - 1)) = BitVec.ofNat 136 (k * 2 ^ (2 * W)) ↔
      w.toNat / 2 ^ (2 * W) % 256 = k ∧ w.toNat % 2 ^ W = 0 := by
  have h1 : 2 ^ (2 * W + 8) ≤ 2 ^ 136 := Nat.pow_le_pow_right (by omega) hW
  have hWW : 2 ^ (2 * W) = 2 ^ W * 2 ^ W := by rw [two_mul, pow_add]
  have h0 : 0 < 2 ^ W := Nat.two_pow_pos _
  have hle : 2 ^ W ≤ 2 ^ (2 * W) := Nat.pow_le_pow_right (by omega) (by omega)
  have h2 : 255 * 2 ^ (2 * W) + (2 ^ W - 1) < 2 ^ 136 := by rw [pow_add] at h1; omega
  have h3 : k * 2 ^ (2 * W) < 2 ^ 136 := by rw [pow_add] at h1; nlinarith [Nat.two_pow_pos (2 * W)]
  rw [← BitVec.toNat_inj, BitVec.toNat_and, BitVec.toNat_ofNat, BitVec.toNat_ofNat, Nat.mod_eq_of_lt h2, Nat.mod_eq_of_lt h3]
  have e : 255 * 2 ^ (2 * W) + (2 ^ W - 1) = (2 ^ 8 - 1) * 2 ^ (2 * W) ||| (2 ^ W - 1) * 2 ^ 0 := by
    have := Nat.two_pow_add_eq_or_of_lt (i := 2 * W) (b := 2 ^ W - 1) (by omega) 255
    rw [mul_comm 255, this]; norm_num [mul_comm]
  rw [e, Nat.and_or_distrib_left, and_field, and_field]
  have hb : w.toNat % 2 ^ W < 2 ^ W := Nat.mod_lt _ h0
  have := Nat.two_pow_add_eq_or_of_lt (i := 2 * W) (b := w.toNat % 2 ^ W) (by omega) (w.toNat / 2 ^ (2 * W) % 2 ^ 8)
  simp only [pow_zero, Nat.div_one, mul_one]
  rw [mul_comm (w.toNat / 2 ^ (2 * W) % 2 ^ 8), ← this]
  norm_num
  constructor
  · intro h
    have hm := congrArg (· % 2 ^ (2 * W)) h
    simp only [Nat.mul_add_mod, Nat.mul_mod_left] at hm
    rw [Nat.mod_eq_of_lt (by omega)] at hm
    rw [hm] at h
    refine ⟨?_, hm⟩
    have hp := Nat.two_pow_pos (2 * W)
    nlinarith
  · rintro ⟨h, h'⟩; rw [h, h', mul_comm]; rfl

/-- The mask of `OSC.NEW`: the opcode and the bit `z`. -/
theorem mask_new {W : ℕ} (hW : 2 * W + 8 ≤ 136) (w : CmdWord) :
    w &&& BitVec.ofNat 136 (241 * 2 ^ (2 * W)) = BitVec.ofNat 136 (16 * 2 ^ (2 * W)) ↔
      w.toNat / 2 ^ (2 * W + 4) % 16 = 1 ∧ w.toNat / 2 ^ (2 * W) % 2 = 0 := by
  have h1 : 2 ^ (2 * W + 8) ≤ 2 ^ 136 := Nat.pow_le_pow_right (by omega) hW
  have hp := Nat.two_pow_pos (2 * W)
  rw [pow_add] at h1
  rw [← BitVec.toNat_inj, BitVec.toNat_and, BitVec.toNat_ofNat, BitVec.toNat_ofNat, Nat.mod_eq_of_lt (by omega), Nat.mod_eq_of_lt (by omega)]
  have e : 241 * 2 ^ (2 * W) = (2 ^ 4 - 1) * 2 ^ (2 * W + 4) ||| (2 ^ 1 - 1) * 2 ^ (2 * W) := by
    have := Nat.two_pow_add_eq_or_of_lt (i := 2 * W + 4) (b := 1 * 2 ^ (2 * W)) (by rw [pow_add]; omega) 15
    rw [show (2 ^ 4 - 1) = 15 by rfl, show 2 ^ 1 - 1 = 1 by rfl, mul_comm 15, ← this, pow_add]; ring
  rw [e, Nat.and_or_distrib_left, and_field, and_field]
  have hb : w.toNat / 2 ^ (2 * W) % 2 ^ 1 < 2 := Nat.mod_lt _ (by norm_num)
  have := Nat.two_pow_add_eq_or_of_lt (i := 2 * W + 4) (b := w.toNat / 2 ^ (2 * W) % 2 ^ 1 * 2 ^ (2 * W)) (by rw [pow_add]; nlinarith) (w.toNat / 2 ^ (2 * W + 4) % 2 ^ 4)
  rw [mul_comm (w.toNat / 2 ^ (2 * W + 4) % 2 ^ 4), ← this, pow_add, mul_assoc, mul_comm _ (2 ^ (2 * W)), mul_comm 16]
  norm_num
  rw [← mul_add, Nat.mul_right_inj (by positivity)]
  norm_num at hb ⊢
  omega


end Sys2Proof
end

