-- ==== Sys2Proof/Laws/Fits.lean ====
section
/-! SUPPORT. Every primitive answers a `W`-bit pattern, whatever its operands (log 1); and so does every formula of the block. -/

namespace Sys2Proof.Machine

theorem fits_toWidth (fmt : Fmt) (x : Word) : fits fmt (toWidth fmt x) = true := by
  have h := Nat.mod_lt x.toNat (Nat.two_pow_pos fmt.width)
  have h2 := width_le fmt
  rw [fits_iff]
  unfold toWidth
  rw [BitVec.toNat_ofNat, Nat.mod_eq_of_lt (by omega)]
  exact h

@[simp] theorem toNat_toWidth (fmt : Fmt) (x : Word) : (toWidth fmt x).toNat = x.toNat % 2 ^ fmt.width := by
  have h := Nat.mod_lt x.toNat (Nat.two_pow_pos fmt.width)
  have h2 := width_le fmt
  unfold toWidth
  rw [BitVec.toNat_ofNat]
  exact Nat.mod_eq_of_lt (lt_of_lt_of_le h h2)

/-- Only the low `W` bits of a container have a meaning: sign and magnitude are read from them. -/
@[simp] theorem magOf_toWidth (fmt : Fmt) (x : Word) : magOf fmt (toWidth fmt x) = magOf fmt x := by
  unfold magOf
  rw [toNat_toWidth, width_eq fmt, Nat.mul_comm, Nat.mod_mul_right_mod]

@[simp] theorem negOf_toWidth (fmt : Fmt) (x : Word) : negOf fmt (toWidth fmt x) = negOf fmt x := by
  unfold negOf
  rw [toNat_toWidth, width_eq fmt, Nat.mul_comm 2, Nat.mod_mul_right_div_self, Nat.mod_mod]

theorem toWidth_of_fits {fmt : Fmt} {x : Word} (h : fits fmt x = true) : toWidth fmt x = x := by
  rw [fits_iff] at h
  simp [toWidth, Nat.mod_eq_of_lt h]

@[simp] theorem fits_zeroLit (fmt : Fmt) : fits fmt 0#64 = true := by cases fmt <;> decide

@[simp] theorem fits_constBits (fmt : Fmt) (c : Const) : fits fmt (constBits fmt c) = true := by cases fmt <;> cases c <;> decide

@[simp] theorem fits_canonNaN (fmt : Fmt) : fits fmt (canonNaN fmt) = true := fits_mkWord (nanMag_lt fmt)

@[simp] theorem fits_infWord (fmt : Fmt) (s : Bool) : fits fmt (infWord fmt s) = true := fits_mkWord (infMag_lt fmt)

@[simp] theorem fits_zeroWord (fmt : Fmt) (s : Bool) : fits fmt (zeroWord fmt s) = true := fits_mkWord (Nat.two_pow_pos _)

@[simp] theorem fits_rounded (fmt : Fmt) (s : Bool) (n d : Nat) : fits fmt (mkWord fmt s (roundMag fmt n d)) = true :=
  fits_mkWord (roundMag_lt_width fmt n d)

@[simp] theorem fits_fadd (fmt : Fmt) (x y : Word) : fits fmt (fadd fmt x y) = true := by
  unfold fadd; dsimp only; split_ifs <;> simp

@[simp] theorem fits_fsub (fmt : Fmt) (x y : Word) : fits fmt (fsub fmt x y) = true := fits_fadd fmt _ _

@[simp] theorem fits_fmul (fmt : Fmt) (x y : Word) : fits fmt (fmul fmt x y) = true := by
  unfold fmul; dsimp only; split_ifs <;> simp

@[simp] theorem fits_fdiv (fmt : Fmt) (x y : Word) : fits fmt (fdiv fmt x y) = true := by
  unfold fdiv; dsimp only; split_ifs <;> simp

@[simp] theorem fits_frac (fmt : Fmt) (sin : Word → Word) (x : Word) : fits fmt (frac (ieee fmt sin) x) = true := fits_fadd fmt _ _

@[simp] theorem fits_accum (fmt : Fmt) (sin : Word → Word) (ph d : Word) : fits fmt (accum (ieee fmt sin) ph d) = true := by
  have : accum (ieee fmt sin) ph d = fsub fmt (fadd fmt ph d) (constBits fmt .one) ∨ accum (ieee fmt sin) ph d = fadd fmt ph d := by
    by_cases h : fge fmt (fadd fmt ph d) (constBits fmt .one) = true
    · left; simp [accum, ieee, h]
    · right; simp [accum, ieee, h]
  rcases this with h | h <;> rw [h] <;> simp

@[simp] theorem fits_tapStep (fmt : Fmt) (sin : Word → Word) (decay gain : Const) (b w : Word) :
    fits fmt (tapStep (ieee fmt sin) decay gain b w) = true := fits_fadd fmt _ _

@[simp] theorem fits_brownPrev (fmt : Fmt) (sin : Word → Word) (prev w : Word) : fits fmt (brownPrev (ieee fmt sin) prev w) = true :=
  fits_fdiv fmt _ _

end Sys2Proof.Machine
end

