-- ==== Sys2Proof/Machine/Ideal.lean ====
section
/-! DEFINITION. The `IDEAL` profile (00_scope.md R8, 40_numerics.md R80): the number system of the exact reals, which is the literal
reading of the document's formulas, and the block over it as a reference machine of the abstract commands of 30_encoding.md
R59. `bits`, command words and response words do not exist in this profile, so it has no decoding and no `ILL`. It uses the
same formulas as the machine (Formulas.lean). Nothing of `step` depends on this file. Log 8. -/

namespace Sys2Proof.Machine

/-- Truncation toward zero on the reals (R80). -/
noncomputable def realTrunc (x : ℝ) : ℝ := if 0 ≤ x then (⌊x⌋ : ℝ) else (⌈x⌉ : ℝ)

/-- The constants: "each constant is the exact decimal value (and `K_TWO_PI` is 2π)" (R78). -/
noncomputable def idealConst (c : Const) : ℝ :=
  match c with
  | .twoPi => 2 * Real.pi
  | c =>
    let lit := constLiteral c
    (if lit.1 then -1 else 1) * ((lit.2.1 : ℝ) / (10 : ℝ) ^ lit.2.2)

/-- The real number system (R80). `div` is used only where the divisor is not zero: a command that would evaluate a division by zero
is refused (`idealExec`). -/
noncomputable def idealNum : NumSys ℝ where
  add := fun x y => x + y
  sub := fun x y => x - y
  mul := fun x y => x * y
  div := fun x y => x / y
  lt := fun x y => decide (x < y)
  gt := fun x y => decide (x > y)
  ge := fun x y => decide (x ≥ y)
  trunc := realTrunc
  sin := Real.sin
  k := idealConst

/-- The commands of R59 with real operands. -/
inductive IdealCommand
  | oscNew (wf : Waveform) (bl : Mode) (sr hz : ℝ)
  | oscSetf (hz : ℝ)
  | oscSetp (p : ℝ)
  | oscRst
  | oscNext
  | oscBlep (p : ℝ)
  | whiteNext
  | pinkNew
  | pinkNext
  | brownNew
  | brownNext

/-- The block's state over the reals, with the random values to come and the responses given. No reserved word exists here, so
`S.ILL` stays 0 and is left out. -/
structure IdealState where
  osc : Option (Osc ℝ)
  taps : Taps ℝ
  prev : ℝ
  unc : Bool
  rnd : List ℝ
  rsp : List (Response ℝ)

/-- The state after hardware reset (10_state.md R29). -/
noncomputable def idealReset : IdealState :=
  { osc := none, taps := tapsOf 0, prev := 0, unc := false, rnd := [], rsp := [] }

/-- The outcome of a command in the `IDEAL` profile. -/
abbrev IdealResult := Host.Outcome IdealState Fault Refusal

noncomputable def idealRespond (r : Response ℝ) (s : IdealState) : IdealState := { s with rsp := s.rsp ++ [r] }

/-- The fault `UNC` (60_exceptions.md R147, R149). -/
noncomputable def idealUnc (s : IdealState) : IdealState := idealRespond (.err .unc) { s with unc := true }

/-- `BLEP(p, d)` would divide by zero: a division is reached under `p < d` or `p > 1 - d`, and both divide by `d`
(43_polyblep.md R110, R114). -/
def blepDividesByZero (p d : ℝ) : Prop := (p < d ∨ p > 1 - d) ∧ d = 0

/-- The sample at the oscillator's phase would divide by zero: only the bandlimited saw and square divide, at the phase and
(square) at the shifted phase (R118, R119). -/
noncomputable def sampleDividesByZero (o : Osc ℝ) : Prop :=
  o.bl = .bandlimited ∧
    ((o.wf = .saw ∧ blepDividesByZero o.phase o.inc) ∨
      (o.wf = .square ∧ (blepDividesByZero o.phase o.inc ∨ blepDividesByZero (halfShift idealNum o.phase) o.inc)))

open Classical in
/-- Runs on with `t`, or is refused where a division by zero would be evaluated (R80). -/
noncomputable def unlessUndefined (undef : Prop) (t : IdealState) : IdealResult :=
  if undef then .refused .idealDivisionByZero else .next t

/-- A command that needs a constructed oscillator (10_state.md R18). -/
noncomputable def idealWithOsc (s : IdealState) (k : Osc ℝ → IdealResult) : IdealResult :=
  match s.osc with
  | none => .next (idealUnc s)
  | some o => k o

/-- `RndTake()` (20_memory.md R38); with no value left the run is stuck (60_exceptions.md R162). -/
noncomputable def idealWithRandom (s : IdealState) (k : ℝ → IdealState → IdealState) : IdealResult :=
  match s.rnd with
  | [] => .fault .stuckOnRandom
  | u :: rest => .next (k u { s with rnd := rest })

/-- One command in the `IDEAL` profile: the rules of the command families over the reals (R80). -/
noncomputable def idealExec (c : IdealCommand) (s : IdealState) : IdealResult :=
  match c with
  | .oscNew wf bl sr hz =>
    unlessUndefined (sr = 0) (idealRespond .ack { s with osc := some (newOsc idealNum wf bl sr hz) })
  | .oscSetf hz =>
    idealWithOsc s fun o =>
      unlessUndefined (o.sr = 0) (idealRespond .ack { s with osc := some { o with inc := idealNum.div hz o.sr } })
  | .oscSetp p =>
    idealWithOsc s fun o => .next (idealRespond .ack { s with osc := some { o with phase := frac idealNum p } })
  | .oscRst =>
    idealWithOsc s fun o => .next (idealRespond .ack { s with osc := some { o with phase := idealNum.k .zero } })
  | .oscNext =>
    idealWithOsc s fun o =>
      let o' := advance idealNum o
      unlessUndefined (sampleDividesByZero o')
        (idealRespond (.sample (oscSample idealNum o')) { s with osc := some o' })
  | .oscBlep p =>
    idealWithOsc s fun o =>
      unlessUndefined (blepDividesByZero p o.inc) (idealRespond (.sample (blep idealNum p o.inc)) s)
  | .whiteNext => idealWithRandom s fun u s => idealRespond (.sample (white idealNum u)) s
  | .pinkNew => .next (idealRespond .ack { s with taps := tapsOf (idealNum.k .zero) })
  | .pinkNext =>
    idealWithRandom s fun u s =>
      let w := white idealNum u
      let b := pinkTaps idealNum s.taps w
      idealRespond (.sample (pinkOut idealNum b w)) { s with taps := b }
  | .brownNew => .next (idealRespond .ack { s with prev := idealNum.k .zero })
  | .brownNext =>
    idealWithRandom s fun u s =>
      let p := brownPrev idealNum s.prev (white idealNum u)
      idealRespond (.sample (brownOut idealNum p)) { s with prev := p }

/-- A run of a list of commands (70_reset_and_hazards.md R178), stopping at the first stop. -/
noncomputable def idealRun (s : IdealState) : List IdealCommand → IdealResult
  | [] => .next s
  | c :: rest =>
    match idealExec c s with
    | .next t => idealRun t rest
    | .fault r => .fault r
    | .refused r => .refused r

end Sys2Proof.Machine
end

