-- ==== Sys2Proof/Laws/Formulas.lean ====
section
/-! SUPPORT. The formulas at the two kinds of number system: each in the `IEEE` primitives, and each over the reals as plain real arithmetic.
Provers rewrite with these and do not unfold `ieee`, `hw` or `idealNum`. -/

namespace Sys2Proof.Machine

section Ieee

variable (fmt : Fmt) (sin : Word → Word)

theorem frac_ieee (x : Word) : frac (ieee fmt sin) x = fsub fmt x (ftrunc fmt x) := rfl

theorem sine_ieee (p : Word) : sine (ieee fmt sin) p = sin (fmul fmt (constBits fmt .twoPi) p) := rfl

theorem accum_ieee (ph d : Word) : accum (ieee fmt sin) ph d =
    if fge fmt (fadd fmt ph d) (constBits fmt .one) = true then fsub fmt (fadd fmt ph d) (constBits fmt .one) else fadd fmt ph d := rfl

theorem saw_ieee (p : Word) : saw (ieee fmt sin) p = fsub fmt (fmul fmt (constBits fmt .two) p) (constBits fmt .one) := rfl

theorem white_ieee (u : Word) : white (ieee fmt sin) u = fsub fmt (fmul fmt (constBits fmt .two) u) (constBits fmt .one) := rfl

theorem square_ieee (p : Word) : square (ieee fmt sin) p =
    if flt fmt p (constBits fmt .half) = true then constBits fmt .one else constBits fmt .negOne := rfl

theorem triangle_ieee (p : Word) : triangle (ieee fmt sin) p =
    if flt fmt p (constBits fmt .half) = true then fsub fmt (fmul fmt (constBits fmt .four) p) (constBits fmt .one)
    else fadd fmt (fmul fmt (constBits fmt .negFour) p) (constBits fmt .three) := rfl

theorem blep_ieee (p d : Word) : blep (ieee fmt sin) p d =
    if flt fmt p d = true then
      fsub fmt (fsub fmt (fmul fmt (constBits fmt .two) (fdiv fmt p d)) (fmul fmt (fdiv fmt p d) (fdiv fmt p d))) (constBits fmt .one)
    else if fgt fmt p (fsub fmt (constBits fmt .one) d) = true then
      fadd fmt (fadd fmt (fmul fmt (fdiv fmt (fsub fmt p (constBits fmt .one)) d) (fdiv fmt (fsub fmt p (constBits fmt .one)) d))
        (fmul fmt (constBits fmt .two) (fdiv fmt (fsub fmt p (constBits fmt .one)) d))) (constBits fmt .one)
    else constBits fmt .zero := by
  unfold blep
  rfl

theorem tapStep_ieee (decay gain : Const) (b w : Word) : tapStep (ieee fmt sin) decay gain b w =
    fadd fmt (fmul fmt (constBits fmt decay) b) (fmul fmt w (constBits fmt gain)) := rfl

theorem brownPrev_ieee (prev w : Word) : brownPrev (ieee fmt sin) prev w =
    fdiv fmt (fadd fmt prev (fmul fmt (constBits fmt .bg) w)) (constBits fmt .bd) := rfl

theorem brownOut_ieee (prev : Word) : brownOut (ieee fmt sin) prev = fmul fmt prev (constBits fmt .bs) := rfl

theorem newOsc_ieee (wf : Waveform) (bl : Mode) (sr hz : Word) : newOsc (ieee fmt sin) wf bl sr hz =
    { phase := constBits fmt .zero, inc := fdiv fmt hz sr, sr := sr, wf := wf, bl := bl } := rfl

theorem advance_ieee (o : Osc Word) : advance (ieee fmt sin) o = { o with phase := accum (ieee fmt sin) o.phase o.inc } := rfl

end Ieee

/-! The reals. -/

@[simp] theorem idealConst_zero : idealConst .zero = 0 := by norm_num [idealConst, constLiteral]
@[simp] theorem idealConst_half : idealConst .half = 1 / 2 := by norm_num [idealConst, constLiteral]
@[simp] theorem idealConst_one : idealConst .one = 1 := by norm_num [idealConst, constLiteral]
@[simp] theorem idealConst_negOne : idealConst .negOne = -1 := by norm_num [idealConst, constLiteral]
@[simp] theorem idealConst_two : idealConst .two = 2 := by norm_num [idealConst, constLiteral]
@[simp] theorem idealConst_three : idealConst .three = 3 := by norm_num [idealConst, constLiteral]
@[simp] theorem idealConst_four : idealConst .four = 4 := by norm_num [idealConst, constLiteral]
@[simp] theorem idealConst_negFour : idealConst .negFour = -4 := by norm_num [idealConst, constLiteral]
@[simp] theorem idealConst_twoPi : idealConst .twoPi = 2 * Real.pi := rfl

theorem frac_ideal (x : ℝ) : frac idealNum x = x - realTrunc x := rfl

theorem sine_ideal (p : ℝ) : sine idealNum p = Real.sin (2 * Real.pi * p) := rfl

theorem accum_ideal (ph d : ℝ) : accum idealNum ph d = if 1 ≤ ph + d then ph + d - 1 else ph + d := by
  simp [accum, idealNum]

theorem saw_ideal (p : ℝ) : saw idealNum p = 2 * p - 1 := by simp [saw, idealNum]

theorem white_ideal (u : ℝ) : white idealNum u = 2 * u - 1 := by simp [white, idealNum]

theorem square_ideal (p : ℝ) : square idealNum p = if p < 1 / 2 then 1 else -1 := by simp [square, idealNum]

theorem triangle_ideal (p : ℝ) : triangle idealNum p = if p < 1 / 2 then 4 * p - 1 else -4 * p + 3 := by
  simp [triangle, idealNum]

theorem blep_ideal (p d : ℝ) : blep idealNum p d =
    if p < d then 2 * (p / d) - p / d * (p / d) - 1
    else if 1 - d < p then (p - 1) / d * ((p - 1) / d) + 2 * ((p - 1) / d) + 1
    else 0 := by
  simp [blep, idealNum]

theorem blSaw_ideal (p d : ℝ) : blSaw idealNum p d = 2 * p - 1 - blep idealNum p d := by
  rw [← saw_ideal]; rfl

theorem blSquare_ideal (p d : ℝ) : blSquare idealNum p d =
    square idealNum p + blep idealNum p d - blep idealNum (halfShift idealNum p) d := rfl

theorem halfShift_ideal (p : ℝ) : halfShift idealNum p = p + 1 / 2 - realTrunc (p + 1 / 2) := by
  rw [← idealConst_half]; rfl

theorem tapStep_ideal (decay gain : Const) (b w : ℝ) :
    tapStep idealNum decay gain b w = idealConst decay * b + w * idealConst gain := rfl

theorem pinkOut_ideal (b : Taps ℝ) (w : ℝ) : pinkOut idealNum b w =
    (b.b0 + b.b1 + b.b2 + b.b3 + b.b4 + b.b5 + w * idealConst .pw) * idealConst .ps := rfl

theorem brownPrev_ideal (prev w : ℝ) : brownPrev idealNum prev w = (prev + idealConst .bg * w) / idealConst .bd := rfl

theorem brownOut_ideal (prev : ℝ) : brownOut idealNum prev = prev * idealConst .bs := rfl

end Sys2Proof.Machine
end

