-- ==== Sys2Proof/Machine/SineUnit.lean ====
section
/-! DEFINITION. What the spec says of the sine unit (40_numerics.md R76), and one function that meets it, so that a free value with these
properties can be declared (Machine/SineSearch.lean has one for each tolerance that can be met). -/

namespace Sys2Proof.Machine

/-- What may be assumed of the sine primitive, and nothing else (40_numerics.md R76): a total function of `F` with the five named properties,
for a tolerance `tol` (the parameter `SIN_TOL`). -/
structure SinProperties (fmt : Fmt) (tol : Rat) (sin : Word → Word) : Prop where
  /-- "a total function `F -> F`": every result is a `W`-bit pattern -/
  total : ∀ x, fits fmt (sin x) = true
  /-- `SIN_DET` -/
  det : ∀ x, sin x = sin (toWidth fmt x)
  /-- `SIN_RANGE` -/
  range : ∀ x, isFinite fmt x = true → inSignedUnit fmt (sin x) = true
  /-- `SIN_ZERO` -/
  zero : sin (zeroWord fmt false) = zeroWord fmt false
  /-- `SIN_APPROX` -/
  approx : ∀ p, inUnit fmt p = true →
    |((valueOf fmt (sin (fmul fmt (constBits fmt .twoPi) p)) : ℚ) : ℝ) - Real.sin (2 * Real.pi * ((valueOf fmt p : ℚ) : ℝ))|
      ≤ ((tol : ℚ) : ℝ)
  /-- `SIN_NAN` -/
  nan : ∀ x, (isNaN fmt x || isInf fmt x) = true → sin x = canonNaN fmt

/-- What a sine unit of the parameter `SIN_TOL` is (00_scope.md R7, 40_numerics.md R76: a "smaller or larger tolerance is modelled by changing the
parameter"): it has the five properties at that tolerance. A tolerance that no function meets is that of no hardware; such a parameter
leaves the tolerance of R7. DESIGN CHOICE, log 4. -/
def AdmittedSine (fmt : Fmt) (tol : Rat) (sin : Word → Word) : Prop :=
  SinProperties fmt tol sin ∨ (∀ f, ¬ SinProperties fmt tol f) ∧ SinProperties fmt fmt.sinTol sin

/-- The error budget of R76: 4.8e-7 and 8.1e-16. Every tolerance from it on can be met. -/
def sineBudget : Fmt → Rat
  | .binary32 => 48 / 10 ^ 8
  | .binary64 => 81 / 10 ^ 17

/-- The coefficient of `x ^ m / m!` in the sine series. -/
def sineCoeff (m : Nat) : Int := if m % 4 = 1 then 1 else if m % 4 = 3 then -1 else 0

/-- The first `n` terms of the sine series. -/
def sineSeries (n : Nat) (q : Rat) : Rat := ∑ m ∈ Finset.range n, (sineCoeff m : Rat) * (q ^ m / (m.factorial : Rat))

/-- The word of a rational cut to [-1, 1] and rounded to a multiple of the last place of the values below 1. -/
def unitWord (fmt : Fmt) (r : Rat) : Word :=
  mkWord fmt (decide (r < 0))
    (roundMag fmt (min ⌊|r| * 2 ^ fmt.precision + 1 / 2⌋₊ (2 ^ fmt.precision) * 2 ^ (lsbExp fmt - fmt.precision)) 1)

/-- ONE sine unit that meets R76 at the tolerance of 00_scope.md R7 (`referenceSine_properties`, Laws/Sine.lean). It is here only to show that
there is one: the sine unit of the machine is the free value `Config.sineOf`, about which this function says nothing (log 4). -/
def referenceSine (fmt : Fmt) (x : Word) : Word :=
  if isNaN fmt x || isInf fmt x then canonNaN fmt
  else if |valueOf fmt x| ≤ 7 then unitWord fmt (sineSeries 64 (valueOf fmt x))
  else zeroWord fmt false

/-! Rational approximations of `sin(2 * pi * v)`, by which it is decided whether a word is within a tolerance of it. -/

/-- Leibniz' series: a rational at most `pi`, and within `4 / (4k + 1)` of it. -/
def piBelow (k : Nat) : Rat := 4 * ∑ i ∈ Finset.range (2 * k), (-1 : Rat) ^ i * (1 / (2 * i + 1))

/-- The `k`-th approximation of `sin(2 * pi * v)`, `0 ≤ v < 1`. -/
def sineApprox (k : Nat) (v : Rat) : Rat := sineSeries (k + 13) (2 * piBelow k * v)

/-- A bound on its error, which tends to zero. -/
def sineError (k : Nat) : Rat := 7 ^ (k + 13) / ((k + 13).factorial : Rat) * 2 + 8 / (4 * k + 1)

/-- `sin(2 * pi * v)` at the quarters of a cycle, the dyadic phases of [0, 1) where it is rational. -/
def quarterSine (v : Rat) : Option Rat :=
  if v = 0 ∨ v = 1 / 2 then some 0 else if v = 1 / 4 then some 1 else if v = 3 / 4 then some (-1) else none

end Sys2Proof.Machine
end

