-- ==== Sys2Proof/Laws/Sine.lean ====
section
/-! SUPPORT. There is a sine unit that meets 40_numerics.md R76, so that the free value `Config.sineOf` can be declared: the series is near the real
sine, its word near the series, and the operand near `2 * pi * p`. -/

namespace Sys2Proof.Machine

/-- One tolerance implies every wider one. -/
theorem SinProperties.mono {fmt : Fmt} {tol tol' : Rat} {sin : Word → Word} (h : SinProperties fmt tol sin) (hle : tol ≤ tol') :
    SinProperties fmt tol' sin :=
  ⟨h.total, h.det, h.range, h.zero, fun p hp => le_trans (h.approx p hp) (by exact_mod_cast hle), h.nan⟩

/-- `SINE(+0.0) = +0.0` (40_numerics.md R77). -/
theorem SinProperties.sine_zero {fmt : Fmt} {tol : Rat} {sin : Word → Word} (h : SinProperties fmt tol sin) :
    sine (ieee fmt sin) (constBits fmt .zero) = constBits fmt .zero := by
  have : fmul fmt (constBits fmt .twoPi) (constBits fmt .zero) = zeroWord fmt false := by cases fmt <;> decide +kernel
  rw [sine_ieee, this, h.zero, constBits_zero]

theorem sineCoeff_eq (m : ℕ) : ((sineCoeff m : ℤ) : ℝ) = (Complex.I ^ m).im := by
  have h : Complex.I ^ m = Complex.I ^ (m % 4) := by
    conv_lhs => rw [← Nat.div_add_mod m 4, pow_add, pow_mul, Complex.I_pow_four, one_pow, one_mul]
  rw [h]
  unfold sineCoeff
  have : m % 4 < 4 := Nat.mod_lt _ (by norm_num)
  interval_cases m % 4 <;> simp [pow_succ]

/-- The series is near the sine, on the operands of a phase in [0, 1). -/
theorem sineSeries_near (q : ℚ) (hq : |q| ≤ 7) (n : ℕ) (hn : 13 ≤ n) :
    |((sineSeries n q : ℚ) : ℝ) - Real.sin (q : ℝ)| ≤ 7 ^ n / (n.factorial : ℝ) * 2 := by
  have hq7 : ‖((q : ℝ) : ℂ) * Complex.I‖ ≤ 7 := by
    rw [norm_mul, Complex.norm_I, mul_one, Complex.norm_real, Real.norm_eq_abs]
    exact_mod_cast hq
  have hb := Complex.exp_bound' (x := ((q : ℝ) : ℂ) * Complex.I) (n := n) (by
    have : (13 : ℝ) ≤ n := by exact_mod_cast hn
    rw [div_le_iff₀ (by positivity)]; refine le_trans hq7 ?_; push_cast; linarith)
  have him : (Complex.exp (((q : ℝ) : ℂ) * Complex.I) - ∑ m ∈ Finset.range n, (((q : ℝ) : ℂ) * Complex.I) ^ m / (m.factorial : ℂ)).im =
      Real.sin (q : ℝ) - ((sineSeries n q : ℚ) : ℝ) := by
    rw [Complex.sub_im, Complex.exp_ofReal_mul_I_im, Complex.im_sum]
    congr 1
    unfold sineSeries
    push_cast
    refine Finset.sum_congr rfl fun m _ => ?_
    have e : ((q : ℂ) * Complex.I) ^ m / (m.factorial : ℂ) = (((q : ℝ) ^ m / (m.factorial : ℝ) : ℝ) : ℂ) * Complex.I ^ m := by
      rw [mul_pow]; push_cast; ring
    rw [e, Complex.im_ofReal_mul, sineCoeff_eq, mul_comm]
  rw [abs_sub_comm, ← him]
  refine le_trans (Complex.abs_im_le_norm _) (le_trans hb ?_)
  have : ‖((q : ℝ) : ℂ) * Complex.I‖ ^ n ≤ 7 ^ n := pow_le_pow_left₀ (norm_nonneg _) hq7 n
  gcongr

theorem precision_le (fmt : Fmt) : fmt.precision ≤ lsbExp fmt := by cases fmt <;> decide

/-- What `unitWord` answers: a word in [-1, 1], half a last place further from a real in [-1, 1] than the rational is. -/
theorem unitWord_spec (fmt : Fmt) (r : ℚ) :
    fits fmt (unitWord fmt r) = true ∧ inSignedUnit fmt (unitWord fmt r) = true ∧
      ∀ y : ℝ, |y| ≤ 1 → |((valueOf fmt (unitWord fmt r) : ℚ) : ℝ) - y| ≤ (1 / 2) ^ (fmt.precision + 1) + |(r : ℝ) - y| := by
  set F := fmt.precision with hF
  have h2 : (0 : ℚ) < 2 ^ F := by positivity
  have hfl1 : ((⌊|r| * 2 ^ F + 1 / 2⌋₊ : ℕ) : ℚ) ≤ |r| * 2 ^ F + 1 / 2 := Nat.floor_le (by positivity)
  have hfl2 : |r| * 2 ^ F + 1 / 2 < (⌊|r| * 2 ^ F + 1 / 2⌋₊ : ℕ) + 1 := Nat.lt_floor_add_one _
  have hu : unitWord fmt r = mkWord fmt (decide (r < 0)) (roundMag fmt (min ⌊|r| * 2 ^ F + 1 / 2⌋₊ (2 ^ F) * 2 ^ (lsbExp fmt - F)) 1) := rfl
  generalize ⌊|r| * 2 ^ F + 1 / 2⌋₊ = b at *
  have hmin : min b (2 ^ F) ≤ 2 ^ F := min_le_right _ _
  have hmb : min b (2 ^ F) ≤ b := min_le_left _ _
  have hmin2 : min b (2 ^ F) = b ∨ min b (2 ^ F) = 2 ^ F := by omega
  generalize min b (2 ^ F) = a at *
  obtain ⟨m, hm⟩ := exists_unitsOf fmt a (lsbExp fmt - F) (by rw [hF, Fmt.precision, pow_succ] at hmin; omega)
  have hmi : m < infMag fmt := by
    rw [← unitsOf_lt_iff (fmt := fmt), hm]
    refine lt_of_le_of_lt (Nat.mul_le_mul_right _ hmin) ?_
    rw [hF]
    cases fmt <;> decide +kernel
  have hr : roundMag fmt (a * 2 ^ (lsbExp fmt - F)) 1 = m := by
    rw [← hm]; simpa using roundMag_exact (fmt := fmt) (d := 1) (m := m) one_pos (by omega)
  rw [hr] at hu
  have hw := lt_trans hmi (infMag_lt fmt)
  have hf : isFinite fmt (unitWord fmt r) = true := by rw [hu, isFinite_iff, magOf_mkWord hw]; exact hmi
  have hun : unitsOf fmt (magOf fmt (unitWord fmt r)) ≤ 2 ^ lsbExp fmt := by
    rw [hu, magOf_mkWord hw, hm]
    calc a * 2 ^ (lsbExp fmt - F) ≤ 2 ^ F * 2 ^ (lsbExp fmt - F) := Nat.mul_le_mul_right _ hmin
      _ = 2 ^ lsbExp fmt := by rw [← pow_add]; congr 1; have := precision_le fmt; omega
  have hval : valueOf fmt (unitWord fmt r) = (if r < 0 then -1 else 1) * ((a : ℚ) / 2 ^ F) := by
    rw [valueOf_eq, hu, sunits_mkWord hw, hm]
    have e : (2 : ℚ) ^ lsbExp fmt = 2 ^ F * 2 ^ (lsbExp fmt - F) := by
      rw [← pow_add]; congr 1; have := precision_le fmt; omega
    rw [e]
    by_cases hneg : r < 0 <;> simp [hneg] <;> field_simp
  refine ⟨by rw [hu]; exact fits_mkWord hw, ?_, fun y hy => ?_⟩
  · have := natAbs_sunits fmt (unitWord fmt r)
    rw [inSignedUnit_iff]
    have e : ((2 ^ lsbExp fmt : ℕ) : ℤ) = 2 ^ lsbExp fmt := by push_cast; rfl
    refine ⟨isNaN_of_isFinite hf, ?_, ?_⟩ <;> rw [← e] <;> omega
  · have h2R : (0 : ℝ) < 2 ^ F := by positivity
    have g1 : (b : ℝ) ≤ |(r : ℝ)| * 2 ^ F + 1 / 2 := by
      have := (Rat.cast_le (K := ℝ)).2 hfl1; push_cast at this; exact this
    have g2 : |(r : ℝ)| * 2 ^ F + 1 / 2 < (b : ℝ) + 1 := by
      have := (Rat.cast_lt (K := ℝ)).2 hfl2; push_cast at this; exact this
    have hq0 : (0 : ℝ) ≤ (a : ℝ) / 2 ^ F := by positivity
    have hhalf : (1 / 2 : ℝ) ^ (F + 1) = 1 / 2 / 2 ^ F := by rw [pow_succ, div_pow, one_pow]; ring
    have hle : (a : ℝ) / 2 ^ F ≤ |(r : ℝ)| + (1 / 2) ^ (F + 1) := by
      have : (a : ℝ) ≤ b := by exact_mod_cast hmb
      rw [hhalf, div_le_iff₀ h2R, add_mul, div_mul_cancel₀ _ h2R.ne']
      linarith
    have hge : |(r : ℝ)| ≤ (a : ℝ) / 2 ^ F + (1 / 2) ^ (F + 1) ∨ (a : ℝ) / 2 ^ F = 1 := by
      rcases hmin2 with h | h
      · left
        subst h
        rw [hhalf, ← add_div, le_div_iff₀ h2R]; linarith
      · right; rw [h]; push_cast; exact div_self h2R.ne'
    have hp : (0 : ℝ) ≤ (1 / 2) ^ (F + 1) := by positivity
    rw [hval]
    have hvR : (((if r < 0 then -1 else 1) * ((a : ℚ) / 2 ^ F) : ℚ) : ℝ) = (if r < 0 then -1 else 1) * ((a : ℝ) / 2 ^ F) := by
      split_ifs <;> push_cast <;> ring
    rw [hvR]
    obtain ⟨y1, y2⟩ := abs_le.1 hy
    by_cases hneg : r < 0
    · have hnR : (r : ℝ) < 0 := by exact_mod_cast hneg
      rw [abs_of_neg hnR] at hle hge
      simp only [hneg, if_true]
      rw [abs_le]
      have k1 := neg_abs_le ((r : ℝ) - y)
      have k2 := le_abs_self ((r : ℝ) - y)
      constructor <;> rcases hge with h | h <;> linarith
    · have hnR : (0 : ℝ) ≤ (r : ℝ) := by exact_mod_cast not_lt.1 hneg
      rw [abs_of_nonneg hnR] at hle hge
      simp only [hneg, if_false]
      rw [abs_le]
      have k1 := neg_abs_le ((r : ℝ) - y)
      have k2 := le_abs_self ((r : ℝ) - y)
      constructor <;> rcases hge with h | h <;> linarith

/-- The argument error of R76, in last places of 1: half of one of a value below 8 for the product, and that of `K_TWO_PI`. -/
def twoPiError : Fmt → ℚ
  | .binary32 => 694 / 100
  | .binary64 => 621 / 100

/-- The product `fmul(K_TWO_PI, p)` of a phase in [0, 1): finite, at most 7, and near `2 * pi * p` (40_numerics.md R76: the errors of `K_TWO_PI`
and of the product). -/
theorem twoPi_mul_near (fmt : Fmt) {p : Word} (hp : inUnit fmt p = true) :
    isFinite fmt (fmul fmt (constBits fmt .twoPi) p) = true ∧ |valueOf fmt (fmul fmt (constBits fmt .twoPi) p)| ≤ 7 ∧
      |((valueOf fmt (fmul fmt (constBits fmt .twoPi) p) : ℚ) : ℝ) - 2 * Real.pi * ((valueOf fmt p : ℚ) : ℝ)| ≤
        (twoPiError fmt : ℝ) * (1 / 2) ^ fmt.precision := by
  have fp := isFinite_of_inUnit hp
  have hL := unit_pos fmt
  obtain ⟨np, p0, p1⟩ := inUnit_iff.1 hp
  have hB : Bounded fmt (fmul fmt (constBits fmt .twoPi) (constBits fmt .one)) (fmul fmt (constBits fmt .twoPi) p) := by
    apply Bounded.fmul (bounded_refl (isFinite_constBits _ _))
    · exact inSignedUnit_iff_bounded.1 (inSignedUnit_iff.2 ⟨np, by have : (0:Int) < 2 ^ lsbExp fmt := by positivity
                                                                   omega, by omega⟩)
    · cases fmt <;> decide +kernel
  have hff := hB.isFinite
  have hv0 : 0 ≤ valueOf fmt p := by rw [valueOf_eq]; exact div_nonneg (by exact_mod_cast p0) hL.le
  have hv1 : valueOf fmt p < 1 := by rw [valueOf_eq, div_lt_one hL]; exact_mod_cast p1
  have hk0 : 0 < valueOf fmt (constBits fmt .twoPi) := by cases fmt <;> simp only [valueOf_twoPi_binary32, valueOf_twoPi_binary64] <;> norm_num
  have hk7 : valueOf fmt (constBits fmt .twoPi) < 13 / 2 := by cases fmt <;> simp only [valueOf_twoPi_binary32, valueOf_twoPi_binary64] <;> norm_num
  have hkpi : |((valueOf fmt (constBits fmt .twoPi) : ℚ) : ℝ) - 2 * Real.pi| ≤ ((twoPiError fmt : ℝ) - 4) * (1 / 2) ^ fmt.precision := by
    have := Real.pi_gt_d20
    have := Real.pi_lt_d20
    cases fmt <;> simp only [valueOf_twoPi_binary32, valueOf_twoPi_binary64] <;> rw [abs_le] <;> constructor <;>
      norm_num [Fmt.precision, Fmt.fracBits, twoPiError] <;> linarith
  have hr : ∀ z, isFinite fmt z = true →
      |valueOf fmt (fmul fmt (constBits fmt .twoPi) p) - valueOf fmt (constBits fmt .twoPi) * valueOf fmt p| ≤
        |valueOf fmt z - valueOf fmt (constBits fmt .twoPi) * valueOf fmt p| := by
    have hround : RoundsTo fmt (valueOf fmt (constBits fmt .twoPi) * valueOf fmt p) (fmul fmt (constBits fmt .twoPi) p) := by
      have hf := isFinite_constBits fmt .twoPi
      unfold fmul
      simp only [isNaN_of_isFinite hf, isNaN_of_isFinite fp, isInf_of_isFinite hf, isInf_of_isFinite fp, Bool.or_self, Bool.false_eq_true, if_false]
      apply roundsTo_mkWord (Nat.two_pow_pos _)
      · rw [abs_mul, abs_valueOf, abs_valueOf]; push_cast; rw [div_mul_div_comm]
      · intro h0
        have hx0 : valueOf fmt (constBits fmt .twoPi) ≠ 0 := hk0.ne'
        have hy0 : valueOf fmt p ≠ 0 := right_ne_zero_of_mul h0
        have h1 := valueOf_neg_iff hx0
        have h2 := valueOf_neg_iff hy0
        have hb : ∀ u v : Bool, ((u != v) = true) ↔ ((u = true) ↔ ¬ (v = true)) := by decide
        rw [hb, ← h1, ← h2, mul_neg_iff]
        have := lt_trichotomy (valueOf fmt p) 0
        constructor
        · intro h; exfalso
          have : ¬ valueOf fmt (constBits fmt .twoPi) < 0 := not_lt.2 hk0.le
          have : ¬ valueOf fmt p < 0 := not_lt.2 hv0
          tauto
        · rintro (⟨_, h⟩ | ⟨h, _⟩) <;> linarith
    exact fun z hz => hround.nearest hff z hz
  set K := valueOf fmt (constBits fmt .twoPi)
  set v := valueOf fmt p
  set y := valueOf fmt (fmul fmt (constBits fmt .twoPi) p)
  have hy : |y - K * v| ≤ 4 * (1 / 2) ^ fmt.precision := by
    obtain ⟨G, hG⟩ : ∃ G, fmt.precision = G + 3 := ⟨fmt.precision - 3, by cases fmt <;> decide⟩
    have h2 : (0 : ℚ) < 2 ^ G := by positivity
    have hKv : 0 ≤ K * v := by positivity
    have hKv8 : K * v < 8 := by nlinarith
    have hfl1 : ((⌊K * v * 2 ^ G + 1 / 2⌋₊ : ℕ) : ℚ) ≤ K * v * 2 ^ G + 1 / 2 := Nat.floor_le (by positivity)
    have hfl2 : K * v * 2 ^ G + 1 / 2 < (⌊K * v * 2 ^ G + 1 / 2⌋₊ : ℕ) + 1 := Nat.lt_floor_add_one _
    generalize ⌊K * v * 2 ^ G + 1 / 2⌋₊ = a at *
    have ha : a ≤ 8 * 2 ^ G := by
      have h1 : K * v * 2 ^ G ≤ 8 * 2 ^ G := by nlinarith
      have : (a : ℚ) < 8 * 2 ^ G + 1 := by linarith
      exact Nat.lt_succ_iff.1 (by exact_mod_cast this)
    have hprec := precision_le fmt
    have hfb : 2 * 2 ^ fmt.fracBits = 8 * 2 ^ G := by
      have : 2 ^ fmt.precision = 8 * 2 ^ G := by rw [hG, pow_add]; ring
      rw [← this, Fmt.precision, pow_succ]; ring
    obtain ⟨z, -, hzf, hzv⟩ := exists_word fmt a G (by omega) (by omega) (by
      calc a * 2 ^ (lsbExp fmt - G) ≤ 8 * 2 ^ G * 2 ^ (lsbExp fmt - G) := Nat.mul_le_mul_right _ ha
        _ = 8 * 2 ^ lsbExp fmt := by rw [mul_assoc, ← pow_add]; congr 2; omega
        _ ≤ _ := by omega) false
    refine le_trans (hr z hzf) ?_
    rw [hzv, hG]
    have e4 : 4 * (1 / 2 : ℚ) ^ (G + 3) = 1 / 2 / 2 ^ G := by rw [pow_add, div_pow, one_pow]; ring
    simp only [Bool.false_eq_true, if_false, one_mul]
    have h3 : (a : ℚ) / 2 ^ G - K * v = (a - K * v * 2 ^ G) / 2 ^ G := by field_simp
    rw [e4, h3, abs_div, abs_of_pos h2, div_le_div_iff_of_pos_right h2, abs_le]
    constructor <;> linarith
  have hyR : |((y : ℚ) : ℝ) - (K : ℝ) * (v : ℝ)| ≤ 4 * (1 / 2) ^ fmt.precision := by
    have := (Rat.cast_le (K := ℝ)).2 hy
    push_cast at this
    exact this
  have hvR0 : (0 : ℝ) ≤ (v : ℝ) := by exact_mod_cast hv0
  have hvR1 : (v : ℝ) < 1 := by exact_mod_cast hv1
  refine ⟨hff, ?_, ?_⟩
  · have h8 : 4 * (1 / 2 : ℚ) ^ fmt.precision ≤ 1 / 2 := by cases fmt <;> norm_num [Fmt.precision, Fmt.fracBits]
    have hKv : 0 ≤ K * v := by positivity
    have hKv7 : K * v ≤ 13 / 2 := by nlinarith
    obtain ⟨a1, a2⟩ := abs_le.1 hy
    rw [abs_le]; constructor <;> linarith
  · have e : ((y : ℚ) : ℝ) - 2 * Real.pi * (v : ℝ) = (((y : ℚ) : ℝ) - (K : ℝ) * (v : ℝ)) + ((K : ℝ) - 2 * Real.pi) * (v : ℝ) := by ring
    rw [e]
    refine le_trans (abs_add_le _ _) ?_
    have : |((K : ℝ) - 2 * Real.pi) * (v : ℝ)| ≤ |(K : ℝ) - 2 * Real.pi| := by
      rw [abs_mul, abs_of_nonneg hvR0]
      nlinarith [abs_nonneg ((K : ℝ) - 2 * Real.pi)]
    linarith

/-- The reference unit is within a last place of the real sine of its operand. -/
theorem referenceSine_near (fmt : Fmt) {x : Word} (hx : isFinite fmt x = true) (h7 : |valueOf fmt x| ≤ 7) :
    |((valueOf fmt (referenceSine fmt x) : ℚ) : ℝ) - Real.sin ((valueOf fmt x : ℚ) : ℝ)| ≤ (1 / 2) ^ fmt.precision := by
  unfold referenceSine
  simp only [isNaN_of_isFinite hx, isInf_of_isFinite hx, Bool.or_self, Bool.false_eq_true, if_false, if_pos h7]
  have h1 := (unitWord_spec fmt (sineSeries 64 (valueOf fmt x))).2.2 _ (Real.abs_sin_le_one ((valueOf fmt x : ℚ) : ℝ))
  have h2 : |((sineSeries 64 (valueOf fmt x) : ℚ) : ℝ) - Real.sin ((valueOf fmt x : ℚ) : ℝ)| ≤ (1 / 2) ^ 60 :=
    le_trans (sineSeries_near _ h7 64 (by norm_num)) (by norm_num [Nat.factorial])
  have h3 : (1 / 2 : ℝ) ^ (fmt.precision + 1) + (1 / 2) ^ 60 ≤ (1 / 2) ^ fmt.precision := by
    cases fmt <;> norm_num [Fmt.precision, Fmt.fracBits]
  linarith

/-- The reference unit meets R76 at the tolerance of R7, so at every wider one. -/
theorem referenceSine_properties (fmt : Fmt) {tol : Rat} (htol : fmt.sinTol ≤ tol) : SinProperties fmt tol (referenceSine fmt) := by
  have zw : inSignedUnit fmt (zeroWord fmt false) = true := by
    rw [inSignedUnit_iff, sunits_zeroWord]; simp
  have hv : ∀ x, valueOf fmt (toWidth fmt x) = valueOf fmt x := fun x => by simp [valueOf, sunits]
  have hn : ∀ x, (isNaN fmt (toWidth fmt x) || isInf fmt (toWidth fmt x)) = (isNaN fmt x || isInf fmt x) := fun x => by simp [isNaN, isInf]
  refine SinProperties.mono ⟨fun x => ?_, fun x => ?_, fun x hx => ?_, ?_, fun p hp => ?_, fun x hx => ?_⟩ htol
  · unfold referenceSine
    split_ifs
    · simp
    · exact (unitWord_spec fmt _).1
    · simp
  · unfold referenceSine; rw [hv, hn]
  · unfold referenceSine
    simp only [isNaN_of_isFinite hx, isInf_of_isFinite hx, Bool.or_self, Bool.false_eq_true, if_false]
    split_ifs
    · exact (unitWord_spec fmt _).2.1
    · exact zw
  · have h0 : valueOf fmt (zeroWord fmt false) = 0 := by rw [valueOf_eq, sunits_zeroWord]; simp
    have hs : sineSeries 64 0 = 0 := by
      unfold sineSeries
      refine Finset.sum_eq_zero fun m _ => ?_
      cases m with
      | zero => simp [sineCoeff]
      | succ m => simp
    have hi : isInf fmt (zeroWord fmt false) = false := by cases fmt <;> decide
    unfold referenceSine
    rw [h0, hs]
    simp only [hi, isNaN_zeroWord, Bool.or_self, Bool.false_eq_true, if_false, abs_zero]
    rw [if_pos (by norm_num)]
    unfold unitWord
    norm_num [roundMag_zero, zeroWord]
  · obtain ⟨hf, h7, hnear⟩ := twoPi_mul_near fmt hp
    have h2 := referenceSine_near fmt hf h7
    have h3 := le_trans (Real.abs_sin_sub_sin_le ((valueOf fmt (fmul fmt (constBits fmt .twoPi) p) : ℚ) : ℝ)
      (2 * Real.pi * ((valueOf fmt p : ℚ) : ℝ))) hnear
    have h4 : (1 / 2 : ℝ) ^ fmt.precision + (twoPiError fmt : ℝ) * (1 / 2) ^ fmt.precision ≤ ((fmt.sinTol : ℚ) : ℝ) := by
      cases fmt <;> norm_num [Fmt.precision, Fmt.fracBits, Fmt.sinTol, twoPiError]
    calc _ ≤ _ := abs_sub_le _ (Real.sin ((valueOf fmt (fmul fmt (constBits fmt .twoPi) p) : ℚ) : ℝ)) _
      _ ≤ _ := by linarith
  · unfold referenceSine; simp only [hx, if_true]

end Sys2Proof.Machine
end

