-- ==== Sys2Proof/Laws/SineApprox.lean ====
section
/-! SUPPORT. Whether a word is within a rational tolerance of `sin(2 * pi * v)` is settled by rational arithmetic: at the quarters of a cycle
the sine is known, elsewhere it is irrational (Niven's theorem), so a good enough approximation settles it. -/

namespace Sys2Proof.Machine

open Finset Filter Topology

theorem valueOf_of_inUnit {fmt : Fmt} {p : Word} (hp : inUnit fmt p = true) : 0 ≤ valueOf fmt p ∧ valueOf fmt p < 1 := by
  obtain ⟨-, p0, p1⟩ := inUnit_iff.1 hp
  have hL := unit_pos fmt
  rw [valueOf_eq, div_lt_one hL]
  exact ⟨div_nonneg (by exact_mod_cast p0) hL.le, by exact_mod_cast p1⟩

/-- Every value of the format is dyadic. -/
theorem valueOf_mul_unit (fmt : Fmt) (p : Word) : valueOf fmt p * 2 ^ lsbExp fmt = sunits fmt p := by
  rw [valueOf_eq, div_mul_cancel₀ _ (unit_pos fmt).ne']

theorem piBelow_bounds (k : ℕ) : ((piBelow k : ℚ) : ℝ) ≤ Real.pi ∧ Real.pi - ((piBelow k : ℚ) : ℝ) ≤ 4 / (4 * k + 1) := by
  have hl : Tendsto (fun n ↦ ∑ i ∈ range n, (-1 : ℝ) ^ i * (1 / (2 * i + 1))) atTop (𝓝 (Real.pi / 4)) := by
    simpa only [mul_one_div] using Real.tendsto_sum_pi_div_four
  have ha : Antitone fun i : ℕ => (1 : ℝ) / (2 * i + 1) := by
    intro a b hab
    have : (a : ℝ) ≤ b := by exact_mod_cast hab
    exact one_div_le_one_div_of_le (by positivity) (by linarith)
  have h1 := ha.alternating_series_le_tendsto hl k
  have h2 := ha.tendsto_le_alternating_series hl k
  have e : ((piBelow k : ℚ) : ℝ) = 4 * ∑ i ∈ range (2 * k), (-1 : ℝ) ^ i * (1 / (2 * i + 1)) := by
    unfold piBelow; push_cast; rfl
  rw [sum_range_succ, pow_mul, neg_one_sq, one_pow, one_mul] at h2
  rw [e]
  constructor
  · linarith
  · have : (1 : ℝ) / (2 * ((2 * k : ℕ) : ℝ) + 1) = 1 / (4 * k + 1) := by push_cast; congr 1; ring
    rw [this] at h2
    have : (4 : ℝ) / (4 * k + 1) = 4 * (1 / (4 * k + 1)) := by ring
    rw [this]; linarith

theorem sineApprox_near (k : ℕ) {v : ℚ} (h0 : 0 ≤ v) (h1 : v < 1) :
    |((sineApprox k v : ℚ) : ℝ) - Real.sin (2 * Real.pi * (v : ℝ))| ≤ ((sineError k : ℚ) : ℝ) := by
  obtain ⟨p1, p2⟩ := piBelow_bounds k
  have hpi := Real.pi_lt_d2
  have hpi3 := Real.pi_gt_three
  have h0R : (0 : ℝ) ≤ v := by exact_mod_cast h0
  have h1R : (v : ℝ) < 1 := by exact_mod_cast h1
  have hk : (4 : ℝ) / (4 * k + 1) ≤ 4 := by
    rw [div_le_iff₀ (by positivity)]; have : (0 : ℝ) ≤ k := by positivity
    linarith
  have hq : |2 * piBelow k * v| ≤ 7 := by
    have : |((2 * piBelow k * v : ℚ) : ℝ)| ≤ 7 := by
      push_cast; rw [abs_le]; constructor <;> nlinarith
    exact_mod_cast this
  have a := sineSeries_near _ hq (k + 13) (by omega)
  have b := Real.abs_sin_sub_sin_le (((2 * piBelow k * v : ℚ) : ℚ) : ℝ) (2 * Real.pi * (v : ℝ))
  have c : |((2 * piBelow k * v : ℚ) : ℝ) - 2 * Real.pi * (v : ℝ)| ≤ 8 / (4 * k + 1) := by
    have e : (8 : ℝ) / (4 * k + 1) = 2 * (4 / (4 * k + 1)) := by ring
    push_cast; rw [e, abs_le]; constructor <;> nlinarith
  have d := abs_sub_le ((sineApprox k v : ℚ) : ℝ) (Real.sin ((2 * piBelow k * v : ℚ) : ℝ)) (Real.sin (2 * Real.pi * (v : ℝ)))
  have e : ((sineError k : ℚ) : ℝ) = 7 ^ (k + 13) / ((k + 13).factorial : ℝ) * 2 + 8 / (4 * k + 1) := by
    unfold sineError; push_cast; rfl
  rw [e]
  unfold sineApprox at *
  linarith

theorem sineError_tendsto : Tendsto (fun k => ((sineError k : ℚ) : ℝ)) atTop (𝓝 0) := by
  have a : Tendsto (fun k : ℕ => (7 : ℝ) ^ (k + 13) / ((k + 13).factorial : ℝ) * 2) atTop (𝓝 0) := by
    simpa using ((tendsto_add_atTop_iff_nat 13).2 (FloorSemiring.tendsto_pow_div_factorial_atTop (7 : ℝ))).mul_const 2
  have b : Tendsto (fun k : ℕ => (8 : ℝ) / (4 * k + 1)) atTop (𝓝 0) :=
    (tendsto_atTop_add_const_right _ 1 (tendsto_natCast_atTop_atTop.const_mul_atTop (by norm_num : (0 : ℝ) < 4))).const_div_atTop 8
  refine (add_zero (0 : ℝ) ▸ a.add b).congr fun k => ?_
  unfold sineError; push_cast; rfl

theorem quarterSine_eq {v s : ℚ} (h : quarterSine v = some s) : Real.sin (2 * Real.pi * (v : ℝ)) = (s : ℝ) := by
  unfold quarterSine at h
  split_ifs at h with h1 h2 h3 <;> simp only [Option.some.injEq] at h <;> subst h
  · rcases h1 with rfl | rfl
    · simp
    · push_cast; rw [show 2 * Real.pi * (1 / 2) = Real.pi by ring, Real.sin_pi]
  · subst h2; push_cast; rw [show 2 * Real.pi * (1 / 4) = Real.pi / 2 by ring, Real.sin_pi_div_two]
  · subst h3; push_cast
    rw [show 2 * Real.pi * (3 / 4) = Real.pi / 2 + Real.pi by ring, Real.sin_add_pi, Real.sin_pi_div_two]

/-- Niven: at a dyadic phase that is no quarter of a cycle the sine is irrational. -/
theorem irrational_sine {v : ℚ} (h0 : 0 ≤ v) (h1 : v < 1) {n : ℕ} {m : ℤ} (hd : v * 2 ^ n = m) (hq : quarterSine v = none) :
    Irrational (Real.sin (2 * Real.pi * (v : ℝ))) := by
  have e : Real.sin (2 * Real.pi * (v : ℝ)) = Real.cos (((2 * v - 1 / 2 : ℚ) : ℝ) * Real.pi) := by
    rw [← Real.cos_sub_pi_div_two]; congr 1; push_cast; ring
  rw [e]
  apply irrational_cos_rat_mul_pi
  by_contra hle
  set r : ℚ := 2 * v - 1 / 2 with hr
  have hdvd : (r.den : ℤ) ∣ 2 ^ (n + 1) := by
    have : r = ((4 * m - 2 ^ n : ℤ) : ℚ) / ((2 ^ (n + 1) : ℤ) : ℚ) := by
      rw [hr, eq_div_iff (by positivity)]; push_cast; rw [← hd, pow_succ]; ring
    rw [this, ← Rat.divInt_eq_div]; exact Rat.den_dvd _ _
  have hden : r.den = 1 ∨ r.den = 2 := by
    have hp := r.den_pos
    have h3 : r.den ≠ 3 := by
      intro h
      rw [h] at hdvd
      have : (3 : ℤ) ∣ 2 := Int.Prime.dvd_pow' (by norm_num) hdvd
      omega
    omega
  have hz : ∃ z : ℤ, 4 * v = z := by
    have hn := Rat.num_div_den r
    rcases hden with h | h <;> rw [h] at hn <;> push_cast at hn
    · exact ⟨2 * r.num + 1, by push_cast; linarith⟩
    · exact ⟨r.num + 1, by push_cast; linarith⟩
  obtain ⟨z, hz⟩ := hz
  have z0 : 0 ≤ z := by have : (0 : ℚ) ≤ z := by linarith
                        exact_mod_cast this
  have z4 : z < 4 := by have : (z : ℚ) < 4 := by linarith
                        exact_mod_cast this
  unfold quarterSine at hq
  split_ifs at hq with q1 q2 q3
  push Not at q1
  interval_cases z
  · exact q1.1 (by push_cast at hz; linarith)
  · exact q2 (by push_cast at hz; linarith)
  · exact q1.2 (by push_cast at hz; linarith)
  · exact q3 (by push_cast at hz; linarith)

/-- At such a phase some approximation is near enough to settle whether `w` is within `tol` of the sine. -/
theorem exists_sineError_lt (tol w : ℚ) {v : ℚ} (h0 : 0 ≤ v) (h1 : v < 1) {n : ℕ} {m : ℤ} (hd : v * 2 ^ n = m)
    (hq : quarterSine v = none) : ∃ k, sineError k < |(|sineApprox k v - w| - tol)| := by
  set s := Real.sin (2 * Real.pi * (v : ℝ)) with hs
  have hi : Irrational s := irrational_sine h0 h1 hd hq
  have hne : |s - (w : ℝ)| - tol ≠ 0 := by
    intro h
    rcases abs_cases (s - (w : ℝ)) with ⟨h', -⟩ | ⟨h', -⟩ <;> rw [h'] at h
    · exact hi ⟨w + tol, by push_cast; linarith⟩
    · exact hi ⟨w - tol, by push_cast; linarith⟩
  have hg := abs_pos.2 hne
  obtain ⟨k, hk⟩ := (sineError_tendsto.eventually (gt_mem_nhds (half_pos hg))).exists
  refine ⟨k, ?_⟩
  have a := sineApprox_near k h0 h1
  rw [← hs] at a
  have b := abs_abs_sub_abs_le (((sineApprox k v : ℚ) : ℝ) - w) (s - w)
  rw [sub_sub_sub_cancel_right] at b
  have c := abs_sub_abs_le_abs_sub (|s - (w : ℝ)| - tol) (|((sineApprox k v : ℚ) : ℝ) - w| - tol)
  rw [sub_sub_sub_cancel_right, abs_sub_comm |s - (w : ℝ)| |((sineApprox k v : ℚ) : ℝ) - w|] at c
  have : ((sineError k : ℚ) : ℝ) < |(|((sineApprox k v : ℚ) : ℝ) - w| - tol)| := by linarith
  exact_mod_cast this

/-- What such an approximation says is so. -/
theorem within_iff_of_sineError_lt {tol w v : ℚ} (h0 : 0 ≤ v) (h1 : v < 1) {k : ℕ} (hk : sineError k < |(|sineApprox k v - w| - tol)|) :
    |sineApprox k v - w| ≤ tol ↔ |(w : ℝ) - Real.sin (2 * Real.pi * (v : ℝ))| ≤ (tol : ℝ) := by
  have a := sineApprox_near k h0 h1
  set s := Real.sin (2 * Real.pi * (v : ℝ)) with hs
  have b := abs_abs_sub_abs_le (((sineApprox k v : ℚ) : ℝ) - w) (s - w)
  rw [sub_sub_sub_cancel_right] at b
  have hkR : ((sineError k : ℚ) : ℝ) < |(|((sineApprox k v : ℚ) : ℝ) - w| - tol)| := by exact_mod_cast hk
  have e : |sineApprox k v - w| ≤ tol ↔ |((sineApprox k v : ℚ) : ℝ) - w| ≤ (tol : ℝ) := by exact_mod_cast Iff.rfl
  rw [e, abs_sub_comm (w : ℝ)]
  obtain ⟨b1, b2⟩ := abs_le.1 b
  rcases abs_cases (|((sineApprox k v : ℚ) : ℝ) - w| - tol) with ⟨h', -⟩ | ⟨h', -⟩ <;> rw [h'] at hkR <;> constructor <;> intro <;> linarith

end Sys2Proof.Machine
end

