-- ==== Sys2Proof/Machine/SineSearch.lean ====
section
/-! DEFINITION. For each tolerance one function that meets 40_numerics.md R76 at it wherever any function does, found by search: only to show that
there is one, so that the free value `Config.sineOf` can be declared. Nothing of the machine evaluates it. -/

namespace Sys2Proof.Machine

/-- At a phase that is no quarter of a cycle some approximation settles whether `w` is within `tol` of the sine. -/
theorem exists_settling (fmt : Fmt) (tol : Rat) (w : Word) {p : Word} (hp : inUnit fmt p = true) (hq : quarterSine (valueOf fmt p) = none) :
    ∃ k, sineError k < |(|sineApprox k (valueOf fmt p) - valueOf fmt w| - tol)| :=
  exists_sineError_lt tol (valueOf fmt w) (valueOf_of_inUnit hp).1 (valueOf_of_inUnit hp).2 (valueOf_mul_unit fmt p) hq

/-- Whether the value of `w` is within `tol` of `sin(2 * pi * p)`, for a phase in [0, 1). -/
def sineWithin (fmt : Fmt) (tol : Rat) (p w : Word) (hp : inUnit fmt p = true) : Bool :=
  match hq : quarterSine (valueOf fmt p) with
  | some s => decide (|valueOf fmt w - s| ≤ tol)
  | none => decide (|sineApprox (Nat.find (exists_settling fmt tol w hp hq)) (valueOf fmt p) - valueOf fmt w| ≤ tol)

/-- Every word. -/
def allWords : List Word := (List.range (2 ^ 64)).map (BitVec.ofNat 64)

/-- Whether a sine unit of tolerance `tol` may answer `w` at the operand `x`: `w` is in [-1, 1] and near the sine of every phase that gives this
operand. -/
def meetsAt (fmt : Fmt) (tol : Rat) (x w : Word) : Bool :=
  fits fmt w && inSignedUnit fmt w && allWords.all fun p =>
    if hp : inUnit fmt p = true then fmul fmt (constBits fmt .twoPi) p != x || sineWithin fmt tol p w hp else true

/-- The first word that may be answered, and the reference unit's where there is none. -/
def sineMeeting (fmt : Fmt) (tol : Rat) (x : Word) : Word :=
  if isNaN fmt x || isInf fmt x then canonNaN fmt
  else if toWidth fmt x = zeroWord fmt false then zeroWord fmt false
  else
    match allWords.find? (meetsAt fmt tol (toWidth fmt x)) with
    | some w => w
    | none => referenceSine fmt x

end Sys2Proof.Machine
end

