-- ==== Sys2Proof/Laws/SineSearch.lean ====
section
/-! SUPPORT. The function found by search meets 40_numerics.md R76 at every tolerance that some function meets. -/

namespace Sys2Proof.Machine

theorem mem_allWords (w : Word) : w ∈ allWords :=
  List.mem_map.2 ⟨w.toNat, List.mem_range.2 w.isLt, by simp⟩

/-- The distance that `SIN_APPROX` speaks of. -/
theorem sineWithin_iff {fmt : Fmt} {tol : Rat} {p w : Word} (hp : inUnit fmt p = true) :
    sineWithin fmt tol p w hp = true ↔
      |((valueOf fmt w : ℚ) : ℝ) - Real.sin (2 * Real.pi * ((valueOf fmt p : ℚ) : ℝ))| ≤ ((tol : ℚ) : ℝ) := by
  unfold sineWithin
  split
  · next s hq => rw [quarterSine_eq hq, decide_eq_true_eq]; exact_mod_cast Iff.rfl
  · next hq =>
    rw [decide_eq_true_eq]
    exact within_iff_of_sineError_lt (valueOf_of_inUnit hp).1 (valueOf_of_inUnit hp).2 (Nat.find_spec (exists_settling fmt tol w hp hq))

theorem meetsAt_iff {fmt : Fmt} {tol : Rat} {x w : Word} :
    meetsAt fmt tol x w = true ↔ fits fmt w = true ∧ inSignedUnit fmt w = true ∧
      ∀ p, inUnit fmt p = true → fmul fmt (constBits fmt .twoPi) p = x →
        |((valueOf fmt w : ℚ) : ℝ) - Real.sin (2 * Real.pi * ((valueOf fmt p : ℚ) : ℝ))| ≤ ((tol : ℚ) : ℝ) := by
  unfold meetsAt
  rw [Bool.and_eq_true, Bool.and_eq_true, and_assoc, List.all_eq_true]
  refine and_congr Iff.rfl (and_congr Iff.rfl ⟨fun h p hp hx => ?_, fun h p _ => ?_⟩)
  · have := h p (mem_allWords p)
    rw [dif_pos hp, Bool.or_eq_true, bne_iff_ne, sineWithin_iff] at this
    exact this.resolve_left (not_not_intro hx)
  · split
    · next hp =>
      rw [Bool.or_eq_true, bne_iff_ne, sineWithin_iff]
      exact or_iff_not_imp_left.2 fun hx => h p hp (not_not.1 hx)
    · rfl

/-- What the function found can answer. -/
theorem sineMeeting_cases (fmt : Fmt) (tol : Rat) {x : Word} (hx : isFinite fmt x = true) :
    (toWidth fmt x = zeroWord fmt false ∧ sineMeeting fmt tol x = zeroWord fmt false) ∨
    meetsAt fmt tol (toWidth fmt x) (sineMeeting fmt tol x) = true ∨
    ((∀ w, meetsAt fmt tol (toWidth fmt x) w = false) ∧ sineMeeting fmt tol x = referenceSine fmt x) := by
  unfold sineMeeting
  simp only [isNaN_of_isFinite hx, isInf_of_isFinite hx, Bool.or_self, Bool.false_eq_true, if_false]
  split
  · next h => exact .inl ⟨h, rfl⟩
  · split
    · next w h => exact .inr (.inl (List.find?_some h))
    · next h => exact .inr (.inr ⟨fun w => Bool.not_eq_true _ ▸ List.find?_eq_none.1 h w (mem_allWords w), rfl⟩)

/-- The properties of R76 but `SIN_APPROX`, and that one for each tolerance that holds where a word was found and where none was. -/
theorem sineMeeting_properties {fmt : Fmt} {tol tol' : Rat}
    (hmeet : ∀ x w, meetsAt fmt tol x w = true → meetsAt fmt tol' x w = true) (h0 : meetsAt fmt tol' (zeroWord fmt false) (zeroWord fmt false) = true)
    (hnone : ∀ x, isFinite fmt x = true → (∀ w, meetsAt fmt tol (toWidth fmt x) w = false) →
      meetsAt fmt tol' (toWidth fmt x) (referenceSine fmt x) = true) :
    SinProperties fmt tol' (sineMeeting fmt tol) := by
  have hm : ∀ x, isFinite fmt x = true → meetsAt fmt tol' (toWidth fmt x) (sineMeeting fmt tol x) = true := fun x hx => by
    rcases sineMeeting_cases fmt tol hx with ⟨h, h'⟩ | h | ⟨h, h'⟩
    · rw [h, h']; exact h0
    · exact hmeet _ _ h
    · rw [h']; exact hnone x hx h
  have hnan : ∀ x, (isNaN fmt x || isInf fmt x) = true → sineMeeting fmt tol x = canonNaN fmt := fun x hx => by
    unfold sineMeeting; rw [if_pos hx]
  refine ⟨fun x => ?_, fun x => ?_, fun x hx => (meetsAt_iff.1 (hm x hx)).2.1, ?_, fun p hp => ?_, hnan⟩
  · by_cases hx : isFinite fmt x = true
    · exact (meetsAt_iff.1 (hm x hx)).1
    · rw [hnan x (by simp only [isFinite, isNaN, isInf, Bool.or_eq_true, decide_eq_true_eq] at hx ⊢; omega)]; simp
  · have e := (referenceSine_properties fmt le_rfl).det x
    have hv : (isNaN fmt (toWidth fmt x) || isInf fmt (toWidth fmt x)) = (isNaN fmt x || isInf fmt x) := by simp [isNaN, isInf]
    unfold sineMeeting
    rw [hv, toWidth_of_fits (fits_toWidth fmt x), ← e]
  · have : toWidth fmt (zeroWord fmt false) = zeroWord fmt false := by cases fmt <;> decide
    have hi : isInf fmt (zeroWord fmt false) = false := by cases fmt <;> decide
    unfold sineMeeting
    simp only [hi, isNaN_zeroWord, Bool.or_self, Bool.false_eq_true, if_false, this, if_true]
  · have hf := (twoPi_mul_near fmt hp).1
    have hw : toWidth fmt (fmul fmt (constBits fmt .twoPi) p) = fmul fmt (constBits fmt .twoPi) p := toWidth_of_fits (fits_fmul _ _ _)
    exact (meetsAt_iff.1 (hm _ hf)).2.2 p hp hw.symm

/-- A unit that has the properties at a tolerance may answer what it answers. -/
theorem SinProperties.meetsAt {fmt : Fmt} {tol : Rat} {sin : Word → Word} (h : SinProperties fmt tol sin) {x : Word}
    (hx : isFinite fmt x = true) : meetsAt fmt tol x (sin x) = true :=
  meetsAt_iff.2 ⟨h.total x, h.range x hx, fun p hp e => e ▸ h.approx p hp⟩

/-- There is a sine unit for every tolerance of the parameter: `AdmittedSine` shuts out none. -/
theorem sineMeeting_admitted (fmt : Fmt) (tol : Rat) : AdmittedSine fmt tol (sineMeeting fmt tol) := by
  have hz : isFinite fmt (zeroWord fmt false) = true := by cases fmt <;> decide
  have hfin : ∀ x, isFinite fmt x = true → isFinite fmt (toWidth fmt x) = true := fun x hx => by simpa [isFinite] using hx
  by_cases h : ∃ f, SinProperties fmt tol f
  · obtain ⟨f, hf⟩ := h
    refine .inl (sineMeeting_properties (fun _ _ h => h) (by simpa only [hf.zero] using hf.meetsAt hz) fun x hx hn => ?_)
    have := hf.meetsAt (hfin x hx)
    rw [hn] at this
    exact absurd this (by simp)
  · have hlt : tol ≤ fmt.sinTol := by
      by_contra hle
      exact h ⟨_, referenceSine_properties fmt (le_of_lt (not_le.1 hle))⟩
    have hR := referenceSine_properties fmt le_rfl
    refine .inr ⟨not_exists.1 h, sineMeeting_properties (fun x w hw => ?_) (by simpa only [hR.zero] using hR.meetsAt hz) fun x hx _ => ?_⟩
    · obtain ⟨a, b, c⟩ := meetsAt_iff.1 hw
      exact meetsAt_iff.2 ⟨a, b, fun p hp e => le_trans (c p hp e) (by exact_mod_cast hlt)⟩
    · rw [hR.det]; exact hR.meetsAt (hfin x hx)

end Sys2Proof.Machine
end

