-- ==== Sys2Proof/Machine/Sine.lean ====
section
/-! DEFINITION. The sine primitive of the machine, a free value with the properties of 40_numerics.md R76, and the number system of the
hardware. -/

namespace Sys2Proof.Machine

/-- The tolerance of the sine unit: the parameter `SIN_TOL` (00_scope.md R7), whose default is the value for this hardware. -/
def sinTolOf (fmt : Fmt) : Option Rat → Rat
  | none => fmt.sinTol
  | some tol => tol

/-- The sine primitive of a format and a tolerance (R76): the free value. -/
def sineUnit (fmt : Fmt) (tol : Option Rat) : Subtype (AdmittedSine fmt (sinTolOf fmt tol)) :=
  @Config.sineOf (AdmittedSine fmt (sinTolOf fmt tol)) ⟨⟨sineMeeting fmt (sinTolOf fmt tol), sineMeeting_admitted fmt _⟩⟩

/-- The number system of this hardware in a format, with the tolerance of its sine unit: `IEEE`, its sine primitive the free value. -/
def hw (fmt : Fmt) (tol : Option Rat) : NumSys Word := ieee fmt (sineUnit fmt tol).1

/-- The sine unit has the five properties at every tolerance, smaller or larger than R7's, that some function meets. -/
theorem sineUnit_properties {fmt : Fmt} {tol : Option Rat} (h : ∃ f, SinProperties fmt (sinTolOf fmt tol) f) :
    SinProperties fmt (sinTolOf fmt tol) (sineUnit fmt tol).1 :=
  (sineUnit fmt tol).2.resolve_right fun hn => h.elim hn.1

/-- The tolerance of this hardware is such a one. -/
theorem sineUnit_default (fmt : Fmt) : SinProperties fmt fmt.sinTol (sineUnit fmt none).1 :=
  sineUnit_properties (tol := none) ⟨_, referenceSine_properties fmt le_rfl⟩

/-- Whatever the parameter, the unit has the five properties at some tolerance. -/
theorem sineUnit_some (fmt : Fmt) (tol : Option Rat) : ∃ t, SinProperties fmt t (sineUnit fmt tol).1 :=
  (sineUnit fmt tol).2.elim (fun h => ⟨_, h⟩) fun h => ⟨_, h.2⟩

end Sys2Proof.Machine
end

