-- ==== Sys2Proof/Machine/Ops.lean ====
section
/-! DEFINITION. The shared operations: the response port, the random port, the fault action, the hardware reset, and the
loading of a run. The block has no memory (20_memory.md R31), no trap entry and no return from one (60_exceptions.md R153, R154):
the fault action is the whole of taking an exception. -/

namespace Sys2Proof.Machine

/-- The number system the block computes in: the hardware's, at the parameters the state carries. -/
def State.num (s : State) : NumSys Word := hw s.fmt s.sinTol

/-- `bits(v)` in a response: the low `W` bits (00_scope.md R10). -/
def bitsOf (fmt : Fmt) (v : Word) : Nat := v.toNat % 2 ^ fmt.width

/-- The response word: `kind` in bits `W+1:W`, `data` below (30_encoding.md R46). -/
def rspWord (fmt : Fmt) (r : Response Word) : RspWord :=
  match r with
  | .ack => 0
  | .sample v => BitVec.ofNat 66 (1 * 2 ^ fmt.width + bitsOf fmt v)
  | .err c => BitVec.ofNat 66 (2 * 2 ^ fmt.width + faultNumber c)

/-- What a host reads in a response word (R46): none for a word the block never gives (`kind` 3, or data the kind does not allow). -/
def readRsp (fmt : Fmt) (w : RspWord) : Option (Response Word) :=
  let kind := w.toNat / 2 ^ fmt.width
  let data := w.toNat % 2 ^ fmt.width
  if kind = 0 then if data = 0 then some .ack else none
  else if kind = 1 then some (.sample (BitVec.ofNat 64 data))
  else if kind = 2 then if data = 1 then some (.err .ill) else if data = 2 then some (.err .unc) else none
  else none

/-- `respond` (00_scope.md R10, 20_memory.md R37): one response word, after all state writes. -/
def respond (r : Response Word) (s : State) : State := { s with rsp := s.rsp ++ [rspWord s.fmt r] }

/-- `raise Fault(code)` (60_exceptions.md R147): the sticky bit, the `ERR` response, nothing else. -/
def raiseFault (c : FaultCode) (s : State) : State := respond (.err c) (setSticky c s)

/-- A command that needs a constructed oscillator (10_state.md R18, 60_exceptions.md R149): the fault `UNC` while `S.V = 0`, otherwise
`k` of the oscillator's elements. -/
def withOsc (s : State) (k : Osc Word → State) : Result :=
  match s.osc with
  | none => .next (raiseFault .unc s)
  | some o => .next (k o)

/-- `RndTake()` in the noise sample command `i` (20_memory.md R38): takes the next value of the source, `W` bits of it, and goes on with
`k`; with no value present the command stays in flight, with nothing written and no response (60_exceptions.md R162). -/
def withRandom (i : Instr) (s : State) (k : Word → State → State) : Result :=
  match s.rnd with
  | [] => .next { s with inflight := some i }
  | u :: rest => .next (k (toWidth s.fmt u) { s with rnd := rest })

/-- Whether a command takes a random value (opcode table, column `takes_random_value`; 20_memory.md R32). -/
def takesRandom : Instr → Bool
  | .oscNew _ _ _ _ => false
  | .oscSetf _ => false
  | .oscSetp _ => false
  | .oscRst => false
  | .oscNext => false
  | .oscBlep _ => false
  | .whiteNext => true
  | .pinkNew => false
  | .pinkNext => true
  | .brownNew => false
  | .brownNext => true

/-- The pin `rst` (70_reset_and_hazards.md R163, 10_state.md R29): every element of the block at its reset value, no command in flight.
What stands outside the block is untouched: the parameters, the host's further events, the random values not yet taken, the
responses already given. -/
def hardReset (s : State) : State :=
  { s with osc := none, taps := tapsOf 0, prev := 0, ill := false, unc := false, inflight := none }

/-- Whether a word is a command that takes a random value. -/
def wordTakesRandom (fmt : Fmt) (w : CmdWord) : Bool :=
  match decode fmt w with
  | .command i => takesRandom i
  | .reserved _ => false

/-- The random values left when `rst` abandons the command of word `w` in flight (R165: it "takes no random value it has not
already taken"): one fewer if the command is one that takes a value and `took` says that it had. -/
def rndAfterAbandon (fmt : Fmt) (w : CmdWord) (took : Bool) (rnd : List Word) : List Word :=
  if wordTakesRandom fmt w && took then rnd.tail else rnd

/-- A run of a list of command words and a list of random values from the reset state (70_reset_and_hazards.md R178). -/
def loadRun (fmt : Fmt) (words : List CmdWord) (draws : List Word) : State :=
  { State.resetAt fmt with host := words.map HostEvent.command, rnd := draws }

end Sys2Proof.Machine
end

