-- ==== Sys2Proof/Machine/Noise.lean ====
section
/-! DEFINITION. The meanings of the five noise commands (44_noise.md R125 to R140). None depends on `S.V` (R140). -/

namespace Sys2Proof.Machine

/-- `WHITE.NEXT` (R127). -/
def execWhiteNext (s : State) : Result :=
  withRandom .whiteNext s fun u s => respond (.sample (white s.num u)) s

/-- `PINK.NEW` (R129). -/
def execPinkNew (s : State) : Result :=
  .next (respond .ack { s with taps := tapsOf (s.num.k .zero) })

/-- `PINK.NEXT` (R130): one draw, all six taps from their own old values, the sample from the new ones. -/
def execPinkNext (s : State) : Result :=
  withRandom .pinkNext s fun u s =>
    let w := white s.num u
    let b := pinkTaps s.num s.taps w
    respond (.sample (pinkOut s.num b w)) { s with taps := b }

/-- `BROWN.NEW` (R135). -/
def execBrownNew (s : State) : Result :=
  .next (respond .ack { s with prev := s.num.k .zero })

/-- `BROWN.NEXT` (R136): stored is the integrator before the scaling. -/
def execBrownNext (s : State) : Result :=
  withRandom .brownNext s fun u s =>
    let p := brownPrev s.num s.prev (white s.num u)
    respond (.sample (brownOut s.num p)) { s with prev := p }

end Sys2Proof.Machine
end

