-- ==== Sys2Proof/Machine/Oscillator.lean ====
section
/-! DEFINITION. The meanings of the six oscillator commands (41_oscillator_control.md R85 to R93, 43_polyblep.md R116). -/

namespace Sys2Proof.Machine

/-- `OSC.NEW wf, mode, sr, hz` (R85): legal while `S.V = 0`; replaces all six elements. -/
def execOscNew (wf : Waveform) (bl : Mode) (sr hz : Word) (s : State) : Result :=
  .next (respond .ack { s with osc := some (newOsc s.num wf bl sr hz) })

/-- `OSC.SETF hz` (R87): `S.INC <- fdiv(hz, S.SR)`. -/
def execOscSetf (hz : Word) (s : State) : Result :=
  withOsc s fun o => respond .ack { s with osc := some { o with inc := s.num.div hz o.sr } }

/-- `OSC.SETP p` (R88): `S.PHASE <- frac(p)`. -/
def execOscSetp (p : Word) (s : State) : Result :=
  withOsc s fun o => respond .ack { s with osc := some { o with phase := frac s.num p } }

/-- `OSC.RST` (R89): `S.PHASE <- +0.0`. Not the hardware reset (R167). -/
def execOscRst (s : State) : Result :=
  withOsc s fun o => respond .ack { s with osc := some { o with phase := s.num.k .zero } }

/-- `OSC.NEXT` (R90): the phase is advanced first and the sample is computed from the new phase. -/
def execOscNext (s : State) : Result :=
  withOsc s fun o =>
    let o' := advance s.num o
    respond (.sample (oscSample s.num o')) { s with osc := some o' }

/-- `OSC.BLEP p` (R116): writes nothing; the width is `S.INC`. -/
def execOscBlep (p : Word) (s : State) : Result :=
  withOsc s fun o => respond (.sample (blep s.num p o.inc)) s

end Sys2Proof.Machine
end

