-- ==== Sys2Proof/Machine/Dispatch.lean ====
section
/-! DEFINITION. One arm per constructor of Instr. -/

namespace Sys2Proof.Machine

def exec (i : Instr) (s : State) : Host.Outcome State Fault Refusal :=
  match i with
  | .oscNew wf bl sr hz => Sys2Proof.Machine.execOscNew wf bl sr hz s
  | .oscSetf hz => Sys2Proof.Machine.execOscSetf hz s
  | .oscSetp p => Sys2Proof.Machine.execOscSetp p s
  | .oscRst => Sys2Proof.Machine.execOscRst s
  | .oscNext => Sys2Proof.Machine.execOscNext s
  | .oscBlep p => Sys2Proof.Machine.execOscBlep p s
  | .whiteNext => Sys2Proof.Machine.execWhiteNext s
  | .pinkNew => Sys2Proof.Machine.execPinkNew s
  | .pinkNext => Sys2Proof.Machine.execPinkNext s
  | .brownNew => Sys2Proof.Machine.execBrownNew s
  | .brownNext => Sys2Proof.Machine.execBrownNext s

end Sys2Proof.Machine
end

