-- ==== Sys2Proof/Machine/Accept.lean ====
section
/-! DEFINITION. What the block does with one event at its ports: an accepted command word, an assertion of `rst`, a random value
for the command in flight. Step.lean only chooses among these. -/

namespace Sys2Proof.Machine

/-- An accepted command word (30_encoding.md R53, R54; 60_exceptions.md R151: decode first): a command is executed, a reserved word
raises `ILL`. -/
def acceptWord (w : CmdWord) (s : State) : Result :=
  match decode s.fmt w with
  | .command i => exec i s
  | .reserved _ => .next (raiseFault .ill s)

/-- An event of the host while no command is in flight (20_memory.md R40, R41; 70_reset_and_hazards.md R163, R165). -/
def acceptEvent (e : HostEvent) (s : State) : Result :=
  match e with
  | .command w => acceptWord w s
  | .rst => .next (hardReset s)
  | .commandThenRst w took => .next (hardReset { s with rnd := rndAfterAbandon s.fmt w took s.rnd })

/-- A step while the noise sample command `i` waits in `RndTake()` (60_exceptions.md R162): it goes on as soon as a value is present;
otherwise only `rst` ends the wait (R165), and without it there is no next state. No word is accepted meanwhile. -/
def resumeInflight (i : Instr) (s : State) : Result :=
  match s.rnd with
  | _ :: _ => exec i { s with inflight := none }
  | [] =>
    match s.host with
    | .rst :: rest => .next (hardReset { s with host := rest })
    | _ => .fault .stuckOnRandom

/-- Commands executed one after another (20_memory.md R41), stopping at the first stop. -/
def execAll : List Instr → State → Result
  | [], s => .next s
  | i :: rest, s =>
    match exec i s with
    | .next t => execAll rest t
    | .fault r => .fault r
    | .refused r => .refused r

/-- The random values `withFetchWord` leaves at `RND`: those of the state, and where there are none and the presented word is a noise
sample command, one `+0.0` (log 10). -/
def drawsForFetch (fmt : Fmt) (w : CmdWord) (rnd : List Word) : List Word :=
  if wordTakesRandom fmt w && rnd.isEmpty then [0] else rnd

end Sys2Proof.Machine
end

