-- ==== Sys2Proof/Machine/Step.lean ====
section
/-! DEFINITION. One step: the block accepts the next event of the host and executes a command as one indivisible step (20_memory.md
R40, R41), or goes on with the command in flight, or idles. -/

namespace Sys2Proof.Machine

/-- One step. With no command in flight and no event left the block idles (70_reset_and_hazards.md R178: it "never halts"; log 7). -/
def step (s : State) : Host.Outcome State Fault Refusal :=
  match s.inflight with
  | some i => resumeInflight i s
  | none =>
    match s.host with
    | [] => .next s
    | e :: rest => acceptEvent e { s with host := rest }

/-- `s` with the table's word `w` of `nbits` bits presented as the next event on `CMD`: the format is the one whose words have that
width, no command is in flight, and a noise sample command that would find no random value finds one, `+0.0` (log 3, 10). -/
def State.withFetchWord (s : State) (nbits w : Nat) : State :=
  let fmt := fmtOfTableBits nbits
  let cw : CmdWord := BitVec.ofNat 136 (w % 2 ^ nbits)
  { s with fmt := fmt, inflight := none, host := .command cw :: s.host, rnd := drawsForFetch fmt cw s.rnd }

end Sys2Proof.Machine
end

