-- ==== Sys2Proof/Machine/Assembler.lean ====
section
/-! DEFINITION. The assembler of 30_encoding.md section 4 (R57 to R61), the notation of the spec's test vectors: lines of a program,
their expansion into command words and random values, and the reading of a line's text. It is not hardware: nothing of
`step` depends on it. -/

namespace Sys2Proof.Machine

/-- A real operand (R58): a decimal literal `± digits * 10 ^ exp10`, or a bit pattern taken as it stands. -/
inductive RealOperand
  | decimal (neg : Bool) (digits : Nat) (exp10 : Int)
  | bits (w : Word)
deriving DecidableEq, Repr

/-- The generators a `FILL` repeats (R61). -/
inductive FillUnit
  | osc
  | white
  | pink
  | brown
deriving DecidableEq, Repr

/-- A line of a program (R57): a command (R59), a pseudo-instruction (R61), the directive `.RND` (R60), or nothing. -/
inductive AsmLine
  | oscNew (wf : Waveform) (bl : Mode) (sr hz : RealOperand)
  | oscSetf (hz : RealOperand)
  | oscSetp (p : RealOperand)
  | oscRst
  | oscNext
  | oscBlep (p : RealOperand)
  | whiteNext
  | pinkNew
  | pinkNext
  | brownNew
  | brownNext
  | fill (u : FillUnit) (n : Nat)
  | rnd (values : List RealOperand)
  | blank
deriving DecidableEq, Repr

/-- The word of a real operand (R58): a decimal literal rounded to nearest, ties to even (40_numerics.md R79). -/
def operandWord (fmt : Fmt) : RealOperand → Word
  | .decimal neg digits exp10 =>
    if 0 ≤ exp10 then ofDecimal fmt neg (digits * 10 ^ exp10.toNat) 0 else ofDecimal fmt neg digits (-exp10).toNat
  | .bits w => w

/-- The sample command a `FILL` repeats (R61). -/
def fillCommand : FillUnit → Instr
  | .osc => .oscNext
  | .white => .whiteNext
  | .pink => .pinkNext
  | .brown => .brownNext

/-- The commands of a line, in order (R59 to R61): `.RND` and an empty line give none. -/
def lineCommands (fmt : Fmt) : AsmLine → List Instr
  | .oscNew wf bl sr hz => [.oscNew wf bl (operandWord fmt sr) (operandWord fmt hz)]
  | .oscSetf hz => [.oscSetf (operandWord fmt hz)]
  | .oscSetp p => [.oscSetp (operandWord fmt p)]
  | .oscRst => [.oscRst]
  | .oscNext => [.oscNext]
  | .oscBlep p => [.oscBlep (operandWord fmt p)]
  | .whiteNext => [.whiteNext]
  | .pinkNew => [.pinkNew]
  | .pinkNext => [.pinkNext]
  | .brownNew => [.brownNew]
  | .brownNext => [.brownNext]
  | .fill u n => List.replicate n (fillCommand u)
  | .rnd _ => []
  | .blank => []

/-- The values a line appends to the sequence of the random source (R60). -/
def lineDraws (fmt : Fmt) : AsmLine → List Word
  | .rnd values => values.map (operandWord fmt)
  | _ => []

/-- A program's command words. -/
def assemble (fmt : Fmt) (lines : List AsmLine) : List CmdWord := (lines.flatMap (lineCommands fmt)).map (encode fmt)

/-- A program's random values (R60). -/
def assembleDraws (fmt : Fmt) (lines : List AsmLine) : List Word := lines.flatMap (lineDraws fmt)

/-! Reading the text of a line (R57, R58). -/

def isBlankChar (c : Char) : Bool := c == ' ' || c == '\t' || c == '\r'

/-- A text without blanks at its ends. -/
def trimBlanks (cs : List Char) : List Char := ((cs.dropWhile isBlankChar).reverse.dropWhile isBlankChar).reverse

/-- The parts of a text between commas. -/
def splitCommas : List Char → List (List Char)
  | [] => [[]]
  | c :: cs =>
    match splitCommas cs with
    | [] => [[c]]
    | p :: ps => if c == ',' then [] :: p :: ps else (c :: p) :: ps

/-- The value of a digit in a base of at most 16. -/
def digitOf (base : Nat) (c : Char) : Option Nat :=
  let n := c.toNat
  let v := if 48 ≤ n ∧ n ≤ 57 then n - 48 else if 65 ≤ n ∧ n ≤ 70 then n - 55 else if 97 ≤ n ∧ n ≤ 102 then n - 87 else 99
  if v < base then some v else none

/-- The number a digit string stands for, read on from `acc`. -/
def digitsFrom (base : Nat) : Nat → List Char → Option Nat
  | acc, [] => some acc
  | acc, c :: cs =>
    match digitOf base c with
    | some v => digitsFrom base (acc * base + v) cs
    | none => none

/-- An unsigned number of at least one digit. -/
def parseNat (base : Nat) (cs : List Char) : Option Nat := if cs.isEmpty then none else digitsFrom base 0 cs

/-- A decimal exponent: digits with an optional sign. -/
def parseExponent : List Char → Option Int
  | '-' :: cs => (parseNat 10 cs).map fun n => -(n : Int)
  | '+' :: cs => (parseNat 10 cs).map fun n => (n : Int)
  | cs => (parseNat 10 cs).map fun n => (n : Int)

/-- An unsigned decimal literal: digits, an optional point and digits, an optional exponent (R58: `440`, `0.25`, `1e-3`). What R58
leaves open is the model's reading, log 14: the exponent letter is `e` or `E`, the exponent may carry either sign, the literal itself
only a `-`. DESIGN CHOICE. -/
def parseUnsigned (neg : Bool) (cs : List Char) : Option RealOperand :=
  let mantissa := cs.takeWhile fun c => c != 'e' && c != 'E'
  let exponent := (cs.dropWhile fun c => c != 'e' && c != 'E').drop 1
  let hasExponent := cs.any fun c => c == 'e' || c == 'E'
  let whole := mantissa.takeWhile fun c => c != '.'
  let places := (mantissa.dropWhile fun c => c != '.').drop 1
  let hasPoint := mantissa.any fun c => c == '.'
  if whole.isEmpty || (hasPoint && places.isEmpty) then none
  else
    match parseNat 10 (whole ++ places), if hasExponent then parseExponent exponent else some 0 with
    | some n, some e => some (.decimal neg n (e - (places.length : Int)))
    | _, _ => none

/-- A real operand (R58): "a hexadecimal bit pattern of exactly `W` bits prefixed `0x`", or a decimal literal. The hexadecimal
digits are read in either case, the `x` in lower case only: DESIGN CHOICE, log 14. -/
def parseReal (fmt : Fmt) (cs : List Char) : Option RealOperand :=
  match trimBlanks cs with
  | '0' :: 'x' :: hex =>
    if hex.length * 4 = fmt.width then (parseNat 16 hex).map fun n => .bits (BitVec.ofNat 64 n) else none
  | '-' :: rest => parseUnsigned true rest
  | rest => parseUnsigned false rest

def upperCase (cs : List Char) : List Char := cs.map Char.toUpper

/-- The waveform operand (R58). -/
def parseWaveform (cs : List Char) : Option Waveform :=
  let t := upperCase (trimBlanks cs)
  if t == "SINE".toList then some .sine
  else if t == "SAW".toList then some .saw
  else if t == "SQUARE".toList then some .square
  else if t == "TRIANGLE".toList then some .triangle
  else none

/-- The mode operand (R58). -/
def parseMode (cs : List Char) : Option Mode :=
  let t := upperCase (trimBlanks cs)
  if t == "NAIVE".toList then some .naive else if t == "BLEP".toList then some .bandlimited else none

/-- Every real operand of a list, or none if one is not readable. -/
def parseReals (fmt : Fmt) : List (List Char) → Option (List RealOperand)
  | [] => some []
  | p :: ps =>
    match parseReal fmt p, parseReals fmt ps with
    | some v, some vs => some (v :: vs)
    | _, _ => none

/-- A line that takes no operand. -/
def noOperand (args : List Char) (l : AsmLine) : Option AsmLine := if args.isEmpty then some l else none

/-- One line of a program (R57): the comment is dropped, the mnemonic is read without regard to case, the operands between commas.
None for a text that is no line. The raw words `(word) 0x...` of program P5 (95_test_vectors.md) are none of R57's kinds of line and are
read as no line: they stand for words that the host presents as they are. DESIGN CHOICE, log 14. -/
def parseLine (fmt : Fmt) (text : String) : Option AsmLine :=
  let body := trimBlanks (text.toList.takeWhile fun c => c != ';')
  let name := upperCase (body.takeWhile fun c => !isBlankChar c)
  let args := trimBlanks (body.dropWhile fun c => !isBlankChar c)
  let count := fun (u : FillUnit) => (parseNat 10 args).map fun n => AsmLine.fill u n
  if body.isEmpty then some .blank
  else if name == "OSC.NEW".toList then
    match splitCommas args with
    | [wf, mode, sr, hz] =>
      match parseWaveform wf, parseMode mode, parseReal fmt sr, parseReal fmt hz with
      | some wf, some mode, some sr, some hz => some (.oscNew wf mode sr hz)
      | _, _, _, _ => none
    | _ => none
  else if name == "OSC.SETF".toList then (parseReal fmt args).map .oscSetf
  else if name == "OSC.SETP".toList then (parseReal fmt args).map .oscSetp
  else if name == "OSC.RST".toList then noOperand args .oscRst
  else if name == "OSC.NEXT".toList then noOperand args .oscNext
  else if name == "OSC.BLEP".toList then (parseReal fmt args).map .oscBlep
  else if name == "WHITE.NEXT".toList then noOperand args .whiteNext
  else if name == "PINK.NEW".toList then noOperand args .pinkNew
  else if name == "PINK.NEXT".toList then noOperand args .pinkNext
  else if name == "BROWN.NEW".toList then noOperand args .brownNew
  else if name == "BROWN.NEXT".toList then noOperand args .brownNext
  else if name == "OSC.FILL".toList then count .osc
  else if name == "WHITE.FILL".toList then count .white
  else if name == "PINK.FILL".toList then count .pink
  else if name == "BROWN.FILL".toList then count .brown
  else if name == ".RND".toList then (parseReals fmt (splitCommas args)).map .rnd
  else none

end Sys2Proof.Machine
end

