-- ==== Sys2Proof/Safety.lean ====
section
/-! DEFINITION. The terms in which claims are made: the domain of guaranteed behaviour (40_numerics.md R82, 70_reset_and_hazards.md R168
to R172), which nothing in the hardware checks, and what every state of a run looks like. -/

namespace Sys2Proof.Machine

/-- Phase and increment both in [0, 1): the condition of 10_state.md R27. -/
def oscInRange (fmt : Fmt) (o : Osc Word) : Bool := inUnit fmt o.phase && inUnit fmt o.inc

/-- The condition of R27 on a state: it asks nothing while no oscillator is constructed. -/
def PhaseInRange (s : State) : Prop := ∀ o, s.osc = some o → oscInRange s.fmt o = true

/-- `sr` positive and finite, `0 ≤ hz < sr` (70_reset_and_hazards.md R168, R169). -/
def goodRate (fmt : Fmt) (sr hz : Word) : Bool :=
  isFinite fmt sr && flt fmt (constBits fmt .zero) sr && fge fmt hz (constBits fmt .zero) && flt fmt hz sr

/-- `p` finite and either `p ≥ 0` or an integer of either sign (10_state.md R27, 70_reset_and_hazards.md R172). -/
def goodPhase (fmt : Fmt) (p : Word) : Bool :=
  isFinite fmt p && (fge fmt p (constBits fmt .zero) || decide (ftrunc fmt p = toWidth fmt p))

/-- A command whose operands keep the preconditions of R82, given the oscillator it would act on. -/
def commandInDomain (fmt : Fmt) (osc : Option (Osc Word)) : Instr → Bool
  | .oscNew _ _ sr hz => goodRate fmt sr hz
  | .oscSetf hz =>
    match osc with
    | none => true
    | some o => goodRate fmt o.sr hz
  | .oscSetp p => goodPhase fmt p
  | .oscRst => true
  | .oscNext => true
  | .oscBlep _ => true
  | .whiteNext => true
  | .pinkNew => true
  | .pinkNext => true
  | .brownNew => true
  | .brownNext => true

/-- The next thing the block would execute keeps the preconditions: the command in flight, or the host's next event. -/
def nextInDomain (s : State) : Prop :=
  match s.inflight with
  | some i => commandInDomain s.fmt s.osc i = true
  | none => ∀ w rest i, s.host = .command w :: rest → decode s.fmt w = .command i → commandInDomain s.fmt s.osc i = true

/-- Every value held in the state is a `W`-bit pattern (log 1), the command in flight is one that waits for a random value (10_state.md
R26), and every response word given is one of the three kinds of 30_encoding.md R46. -/
structure StateOk (s : State) : Prop where
  osc : ∀ o, s.osc = some o → fits s.fmt o.phase = true ∧ fits s.fmt o.inc = true ∧ fits s.fmt o.sr = true
  taps : fits s.fmt s.taps.b0 = true ∧ fits s.fmt s.taps.b1 = true ∧ fits s.fmt s.taps.b2 = true ∧
    fits s.fmt s.taps.b3 = true ∧ fits s.fmt s.taps.b4 = true ∧ fits s.fmt s.taps.b5 = true
  prev : fits s.fmt s.prev = true
  inflight : ∀ i, s.inflight = some i → takesRandom i = true
  rsp : ∀ w ∈ s.rsp, (readRsp s.fmt w).isSome = true

/-- One bound for each pink tap, a little above the `IDEAL` bounds of 44_noise.md R133 (48.70, 11.24, 4.963, 2.326, 1.184, 0.0709), with
room for rounding: 49, 11.25, 5, 2.5, 1.25, 0.125. DEDUCED, log 12. -/
def tapBound (fmt : Fmt) : Taps Word where
  b0 := ofDecimal fmt false 49 0
  b1 := ofDecimal fmt false 1125 2
  b2 := ofDecimal fmt false 5 0
  b3 := ofDecimal fmt false 25 1
  b4 := ofDecimal fmt false 125 2
  b5 := ofDecimal fmt false 125 3

/-- Every tap within its bound. -/
def tapsWithin (fmt : Fmt) (b : Taps Word) : Bool :=
  within fmt (tapBound fmt).b0 b.b0 && within fmt (tapBound fmt).b1 b.b1 && within fmt (tapBound fmt).b2 b.b2 &&
  within fmt (tapBound fmt).b3 b.b3 && within fmt (tapBound fmt).b4 b.b4 && within fmt (tapBound fmt).b5 b.b5

/-- The noise state of a run whose random values lie in [0, 1): the taps within their bounds, the brown accumulator in [-1, 1] (44_noise.md
R133, R137). -/
def NoiseBounded (s : State) : Prop := tapsWithin s.fmt s.taps = true ∧ inSignedUnit s.fmt s.prev = true

end Sys2Proof.Machine
end

