-- ==== Sys2Proof/Certificates/Slice0/Obligations.lean ====
section
/-! DEFINITION. The statements for the provers. -/

open Sys2Proof Sys2Proof.Machine

/-! Encoding and decoding. -/

/-- 30_encoding.md R45 to R53: no bit of an operand is dropped by an encoding, for every command and both formats. -/
def Obligations.DecodeOfEncodeIsTheCommand : Prop :=
  ∀ (fmt : Fmt) (i : Instr), i.wellFormed fmt = true → decode fmt (encode fmt i) = .command i

/-- 30_encoding.md R52, R53: a word that decodes to a command has no other bit than that command's encoding. -/
def Obligations.EncodeOfDecodeIsTheWord : Prop :=
  ∀ (fmt : Fmt) (w : CmdWord) (i : Instr), decode fmt w = .command i →
    i.wellFormed fmt = true ∧ (encode fmt i).toNat = w.toNat % 2 ^ fmt.cmdWidth

/-- 30_encoding.md R51: a word is the command of a row exactly when `(cw AND mask) = match`, and no word matches two rows. The rows
are `tableRow`, the numbers of spec/opcode_table.json; a row is named by any command `i` of it. -/
def Obligations.DecodeFollowsTheMasksOfTheTable : Prop :=
  ∀ (fmt : Fmt) (w : CmdWord) (i : Instr),
    (w &&& (tableRow fmt i).1 = (tableRow fmt i).2 ↔
      ∃ j, decode fmt w = .command j ∧ tableRow fmt j = tableRow fmt i) ∧
    (∀ k, w &&& (tableRow fmt i).1 = (tableRow fmt i).2 → w &&& (tableRow fmt k).1 = (tableRow fmt k).2 →
      tableRow fmt k = tableRow fmt i)

/-- 30_encoding.md R62, R54 and 95_test_vectors.md 2.1: words written out by the spec. -/
def Obligations.WordsOfTheSpecDecode : Prop :=
  decode .binary32 0x10_40800000_3F800000 = .command (.oscNew .sine .naive 0x40800000 0x3F800000) ∧
  decode .binary32 0x16_41200000_3F800000 = .command (.oscNew .saw .bandlimited 0x41200000 0x3F800000) ∧
  decode .binary32 0x1C_473B8000_43DC0000 = .command (.oscNew .triangle .naive 0x473B8000 0x43DC0000) ∧
  decode .binary32 0x60_3D4CCCCD_00000000 = .command (.oscBlep 0x3D4CCCCD) ∧
  decode .binary32 0xA0_00000000_00000000 = .command .pinkNext ∧
  decode .binary32 0 = .reserved .opcode ∧
  decode .binary32 0x11_40800000_3F800000 = .reserved .zBit ∧
  decode .binary32 0x50_00000000_80000000 = .reserved .unusedField

/-- 20_memory.md R33: a command word stored as bytes, byte 0 holding bits 7:0, decodes as the word. That a byte list that is no whole word is
refused by name is the model's choice (log 1, DESIGN CHOICE): R34 says only that the port carries no partial word. -/
def Obligations.StoredBytesDecodeAsTheWord : Prop :=
  ∀ (fmt : Fmt), (∀ w : CmdWord, decodeBytes fmt (cmdBytes fmt w) = decode fmt w) ∧
    ∀ bs : List Byte, bs.length * 8 ≠ fmt.cmdWidth → decodeBytes fmt bs = .reserved .partialWord

/-- 30_encoding.md R46: the three kinds of response word, their data, and that `kind` 3 is never produced. -/
def Obligations.ResponseWordsHaveTheirKindAndData : Prop :=
  ∀ (fmt : Fmt) (v : Word), fits fmt v = true →
    (rspWord fmt .ack).toNat = 0 ∧
    (rspWord fmt (.sample v)).toNat = 1 * 2 ^ fmt.width + v.toNat ∧
    (rspWord fmt (.err .ill)).toNat = 2 * 2 ^ fmt.width + 1 ∧
    (rspWord fmt (.err .unc)).toNat = 2 * 2 ^ fmt.width + 2 ∧
    ∀ r : Response Word, (rspWord fmt r).toNat / 2 ^ fmt.width < 3

/-! Reset and the step. -/

/-- 10_state.md R29: the values of the block's elements after hardware reset. The parameters and the empty ports are the model's own fields
(log 1, log 3). -/
def Obligations.ResetStateHasTheValuesOfTheTable : Prop :=
  ∀ fmt : Fmt, (State.resetAt fmt).fmt = fmt ∧ (State.resetAt fmt).sinTol = none ∧ (State.resetAt fmt).osc = none ∧ (State.resetAt fmt).constructed = false ∧
    (State.resetAt fmt).taps = ⟨0, 0, 0, 0, 0, 0⟩ ∧ (State.resetAt fmt).prev = 0 ∧
    (State.resetAt fmt).ill = false ∧ (State.resetAt fmt).unc = false ∧
    (State.resetAt fmt).inflight = none ∧ (State.resetAt fmt).cmdReady = true

/-- 70_reset_and_hazards.md R163, R165: `rst` puts every element of the block in the reset state, whether no command is in flight, one waits
for its random value, or one is abandoned before its response; no response is produced and no random value taken beyond the
one that the abandoned command had taken. That a waiting command is met by `rst` only while no random value is present is the
model's choice (log 5). -/
def Obligations.HardwareResetGivesTheResetState : Prop :=
  ∀ (s : State) (rest : List HostEvent) (rnd : List Word),
    let t : State := { s with osc := none, taps := ⟨0, 0, 0, 0, 0, 0⟩, prev := 0, ill := false, unc := false, inflight := none,
                              host := rest, rnd := rnd }
    (s.host = .rst :: rest → s.rnd = rnd → (s.inflight = none ∨ rnd = []) → step s = .next t) ∧
    (∀ w took, s.host = .commandThenRst w took :: rest → s.inflight = none →
      rnd = (if wordTakesRandom s.fmt w && took then s.rnd.tail else s.rnd) → step s = .next t)

/-- A step runs the decoded command: 20_memory.md R40, R41, 30_encoding.md R53. Nothing is added around `exec` but that the word has left the
port. -/
def Obligations.StepRunsTheDecodedCommand : Prop :=
  ∀ (s : State) (w : CmdWord) (rest : List HostEvent) (i : Instr), s.inflight = none → s.host = .command w :: rest →
    decode s.fmt w = .command i → step s = exec i { s with host := rest }

/-- 30_encoding.md R54: which words are reserved, the all-zero and the all-ones word among them; executing one raises the fault `ILL`: the
block sets `S.ILL`, responds `ERR 1`, takes no random value, and changes no other state. Every word either is a command or
faults. -/
def Obligations.ReservedWordRaisesIll : Prop :=
  (∀ (fmt : Fmt) (w : CmdWord),
    let op := cmdField w (2 * fmt.width + 4) 4
    ((∃ why, decode fmt w = .reserved why) ↔
      op ∈ [0, 7, 13, 14, 15] ∨ cmdField w (2 * fmt.width) 1 = 1 ∨
      (op ≠ 1 ∧ (cmdField w (2 * fmt.width + 2) 2 ≠ 0 ∨ cmdField w (2 * fmt.width + 1) 1 ≠ 0 ∨ cmdField w 0 fmt.width ≠ 0)) ∨
      (op ∉ [1, 2, 3, 6] ∧ cmdField w fmt.width fmt.width ≠ 0))) ∧
  (∀ fmt : Fmt, decode fmt 0 = .reserved .opcode ∧ decode fmt (BitVec.ofNat 136 (2 ^ fmt.cmdWidth - 1)) = .reserved .zBit) ∧
  (∀ (s : State) (w : CmdWord) (rest : List HostEvent), s.inflight = none → s.host = .command w :: rest →
    (∃ i, decode s.fmt w = .command i) ∨
    ((∃ why, decode s.fmt w = .reserved why) ∧
      step s = .next { s with host := rest, ill := true, rsp := s.rsp ++ [BitVec.ofNat 66 (2 * 2 ^ s.fmt.width + 1)] }))

/-- 60_exceptions.md R162, 20_memory.md R40, 10_state.md R26: a noise sample command that finds no random value waits in flight, having written
nothing and answered nothing; a command in flight accepts no word; with no random value it has no successor but by `rst`; with
one it goes on as if it had just been accepted. That it goes on so also where the host asserts `rst` at that moment is the model's
choice of an order that the spec leaves open (log 5, DESIGN CHOICE, unsafe). -/
def Obligations.NoiseSampleCommandWaitsForItsRandomValue : Prop :=
  ∀ (s : State) (i : Instr),
    (s.rnd = [] → (i = .whiteNext ∨ i = .pinkNext ∨ i = .brownNext) → exec i s = .next { s with inflight := some i }) ∧
    (s.inflight = some i →
      s.cmdReady = false ∧
      (s.rnd = [] → (∀ rest, s.host ≠ .rst :: rest) → step s = .fault .stuckOnRandom) ∧
      (s.rnd ≠ [] → step s = exec i { s with inflight := none }))

/-! What each command does: its result, completion and frame in one equation. -/

/-- 41_oscillator_control.md R85: `OSC.NEW` runs in every state and replaces all six oscillator elements; nothing else of the block changes. -/
def Obligations.OscNewConstructs : Prop :=
  ∀ (wf : Waveform) (bl : Mode) (sr hz : Word) (s : State),
    exec (.oscNew wf bl sr hz) s = .next { s with
      osc := some { phase := 0, inc := fdiv s.fmt hz sr, sr := sr, wf := wf, bl := bl }
      rsp := s.rsp ++ [0] }

/-- 41_oscillator_control.md R87: `OSC.SETF hz` stores `fdiv(hz, S.SR)` in `S.INC` and answers `ACK`. -/
def Obligations.OscSetfStoresTheQuotient : Prop :=
  ∀ (hz : Word) (s : State) (o : Osc Word), s.osc = some o →
    exec (.oscSetf hz) s = .next { s with osc := some { o with inc := fdiv s.fmt hz o.sr }, rsp := s.rsp ++ [0] }

/-- 41_oscillator_control.md R88, R89: `OSC.SETP p` stores `fsub(p, ftrunc(p))` in `S.PHASE`, `OSC.RST` stores `+0.0` there; each answers `ACK`
and touches nothing else. -/
def Obligations.PhaseCommandsStoreThePhase : Prop :=
  ∀ (p : Word) (s : State) (o : Osc Word), s.osc = some o →
    exec (.oscSetp p) s = .next { s with
      osc := some { o with phase := fsub s.fmt p (ftrunc s.fmt p) }, rsp := s.rsp ++ [0] } ∧
    exec .oscRst s = .next { s with osc := some { o with phase := 0 }, rsp := s.rsp ++ [0] }

/-- 41_oscillator_control.md R90, R91, R92 with 42_naive_waveforms.md R101 to R104 and 43_polyblep.md R110, R118, R119, R120: `OSC.NEXT`
advances the phase by one addition and at most one subtraction of 1.0, writes it, and answers the sample of the new phase in the stored
waveform and mode, every formula spelled out in the primitives. `s.num.sin` is the sine unit, a free value (log 4). -/
def Obligations.OscNextAdvancesThenSamples : Prop :=
  ∀ (s : State) (o : Osc Word), s.osc = some o →
    let fmt := s.fmt
    let K := constBits fmt
    let d := o.inc
    let p1 := fadd fmt o.phase d
    let p := if fge fmt p1 (K .one) then fsub fmt p1 (K .one) else p1
    let sine := s.num.sin (fmul fmt (K .twoPi) p)
    let saw := fsub fmt (fmul fmt (K .two) p) (K .one)
    let square := if flt fmt p (K .half) then K .one else K .negOne
    let triangle :=
      if flt fmt p (K .half) then fsub fmt (fmul fmt (K .four) p) (K .one) else fadd fmt (fmul fmt (K .negFour) p) (K .three)
    let corrector := fun x : Word =>
      if flt fmt x d then
        let t := fdiv fmt x d
        fsub fmt (fsub fmt (fmul fmt (K .two) t) (fmul fmt t t)) (K .one)
      else if fgt fmt x (fsub fmt (K .one) d) then
        let t := fdiv fmt (fsub fmt x (K .one)) d
        fadd fmt (fadd fmt (fmul fmt t t) (fmul fmt (K .two) t)) (K .one)
      else K .zero
    let half := fadd fmt p (K .half)
    let p2 := fsub fmt half (ftrunc fmt half)
    let v := match o.bl, o.wf with
      | .naive, .sine => sine
      | .naive, .saw => saw
      | .naive, .square => square
      | .naive, .triangle => triangle
      | .bandlimited, .sine => sine
      | .bandlimited, .saw => fsub fmt saw (corrector p)
      | .bandlimited, .square => fsub fmt (fadd fmt square (corrector p)) (corrector p2)
      | .bandlimited, .triangle => triangle
    exec .oscNext s = .next { s with
      osc := some { o with phase := p }
      rsp := s.rsp ++ [BitVec.ofNat 66 (2 ^ fmt.width + v.toNat % 2 ^ fmt.width)] }

/-- 43_polyblep.md R116, R110, R112: `OSC.BLEP p` answers the corrector at `p` with width `S.INC`, its branches and its polynomials spelled
out, and writes no element. -/
def Obligations.OscBlepAnswersTheCorrector : Prop :=
  ∀ (p : Word) (s : State) (o : Osc Word), s.osc = some o →
    let fmt := s.fmt
    let K := constBits fmt
    let d := o.inc
    let v :=
      if flt fmt p d then
        let t := fdiv fmt p d
        fsub fmt (fsub fmt (fmul fmt (K .two) t) (fmul fmt t t)) (K .one)
      else if fgt fmt p (fsub fmt (K .one) d) then
        let t := fdiv fmt (fsub fmt p (K .one)) d
        fadd fmt (fadd fmt (fmul fmt t t) (fmul fmt (K .two) t)) (K .one)
      else K .zero
    exec (.oscBlep p) s = .next { s with
      rsp := s.rsp ++ [BitVec.ofNat 66 (2 ^ fmt.width + v.toNat % 2 ^ fmt.width)] }

/-- 60_exceptions.md R149 with R147: while `S.V = 0` each oscillator command but `OSC.NEW` sets `S.UNC`, answers `ERR 2`, and changes no other
state element; `S.V` stays 0. -/
def Obligations.OscillatorCommandsFaultBeforeConstruction : Prop :=
  ∀ (s : State) (i : Instr), s.osc = none →
    (i = .oscRst ∨ i = .oscNext ∨ (∃ x, i = .oscSetf x ∨ i = .oscSetp x ∨ i = .oscBlep x)) →
    exec i s = .next { s with unc := true, rsp := s.rsp ++ [BitVec.ofNat 66 (2 * 2 ^ s.fmt.width + 2)] }

/-- 44_noise.md R127: `WHITE.NEXT` takes one random value and answers `2u - 1`; no element is written. -/
def Obligations.WhiteNextAnswersTheRemap : Prop :=
  ∀ (s : State) (u : Word) (rest : List Word), s.rnd = u :: rest → fits s.fmt u = true →
    let v := fsub s.fmt (fmul s.fmt (constBits s.fmt .two) u) (constBits s.fmt .one)
    exec .whiteNext s = .next { s with
      rnd := rest
      rsp := s.rsp ++ [BitVec.ofNat 66 (2 ^ s.fmt.width + v.toNat % 2 ^ s.fmt.width)] }

/-- 44_noise.md R129, R135: `PINK.NEW` sets the six taps and `BROWN.NEW` sets `S.PREV` to `+0.0`; each answers `ACK` and takes nothing from
`RND`. -/
def Obligations.NoiseConstructorsZeroTheirState : Prop :=
  ∀ s : State,
    exec .pinkNew s = .next { s with taps := ⟨0, 0, 0, 0, 0, 0⟩, rsp := s.rsp ++ [0] } ∧
    exec .brownNew s = .next { s with prev := 0, rsp := s.rsp ++ [0] }

/-- 44_noise.md R130, R131: `PINK.NEXT` updates each tap from its own old value with one draw, sums the updated taps from 0 to 5, adds the
direct term last and scales once. -/
def Obligations.PinkNextUpdatesTapsThenSums : Prop :=
  ∀ (s : State) (u : Word) (rest : List Word), s.rnd = u :: rest → fits s.fmt u = true →
    let K := constBits s.fmt
    let w := fsub s.fmt (fmul s.fmt (K .two) u) (K .one)
    let b0 := fadd s.fmt (fmul s.fmt (K .pa0) s.taps.b0) (fmul s.fmt w (K .pg0))
    let b1 := fadd s.fmt (fmul s.fmt (K .pa1) s.taps.b1) (fmul s.fmt w (K .pg1))
    let b2 := fadd s.fmt (fmul s.fmt (K .pa2) s.taps.b2) (fmul s.fmt w (K .pg2))
    let b3 := fadd s.fmt (fmul s.fmt (K .pa3) s.taps.b3) (fmul s.fmt w (K .pg3))
    let b4 := fadd s.fmt (fmul s.fmt (K .pa4) s.taps.b4) (fmul s.fmt w (K .pg4))
    let b5 := fadd s.fmt (fmul s.fmt (K .pa5) s.taps.b5) (fmul s.fmt w (K .pg5))
    let sum := fadd s.fmt (fadd s.fmt (fadd s.fmt (fadd s.fmt (fadd s.fmt b0 b1) b2) b3) b4) b5
    let v := fmul s.fmt (fadd s.fmt sum (fmul s.fmt w (K .pw))) (K .ps)
    exec .pinkNext s = .next { s with
      taps := ⟨b0, b1, b2, b3, b4, b5⟩
      rnd := rest
      rsp := s.rsp ++ [BitVec.ofNat 66 (2 ^ s.fmt.width + v.toNat % 2 ^ s.fmt.width)] }

/-- 44_noise.md R136: `BROWN.NEXT` stores the integrator before the scaling and answers it scaled by 3.5. -/
def Obligations.BrownNextIntegratesThenScales : Prop :=
  ∀ (s : State) (u : Word) (rest : List Word), s.rnd = u :: rest → fits s.fmt u = true →
    let K := constBits s.fmt
    let w := fsub s.fmt (fmul s.fmt (K .two) u) (K .one)
    let p := fdiv s.fmt (fadd s.fmt s.prev (fmul s.fmt (K .bg) w)) (K .bd)
    exec .brownNext s = .next { s with
      prev := p
      rnd := rest
      rsp := s.rsp ++ [BitVec.ofNat 66 (2 ^ s.fmt.width + (fmul s.fmt p (K .bs)).toNat % 2 ^ s.fmt.width)] }

/-! Rules of the whole machine. -/

/-- 41_oscillator_control.md R86: no command but `OSC.NEW`, and nothing else in a step but `rst`, changes the sample rate, the waveform or the
mode of an oscillator, or unmakes it; of the other commands only `OSC.SETF` writes its increment and only `OSC.SETP`, `OSC.RST`
and `OSC.NEXT` its phase. That only a noise sample command waits in flight is the invariant of `StateOk`. -/
def Obligations.OnlyOscNewChangesRateWaveformAndMode : Prop :=
  (∀ (i : Instr) (s t : State) (o : Osc Word), exec i s = .next t → s.osc = some o → (∀ wf bl sr hz, i ≠ .oscNew wf bl sr hz) →
    ∃ o', t.osc = some o' ∧ o'.sr = o.sr ∧ o'.wf = o.wf ∧ o'.bl = o.bl ∧
      (o'.inc ≠ o.inc → ∃ hz, i = .oscSetf hz) ∧
      (o'.phase ≠ o.phase → (∃ p, i = .oscSetp p) ∨ i = .oscRst ∨ i = .oscNext)) ∧
  (∀ (s t : State) (o : Osc Word), StateOk s → step s = .next t → s.osc = some o →
    (∀ rest, s.host ≠ .rst :: rest) → (∀ w took rest, s.host ≠ .commandThenRst w took :: rest) →
    (∀ w rest wf bl sr hz, s.host = .command w :: rest → decode s.fmt w ≠ .command (.oscNew wf bl sr hz)) →
    ∃ o', t.osc = some o' ∧ o'.sr = o.sr ∧ o'.wf = o.wf ∧ o'.bl = o.bl)

/-- 10_state.md R28, 44_noise.md R134, R140: the frame of every command: an oscillator command leaves the noise state, a noise command the
oscillator and the other noise units; none touches the parameters, the host's events or `S.ILL`, and `S.UNC` is touched by an oscillator
command without an oscillator only. -/
def Obligations.CommandsKeepTheOtherUnits : Prop :=
  ∀ (i : Instr) (s t : State), exec i s = .next t →
    t.fmt = s.fmt ∧ t.sinTol = s.sinTol ∧ t.host = s.host ∧ t.ill = s.ill ∧
    (t.osc ≠ s.osc → (∃ wf bl sr hz, i = .oscNew wf bl sr hz) ∨ (∃ x, i = .oscSetf x ∨ i = .oscSetp x) ∨ i = .oscRst ∨ i = .oscNext) ∧
    (t.taps ≠ s.taps → i = .pinkNew ∨ i = .pinkNext) ∧
    (t.prev ≠ s.prev → i = .brownNew ∨ i = .brownNext) ∧
    (t.unc ≠ s.unc → s.osc = none ∧ ∃ x, i = .oscSetf x ∨ i = .oscSetp x ∨ i = .oscRst ∨ i = .oscNext ∨ i = .oscBlep x) ∧
    (t.inflight ≠ s.inflight → s.rnd = [] ∧ t.inflight = some i ∧ (i = .whiteNext ∨ i = .pinkNext ∨ i = .brownNext))

/-- 70_reset_and_hazards.md R175, 20_memory.md R37, R38: an executed command gives exactly one response, after all earlier ones, and takes one random
value if it is a noise sample command and none otherwise; only a noise sample command without a value waits, and then gives none. -/
def Obligations.OneResponseAndAtMostOneDrawPerCommand : Prop :=
  ∀ (i : Instr) (s t : State), exec i s = .next t →
    ((∃ r, t.rsp = s.rsp ++ [r]) ∧ t.rnd = (if takesRandom i then s.rnd.tail else s.rnd) ∧ t.inflight = s.inflight ∧
      ¬ (takesRandom i = true ∧ s.rnd = [])) ∨
    (t = { s with inflight := some i } ∧ takesRandom i = true ∧ s.rnd = [])

/-- 10_state.md R24, 60_exceptions.md R147, R154: a step that does not assert `rst` never clears a sticky bit, and sets `S.ILL` only on a reserved
word and `S.UNC` only on a command without an oscillator. -/
def Obligations.StickyBitsAreSetByFaultsAndClearedByReset : Prop :=
  ∀ (s t : State), step s = .next t →
    (s.ill = true → t.ill = false → ∃ rest w took, s.host = .rst :: rest ∨ s.host = .commandThenRst w took :: rest) ∧
    (s.unc = true → t.unc = false → ∃ rest w took, s.host = .rst :: rest ∨ s.host = .commandThenRst w took :: rest) ∧
    (s.ill = false → t.ill = true → ∃ w rest why, s.host = .command w :: rest ∧ decode s.fmt w = .reserved why) ∧
    (s.unc = false → t.unc = true → s.osc = none)

/-- 60_exceptions.md R154: a set status bit does not change the behaviour of any later command: whatever the bits were before, the
command does the same to every other element and gives the same response. -/
def Obligations.StatusBitsDoNotChangeBehaviour : Prop :=
  ∀ (i : Instr) (s t : State) (a b : Bool), exec i s = .next t →
    ∃ c, exec i { s with ill := a, unc := b } = .next { t with ill := a, unc := c } ∧ (b = true → c = true)

/-- 44_noise.md R140: no noise command reads or writes oscillator state, and none is affected by `S.V`. -/
def Obligations.NoiseDoesNotDependOnTheOscillator : Prop :=
  ∀ (i : Instr) (s t : State) (osc : Option (Osc Word)),
    (i = .whiteNext ∨ i = .pinkNew ∨ i = .pinkNext ∨ i = .brownNew ∨ i = .brownNext) →
    exec i s = .next t → t.osc = s.osc ∧ exec i { s with osc := osc } = .next { t with osc := osc }

/-- 41_oscillator_control.md R93: two oscillators constructed with the same `sr` and `hz` and given the same commands have the same `S.PHASE` and
`S.INC` after every command, whatever their waveforms and modes. -/
def Obligations.PhaseDoesNotDependOnWaveformOrMode : Prop :=
  ∀ (is : List Instr) (s s' t t' : State) (wf wf' : Waveform) (bl bl' : Mode) (sr hz : Word), s.fmt = s'.fmt →
    execAll (.oscNew wf bl sr hz :: is) s = .next t → execAll (.oscNew wf' bl' sr hz :: is) s' = .next t' →
    t.osc.map (fun o => (o.phase, o.inc)) = t'.osc.map (fun o => (o.phase, o.inc))

/-- 41_oscillator_control.md R97 item 4, R87: `OSC.SETF` with the frequency whose increment the oscillator has changes no state element of the
block, so no later output; and it has it after the `OSC.NEW` or `OSC.SETF` that gave the frequency last, whatever other commands
came between. -/
def Obligations.SettingTheCurrentFrequencyChangesNothing : Prop :=
  (∀ (s : State) (o : Osc Word) (hz : Word), s.osc = some o → o.inc = fdiv s.fmt hz o.sr →
    exec (.oscSetf hz) s = .next { s with rsp := s.rsp ++ [0] }) ∧
  (∀ (s t : State) (i : Instr) (is : List Instr) (hz : Word),
    ((∃ wf bl sr, i = .oscNew wf bl sr hz) ∨ (i = .oscSetf hz ∧ s.osc ≠ none)) →
    (∀ j ∈ is, (∀ wf bl sr x, j ≠ .oscNew wf bl sr x) ∧ ∀ x, j ≠ .oscSetf x) →
    execAll (i :: is) s = .next t → exec (.oscSetf hz) t = .next { t with rsp := t.rsp ++ [0] })

/-- 41_oscillator_control.md R97 item 2, R89: after `OSC.RST` the oscillator state equals that after an `OSC.NEW` with the same waveform, mode and
sample rate and a frequency that gives the same increment. -/
def Obligations.ResetOscillatorEqualsAFreshOne : Prop :=
  ∀ (s t t' : State) (o : Osc Word) (hz : Word), s.osc = some o → o.inc = fdiv s.fmt hz o.sr →
    exec .oscRst s = .next t → exec (.oscNew o.wf o.bl o.sr hz) s = .next t' → t = t'

/-- 43_polyblep.md R120: in bandlimited mode sine and triangle are the naive values bit for bit, for every phase and increment; and an
oscillator constructed with `SINE, BLEP` or `TRIANGLE, BLEP` is indistinguishable, through `OSC.NEXT`, from one constructed with
`NAIVE`: over any number of samples the responses are the same. -/
def Obligations.SineAndTriangleAreNotCorrected : Prop :=
  ∀ (wf : Waveform), wf = .sine ∨ wf = .triangle →
    (∀ (fmt : Fmt) (sin : Word → Word) (p d : Word), bandlimited (ieee fmt sin) wf p d = naive (ieee fmt sin) wf p) ∧
    (∀ p d : ℝ, bandlimited idealNum wf p d = naive idealNum wf p) ∧
    (∀ (n : ℕ) (sr hz : Word) (s t t' : State),
      execAll (.oscNew wf .bandlimited sr hz :: List.replicate n .oscNext) s = .next t →
      execAll (.oscNew wf .naive sr hz :: List.replicate n .oscNext) s = .next t' → t.rsp = t'.rsp)

/-- 30_encoding.md R61: `OSC.FILL n` is `n` times `OSC.NEXT`: on a constructed oscillator it runs to its end and gives `n` responses, each a
`SAMPLE`. -/
def Obligations.OscFillGivesOneSamplePerSlot : Prop :=
  ∀ (n : ℕ) (s : State), s.osc ≠ none →
    assemble s.fmt [.fill .osc n] = List.replicate n (encode s.fmt .oscNext) ∧
    ∃ (t : State) (vs : List Word), execAll (lineCommands s.fmt (.fill .osc n)) s = .next t ∧ vs.length = n ∧
      t.rsp = s.rsp ++ vs.map (fun v => rspWord s.fmt (.sample v))

/-! Invariants that every step keeps. -/

/-- The reset state is well formed, in both formats. -/
def Obligations.ResetStateIsOk : Prop :=
  ∀ fmt : Fmt, StateOk (State.resetAt fmt) ∧ PhaseInRange (State.resetAt fmt) ∧ NoiseBounded (State.resetAt fmt)

/-- Every step keeps: every value held is a `W`-bit pattern, only a noise sample command waits in flight (10_state.md R26), every response word
is of one of the three kinds (30_encoding.md R46); and no step changes the parameters, the format and the tolerance of the sine unit. -/
def Obligations.EveryStepKeepsTheStateOk : Prop :=
  ∀ s t : State, StateOk s → step s = .next t → StateOk t ∧ t.fmt = s.fmt ∧ t.sinTol = s.sinTol

/-- 10_state.md R27, 70_reset_and_hazards.md R168, R169, R172: as long as the commands keep the preconditions, every step keeps the phase and the
increment in [0, 1), in both formats and for whatever sine unit. -/
def Obligations.EveryStepKeepsThePhaseInRange : Prop :=
  ∀ s t : State, PhaseInRange s → nextInDomain s → step s = .next t → PhaseInRange t

/-- 44_noise.md R133, R137, 40_numerics.md R84: as long as the random values lie in [0, 1), every step keeps the pink taps within their bounds and
the brown accumulator in [-1, 1], rounding included; in particular none of them is infinite or NaN. The tap bounds are the
model's, a little above the `IDEAL` ones (log 12). -/
def Obligations.EveryStepKeepsTheNoiseStateBounded : Prop :=
  ∀ s t : State, NoiseBounded s → (∀ u ∈ s.rnd, inUnit s.fmt (toWidth s.fmt u) = true) → step s = .next t → NoiseBounded t

/-! The arithmetic of the `IEEE` profile. -/

/-- 40_numerics.md R65: `fadd` and `fsub` return the exact result rounded once, roundTiesToEven. -/
def Obligations.AddAndSubRoundTheExactResult : Prop :=
  ∀ (fmt : Fmt) (x y : Word), isFinite fmt x = true → isFinite fmt y = true →
    RoundsTo fmt (valueOf fmt x + valueOf fmt y) (fadd fmt x y) ∧ RoundsTo fmt (valueOf fmt x - valueOf fmt y) (fsub fmt x y)

/-- 40_numerics.md R65: `fmul` and `fdiv` (divisor not zero) return the exact result rounded once, roundTiesToEven, underflow gradual. -/
def Obligations.MulAndDivRoundTheExactResult : Prop :=
  ∀ (fmt : Fmt) (x y : Word), isFinite fmt x = true → isFinite fmt y = true →
    RoundsTo fmt (valueOf fmt x * valueOf fmt y) (fmul fmt x y) ∧
    (isZero fmt y = false → RoundsTo fmt (valueOf fmt x / valueOf fmt y) (fdiv fmt x y))

/-- 40_numerics.md R66, R70: the special cases of `fadd` and `fsub`. The sums of an infinity and a finite value or an infinity of its own sign, which
R66 does not name, are that infinity, as in the table of 42_naive_waveforms.md R106. -/
def Obligations.AddAndSubSpecialCases : Prop :=
  ∀ (fmt : Fmt) (x y : Word),
    fadd fmt x y = fadd fmt y x ∧
    fsub fmt x y = fadd fmt x (flipSign fmt y) ∧
    (isFinite fmt x = true → isFinite fmt y = true → sunits fmt x + sunits fmt y = 0 → negOf fmt x ≠ negOf fmt y →
      fadd fmt x y = zeroWord fmt false) ∧
    (isFinite fmt x = true → fsub fmt x x = zeroWord fmt false) ∧
    fadd fmt (zeroWord fmt false) (zeroWord fmt false) = zeroWord fmt false ∧
    fadd fmt (zeroWord fmt true) (zeroWord fmt true) = zeroWord fmt true ∧
    fadd fmt (zeroWord fmt false) (zeroWord fmt true) = zeroWord fmt false ∧
    fadd fmt (infWord fmt false) (infWord fmt true) = canonNaN fmt ∧
    fsub fmt (infWord fmt false) (infWord fmt false) = canonNaN fmt ∧
    (isInf fmt x = true → isNaN fmt y = false → (isInf fmt y = true → negOf fmt y = negOf fmt x) →
      fadd fmt x y = infWord fmt (negOf fmt x)) ∧
    (isNaN fmt x = true ∨ isNaN fmt y = true → fadd fmt x y = canonNaN fmt ∧ fsub fmt x y = canonNaN fmt)

/-- 40_numerics.md R67, R68, R70: signs and special cases of `fmul` and `fdiv`; a NaN operand gives the canonical NaN; no division stops the
machine. The products and quotients of an infinity that R67 and R68 do not name are those of 70_reset_and_hazards.md R169 and
42_naive_waveforms.md R106: a zero for a finite value by an infinity, an infinity for the others. -/
def Obligations.MulAndDivSpecialCases : Prop :=
  ∀ (fmt : Fmt) (x y : Word),
    let neg := negOf fmt x != negOf fmt y
    (isNaN fmt x = true ∨ isNaN fmt y = true → fmul fmt x y = canonNaN fmt ∧ fdiv fmt x y = canonNaN fmt) ∧
    (isNaN fmt (fmul fmt x y) = false → negOf fmt (fmul fmt x y) = neg) ∧
    (isZero fmt x = true → isInf fmt y = true → fmul fmt x y = canonNaN fmt ∧ fmul fmt y x = canonNaN fmt) ∧
    (isInf fmt x = true → isNaN fmt y = false → isZero fmt y = false →
      fmul fmt x y = infWord fmt neg ∧ fmul fmt y x = infWord fmt neg) ∧
    (isInf fmt x = true → isFinite fmt y = true → fdiv fmt x y = infWord fmt neg) ∧
    (isFinite fmt x = true → isInf fmt y = true → fdiv fmt x y = zeroWord fmt neg) ∧
    (isFinite fmt x = true → isZero fmt x = false → isZero fmt y = true → fdiv fmt x y = infWord fmt neg) ∧
    (isZero fmt x = true → isZero fmt y = true → fdiv fmt x y = canonNaN fmt) ∧
    (isInf fmt x = true → isInf fmt y = true → fdiv fmt x y = canonNaN fmt) ∧
    (isZero fmt x = true → isFinite fmt y = true → isZero fmt y = false → fdiv fmt x y = zeroWord fmt neg)

/-- 40_numerics.md R69: comparisons compare real values, an infinity standing below or above them all (as the table of 42_naive_waveforms.md R106 has
it); the two zeros are equal, and every comparison with a NaN is false. -/
def Obligations.ComparisonsFollowTheRealValues : Prop :=
  ∀ (fmt : Fmt) (x y : Word),
    let value : Word → EReal := fun z =>
      if isInf fmt z then (if negOf fmt z then ⊥ else ⊤) else (((valueOf fmt z : ℚ) : ℝ) : EReal)
    (isNaN fmt x = false → isNaN fmt y = false →
      (flt fmt x y = true ↔ value x < value y) ∧ (fgt fmt x y = true ↔ value x > value y) ∧ (fge fmt x y = true ↔ value x ≥ value y)) ∧
    flt fmt (zeroWord fmt true) (zeroWord fmt false) = false ∧ fge fmt (zeroWord fmt true) (zeroWord fmt false) = true ∧
    (isNaN fmt x = true ∨ isNaN fmt y = true → flt fmt x y = false ∧ fgt fmt x y = false ∧ fge fmt x y = false)

/-- 40_numerics.md R72, R73: `ftrunc` and `frac` of a finite value are exact, truncation is toward zero, an integer of either sign has fraction
`+0.0`; an infinity is its own truncation, that of a NaN is the canonical NaN, and both have fraction NaN. -/
def Obligations.FracIsExactAndTowardZero : Prop :=
  ∀ (fmt : Fmt) (sin : Word → Word) (x : Word),
    (isFinite fmt x = true →
      let v := valueOf fmt x
      let whole : ℚ := if 0 ≤ v then (⌊v⌋ : ℚ) else (⌈v⌉ : ℚ)
      isFinite fmt (ftrunc fmt x) = true ∧ valueOf fmt (ftrunc fmt x) = whole ∧ negOf fmt (ftrunc fmt x) = negOf fmt x ∧
      isFinite fmt (frac (ieee fmt sin) x) = true ∧ valueOf fmt (frac (ieee fmt sin) x) = v - whole ∧
      (v = whole → frac (ieee fmt sin) x = zeroWord fmt false)) ∧
    (isFinite fmt x = false → frac (ieee fmt sin) x = canonNaN fmt) ∧
    (isInf fmt x = true → ftrunc fmt x = toWidth fmt x) ∧
    (isNaN fmt x = true → ftrunc fmt x = canonNaN fmt)

/-- 40_numerics.md R78, R79: every constant's bit pattern, in both formats, is its decimal literal rounded to nearest, ties to even. -/
def Obligations.ConstantsAreTheRoundedLiterals : Prop :=
  ∀ (fmt : Fmt) (c : Const),
    constBits fmt c = ofDecimal fmt (constLiteral c).1 (constLiteral c).2.1 (constLiteral c).2.2

/-- 40_numerics.md R79: a decimal literal denotes the value of `F` nearest to its exact decimal value, ties to even. That a literal from the midpoint
above the largest finite value on denotes the infinity of its sign is the model's choice (log 16, DESIGN CHOICE). -/
def Obligations.DecimalLiteralsRoundToNearest : Prop :=
  ∀ (fmt : Fmt) (digits places : ℕ),
    RoundsTo fmt ((digits : ℚ) / 10 ^ places) (ofDecimal fmt false digits places) ∧
    RoundsTo fmt (-((digits : ℚ) / 10 ^ places)) (ofDecimal fmt true digits places)

/-! The phase accumulator, the engines and the corrector. -/

/-- 41_oscillator_control.md R94: if `0 ≤ ph < 1` and `0 ≤ d < 1` then `0 ≤ ACCUM(ph, d) < 1`, in the `IEEE` profile (both formats) and in the `IDEAL`
profile. -/
def Obligations.AccumulatorKeepsTheUnitInterval : Prop :=
  (∀ (fmt : Fmt) (sin : Word → Word) (ph d : Word), inUnit fmt ph = true → inUnit fmt d = true →
    inUnit fmt (accum (ieee fmt sin) ph d) = true) ∧
  (∀ ph d : ℝ, 0 ≤ ph → ph < 1 → 0 ≤ d → d < 1 → 0 ≤ accum idealNum ph d ∧ accum idealNum ph d < 1)

/-- 70_reset_and_hazards.md R168: for `hz` and `sr` with `0 ≤ hz < sr`, `0 ≤ fdiv(hz, sr) < 1`, in the `IEEE` profile for finite operands and rounding
included, and in `IDEAL`. -/
def Obligations.IncrementOfAGoodRateIsBelowOne : Prop :=
  (∀ (fmt : Fmt) (sr hz : Word), goodRate fmt sr hz = true → inUnit fmt (fdiv fmt hz sr) = true) ∧
  (∀ sr hz : ℝ, 0 ≤ hz → hz < sr → 0 ≤ idealNum.div hz sr ∧ idealNum.div hz sr < 1)

/-- 42_naive_waveforms.md R105, 41_oscillator_control.md R98: on [0, 1) the saw is in [-1, 1), the square is one of its two constants, the triangle is in
[-1, 1], and so is the sine: in the `IEEE` profile, whatever the sine unit of this hardware, and in `IDEAL`. -/
def Obligations.NaiveEnginesStayInTheirRange : Prop :=
  (∀ (fmt : Fmt) (tol : Option Rat) (p : Word), inUnit fmt p = true →
    (fge fmt (saw (hw fmt tol) p) (constBits fmt .negOne) = true ∧ flt fmt (saw (hw fmt tol) p) (constBits fmt .one) = true) ∧
    (square (hw fmt tol) p = constBits fmt .one ∨ square (hw fmt tol) p = constBits fmt .negOne) ∧
    inSignedUnit fmt (triangle (hw fmt tol) p) = true ∧
    inSignedUnit fmt (sine (hw fmt tol) p) = true) ∧
  (∀ p : ℝ, 0 ≤ p → p < 1 →
    (-1 ≤ saw idealNum p ∧ saw idealNum p < 1) ∧ (square idealNum p = 1 ∨ square idealNum p = -1) ∧
    |triangle idealNum p| ≤ 1 ∧ |sine idealNum p| ≤ 1)

/-- 40_numerics.md R76, R77, 42_naive_waveforms.md R101: the sine unit of this hardware has the five named properties, `SIN_APPROX` with the tolerance
of 00_scope.md R7 or any smaller or larger one that the parameter gives and that can be met at all, as every one from the error budget of R76 on
can; so `SINE(+0.0) = +0.0`, `SINE` is within the tolerance of the real sine on [0, 1), and of 1, 0 and -1 at the phases 1/4, 1/2 and 3/4. That a
parameter which no function meets leaves the tolerance of R7 is the model's choice (log 4). -/
def Obligations.SineUnitHasTheNamedProperties : Prop :=
  ∀ (fmt : Fmt) (tol : Option Rat),
    let t := sinTolOf fmt tol
    let bound : ℝ := ((t : ℚ) : ℝ)
    let out : Word → ℝ := fun p => ((valueOf fmt (sine (hw fmt tol) p) : ℚ) : ℝ)
    (sinTolOf fmt none = fmt.sinTol ∧ ∀ r, sinTolOf fmt (some r) = r) ∧
    (sineBudget fmt ≤ t ∨ (∃ sin, SinProperties fmt t sin) →
      SinProperties fmt t (hw fmt tol).sin ∧
      sine (hw fmt tol) (constBits fmt .zero) = constBits fmt .zero ∧
      ∀ p, inUnit fmt p = true →
        |out p - Real.sin (2 * Real.pi * ((valueOf fmt p : ℚ) : ℝ))| ≤ bound ∧
        (valueOf fmt p = 1 / 4 → |out p - 1| ≤ bound) ∧
        (valueOf fmt p = 1 / 2 → |out p| ≤ bound) ∧
        (valueOf fmt p = 3 / 4 → |out p + 1| ≤ bound)) ∧
    ((∀ sin, ¬ SinProperties fmt t sin) → SinProperties fmt fmt.sinTol (hw fmt tol).sin)

/-- 40_numerics.md R76: the five named properties of the sine primitive can all be met at once, in both formats, and with the error budget of the
rule, which is below the tolerance of R7: `4.8e-7` and `8.1e-16` have room for the rounding of `K_TWO_PI`, of the product, and for any
sine unit within `2 ^ -precision` of the real sine of its operand. -/
def Obligations.NamedSinePropertiesCanBeMet : Prop :=
  ∀ fmt : Fmt,
    sineBudget fmt < fmt.sinTol ∧
    (∀ sin : Word → Word, (∀ x, fits fmt (sin x) = true) → (∀ x, sin x = sin (toWidth fmt x)) →
      (∀ x, isFinite fmt x = true → inSignedUnit fmt (sin x) = true) → sin (zeroWord fmt false) = zeroWord fmt false →
      (∀ x, (isNaN fmt x || isInf fmt x) = true → sin x = canonNaN fmt) →
      (∀ x, isFinite fmt x = true → |valueOf fmt x| ≤ 7 →
        |((valueOf fmt (sin x) : ℚ) : ℝ) - Real.sin ((valueOf fmt x : ℚ) : ℝ)| ≤ (1 / 2) ^ fmt.precision) →
      SinProperties fmt (sineBudget fmt) sin) ∧
    ∃ sin : Word → Word, SinProperties fmt (sineBudget fmt) sin

/-- 43_polyblep.md R111: the exact boundary phases `d` and `fsub(1, d)` yield zero correction, in both profiles. Stated for `0 < d ≤ 1/2`: for a larger
`d` the formula of R110 puts them inside a window (log 11). -/
def Obligations.BlepIsZeroAtItsBoundaries : Prop :=
  (∀ (fmt : Fmt) (sin : Word → Word) (d : Word), flt fmt (constBits fmt .zero) d = true → fge fmt (constBits fmt .half) d = true →
    blep (ieee fmt sin) d d = zeroWord fmt false ∧
    blep (ieee fmt sin) (fsub fmt (constBits fmt .one) d) d = zeroWord fmt false) ∧
  (∀ d : ℝ, 0 < d → d ≤ 1 / 2 → blep idealNum d d = 0 ∧ blep idealNum (1 - d) d = 0)

/-- 43_polyblep.md R113: at phase 0 (in `IEEE` of either sign) the corrector is exactly -1.0 for every width `d > 0`, in both profiles. -/
def Obligations.BlepAtPhaseZeroIsMinusOne : Prop :=
  (∀ (fmt : Fmt) (sin : Word → Word) (p d : Word), isZero fmt p = true → flt fmt (constBits fmt .zero) d = true →
    blep (ieee fmt sin) p d = constBits fmt .negOne) ∧
  (∀ d : ℝ, 0 < d → blep idealNum 0 d = -1)

/-- 43_polyblep.md R114: for a phase in [0, 1) and a width that is a zero, negative or NaN the corrector is `+0.0`; in the `IDEAL` profile no division by
zero is ever evaluated for a phase in [0, 1). For a negative phase and width zero it has no value in `IDEAL`, and in `IEEE` is `-inf` for `+0.0`
(for `-0.0` the formula gives NaN: log 13). -/
def Obligations.BlepWithoutAWindowIsZero : Prop :=
  (∀ (fmt : Fmt) (sin : Word → Word) (p d : Word), inUnit fmt p = true →
    (isNaN fmt d = true ∨ fge fmt (constBits fmt .zero) d = true) → blep (ieee fmt sin) p d = zeroWord fmt false) ∧
  (∀ (fmt : Fmt) (sin : Word → Word) (p : Word), flt fmt p (constBits fmt .zero) = true →
    blep (ieee fmt sin) p (zeroWord fmt false) = infWord fmt true ∧ blep (ieee fmt sin) p (zeroWord fmt true) = canonNaN fmt) ∧
  (∀ p d : ℝ, 0 ≤ p → p < 1 → ¬ blepDividesByZero p d) ∧
  (∀ p : ℝ, p < 0 → blepDividesByZero p 0)

/-- 44_noise.md R126: for `u` in [0, 1) the white value is in [-1, 1), in the `IEEE` profile, rounding included, and in `IDEAL`. -/
def Obligations.WhiteRemapIsBelowOne : Prop :=
  (∀ (fmt : Fmt) (sin : Word → Word) (u : Word), inUnit fmt u = true →
    fge fmt (white (ieee fmt sin) u) (constBits fmt .negOne) = true ∧ flt fmt (white (ieee fmt sin) u) (constBits fmt .one) = true) ∧
  (∀ u : ℝ, 0 ≤ u → u < 1 → -1 ≤ white idealNum u ∧ white idealNum u < 1)

/-- 44_noise.md R138, 40_numerics.md R70: a NaN random value makes the pink and brown state NaN, and it stays NaN under every later update; the sample
is NaN; and every NaN so made is the canonical one. -/
def Obligations.NaNPoisonsTheNoiseState : Prop :=
  ∀ (fmt : Fmt) (sin : Word → Word) (u prev : Word) (b : Taps Word),
    let N := ieee fmt sin
    let all := fun x : Taps Word => isNaN fmt x.b0 && isNaN fmt x.b1 && isNaN fmt x.b2 && isNaN fmt x.b3 && isNaN fmt x.b4 && isNaN fmt x.b5
    (isNaN fmt u = true →
      white N u = canonNaN fmt ∧
      pinkTaps N b (white N u) = tapsOf (canonNaN fmt) ∧ pinkOut N (pinkTaps N b (white N u)) (white N u) = canonNaN fmt ∧
      brownPrev N prev (white N u) = canonNaN fmt ∧ brownOut N (brownPrev N prev (white N u)) = canonNaN fmt) ∧
    (all b = true → pinkTaps N b (white N u) = tapsOf (canonNaN fmt)) ∧
    (isNaN fmt prev = true → brownPrev N prev (white N u) = canonNaN fmt)

/-! The `IDEAL` profile. -/

/-- 44_noise.md R137: in `IDEAL`, with random values in [0, 1), a run of any number of `BROWN.NEXT` from reset completes and every sample is at most 3.5
in magnitude. -/
def Obligations.IdealBrownSamplesAreBounded : Prop :=
  ∀ us : List ℝ, (∀ u ∈ us, 0 ≤ u ∧ u < 1) →
    ∃ (t : IdealState) (vs : List ℝ), idealRun { idealReset with rnd := us } (us.map fun _ => .brownNext) = .next t ∧
      t.rsp = vs.map Response.sample ∧ vs.length = us.length ∧ ∀ v ∈ vs, |v| ≤ 7 / 2

/-- 44_noise.md R133: in `IDEAL`, with random values in [0, 1), a run of any number of `PINK.NEXT` from reset completes and every sample is at most 7.60 in
magnitude. -/
def Obligations.IdealPinkSamplesAreBounded : Prop :=
  ∀ us : List ℝ, (∀ u ∈ us, 0 ≤ u ∧ u < 1) →
    ∃ (t : IdealState) (vs : List ℝ), idealRun { idealReset with rnd := us } (us.map fun _ => .pinkNext) = .next t ∧
      t.rsp = vs.map Response.sample ∧ vs.length = us.length ∧ ∀ v ∈ vs, |v| ≤ 760 / 100

/-- 43_polyblep.md R118, R119, R121: in `IDEAL` the bandlimited saw lies in [-1, 1] for `0 < d ≤ 1`, and the bandlimited square for `0 < d ≤ 1/4`. -/
def Obligations.IdealBandlimitedSamplesAreBounded : Prop :=
  ∀ p d : ℝ, 0 ≤ p → p < 1 → 0 < d →
    (d ≤ 1 → |blSaw idealNum p d| ≤ 1) ∧ (d ≤ 1 / 4 → |blSquare idealNum p d| ≤ 1)

/-- 41_oscillator_control.md R97 item 1: in `IDEAL`, advancing the phase by one full cycle (`N` samples with `N * S.INC = 1`, `0 ≤ S.INC < 1`) gives the
starting phase back. -/
def Obligations.IdealPhaseIsPeriodic : Prop :=
  ∀ (n : ℕ) (ph d : ℝ), 0 ≤ ph → ph < 1 → 0 ≤ d → d < 1 → n * d = 1 → (fun x => accum idealNum x d)^[n] ph = ph

/-- 95_test_vectors.md S1, P1: in `IDEAL`, sample rate 4, frequency 1, Sine yields exactly 1, 0, -1, 0. -/
def Obligations.IdealSineScenario : Prop :=
  ∃ t, idealRun idealReset [.oscNew .sine .naive 4 1, .oscNext, .oscNext, .oscNext, .oscNext] = .next t ∧
    t.rsp = [.ack, .sample 1, .sample 0, .sample (-1), .sample 0]

/-- 43_polyblep.md R115: in `IDEAL` the correction integrates to zero over its two windows: `-d/3` after the step and `d/3` before it. -/
def Obligations.IdealCorrectionIntegratesToZero : Prop :=
  ∀ d : ℝ, 0 < d → d ≤ 1 / 2 →
    (∫ p in (0 : ℝ)..d, blep idealNum p d) = -(d / 3) ∧ (∫ p in (1 - d)..1, blep idealNum p d) = d / 3
end

