-- ==== Sys2Proof/Laws/State.lean ====
section
/-! SUPPORT. What each named update of the state does to each field: one lemma per field per update, so that no later proof unfolds a record
update. -/

namespace Sys2Proof.Machine

/-- The hardware's number system is an `IEEE` one: the lemmas of Formulas.lean on `ieee` apply to it. -/
theorem hw_eq (fmt : Fmt) (tol : Option Rat) : hw fmt tol = ieee fmt (sineUnit fmt tol).1 := rfl

theorem num_eq (s : State) : s.num = ieee s.fmt (sineUnit s.fmt s.sinTol).1 := rfl

@[simp] theorem respond_fmt (r : Response Word) (s : State) : (respond r s).fmt = s.fmt := rfl
@[simp] theorem respond_sinTol (r : Response Word) (s : State) : (respond r s).sinTol = s.sinTol := rfl
@[simp] theorem respond_num (r : Response Word) (s : State) : (respond r s).num = s.num := rfl
@[simp] theorem respond_osc (r : Response Word) (s : State) : (respond r s).osc = s.osc := rfl
@[simp] theorem respond_taps (r : Response Word) (s : State) : (respond r s).taps = s.taps := rfl
@[simp] theorem respond_prev (r : Response Word) (s : State) : (respond r s).prev = s.prev := rfl
@[simp] theorem respond_ill (r : Response Word) (s : State) : (respond r s).ill = s.ill := rfl
@[simp] theorem respond_unc (r : Response Word) (s : State) : (respond r s).unc = s.unc := rfl
@[simp] theorem respond_inflight (r : Response Word) (s : State) : (respond r s).inflight = s.inflight := rfl
@[simp] theorem respond_host (r : Response Word) (s : State) : (respond r s).host = s.host := rfl
@[simp] theorem respond_rnd (r : Response Word) (s : State) : (respond r s).rnd = s.rnd := rfl
@[simp] theorem respond_rsp (r : Response Word) (s : State) : (respond r s).rsp = s.rsp ++ [rspWord s.fmt r] := rfl

@[simp] theorem setSticky_fmt (c : FaultCode) (s : State) : (setSticky c s).fmt = s.fmt := by cases c <;> rfl
@[simp] theorem setSticky_sinTol (c : FaultCode) (s : State) : (setSticky c s).sinTol = s.sinTol := by cases c <;> rfl
@[simp] theorem setSticky_num (c : FaultCode) (s : State) : (setSticky c s).num = s.num := by cases c <;> rfl
@[simp] theorem setSticky_osc (c : FaultCode) (s : State) : (setSticky c s).osc = s.osc := by cases c <;> rfl
@[simp] theorem setSticky_taps (c : FaultCode) (s : State) : (setSticky c s).taps = s.taps := by cases c <;> rfl
@[simp] theorem setSticky_prev (c : FaultCode) (s : State) : (setSticky c s).prev = s.prev := by cases c <;> rfl
@[simp] theorem setSticky_ill (c : FaultCode) (s : State) : (setSticky c s).ill = (s.ill || decide (c = .ill)) := by cases c <;> simp [setSticky]
@[simp] theorem setSticky_unc (c : FaultCode) (s : State) : (setSticky c s).unc = (s.unc || decide (c = .unc)) := by cases c <;> simp [setSticky]
@[simp] theorem setSticky_inflight (c : FaultCode) (s : State) : (setSticky c s).inflight = s.inflight := by cases c <;> rfl
@[simp] theorem setSticky_host (c : FaultCode) (s : State) : (setSticky c s).host = s.host := by cases c <;> rfl
@[simp] theorem setSticky_rnd (c : FaultCode) (s : State) : (setSticky c s).rnd = s.rnd := by cases c <;> rfl
@[simp] theorem setSticky_rsp (c : FaultCode) (s : State) : (setSticky c s).rsp = s.rsp := by cases c <;> rfl

@[simp] theorem raiseFault_fmt (c : FaultCode) (s : State) : (raiseFault c s).fmt = s.fmt := by simp [raiseFault]
@[simp] theorem raiseFault_sinTol (c : FaultCode) (s : State) : (raiseFault c s).sinTol = s.sinTol := by simp [raiseFault]
@[simp] theorem raiseFault_num (c : FaultCode) (s : State) : (raiseFault c s).num = s.num := by simp [raiseFault]
@[simp] theorem raiseFault_osc (c : FaultCode) (s : State) : (raiseFault c s).osc = s.osc := by simp [raiseFault]
@[simp] theorem raiseFault_taps (c : FaultCode) (s : State) : (raiseFault c s).taps = s.taps := by simp [raiseFault]
@[simp] theorem raiseFault_prev (c : FaultCode) (s : State) : (raiseFault c s).prev = s.prev := by simp [raiseFault]
@[simp] theorem raiseFault_ill (c : FaultCode) (s : State) : (raiseFault c s).ill = (s.ill || decide (c = .ill)) := by simp [raiseFault]
@[simp] theorem raiseFault_unc (c : FaultCode) (s : State) : (raiseFault c s).unc = (s.unc || decide (c = .unc)) := by simp [raiseFault]
@[simp] theorem raiseFault_inflight (c : FaultCode) (s : State) : (raiseFault c s).inflight = s.inflight := by simp [raiseFault]
@[simp] theorem raiseFault_host (c : FaultCode) (s : State) : (raiseFault c s).host = s.host := by simp [raiseFault]
@[simp] theorem raiseFault_rnd (c : FaultCode) (s : State) : (raiseFault c s).rnd = s.rnd := by simp [raiseFault]
@[simp] theorem raiseFault_rsp (c : FaultCode) (s : State) : (raiseFault c s).rsp = s.rsp ++ [rspWord s.fmt (.err c)] := by simp [raiseFault]

@[simp] theorem hardReset_fmt (s : State) : (hardReset s).fmt = s.fmt := rfl
@[simp] theorem hardReset_sinTol (s : State) : (hardReset s).sinTol = s.sinTol := rfl
@[simp] theorem hardReset_num (s : State) : (hardReset s).num = s.num := rfl
@[simp] theorem hardReset_osc (s : State) : (hardReset s).osc = none := rfl
@[simp] theorem hardReset_taps (s : State) : (hardReset s).taps = tapsOf 0 := rfl
@[simp] theorem hardReset_prev (s : State) : (hardReset s).prev = 0 := rfl
@[simp] theorem hardReset_ill (s : State) : (hardReset s).ill = false := rfl
@[simp] theorem hardReset_unc (s : State) : (hardReset s).unc = false := rfl
@[simp] theorem hardReset_inflight (s : State) : (hardReset s).inflight = none := rfl
@[simp] theorem hardReset_host (s : State) : (hardReset s).host = s.host := rfl
@[simp] theorem hardReset_rnd (s : State) : (hardReset s).rnd = s.rnd := rfl
@[simp] theorem hardReset_rsp (s : State) : (hardReset s).rsp = s.rsp := rfl

@[simp] theorem resetAt_fmt (fmt : Fmt) : (State.resetAt fmt).fmt = fmt := rfl
@[simp] theorem resetAt_sinTol (fmt : Fmt) : (State.resetAt fmt).sinTol = none := rfl
@[simp] theorem resetAt_num (fmt : Fmt) : (State.resetAt fmt).num = hw fmt none := rfl
@[simp] theorem resetAt_osc (fmt : Fmt) : (State.resetAt fmt).osc = none := rfl
@[simp] theorem resetAt_taps (fmt : Fmt) : (State.resetAt fmt).taps = tapsOf 0 := rfl
@[simp] theorem resetAt_prev (fmt : Fmt) : (State.resetAt fmt).prev = 0 := rfl
@[simp] theorem resetAt_ill (fmt : Fmt) : (State.resetAt fmt).ill = false := rfl
@[simp] theorem resetAt_unc (fmt : Fmt) : (State.resetAt fmt).unc = false := rfl
@[simp] theorem resetAt_inflight (fmt : Fmt) : (State.resetAt fmt).inflight = none := rfl
@[simp] theorem resetAt_host (fmt : Fmt) : (State.resetAt fmt).host = [] := rfl
@[simp] theorem resetAt_rnd (fmt : Fmt) : (State.resetAt fmt).rnd = [] := rfl
@[simp] theorem resetAt_rsp (fmt : Fmt) : (State.resetAt fmt).rsp = [] := rfl

end Sys2Proof.Machine
end

