-- ==== Sys2Proof/Laws/Commands.lean ====
section
/-! SUPPORT. What a command can do, said once for each kind of state: the shared operations first, then `exec`, whose next state is
read off field by field. Provers cite these and do not unfold the meanings. -/

namespace Sys2Proof.Machine

/-- Every response word is of one of the three kinds, and a host reads in it what was answered, to `W` bits (30_encoding.md R46). -/
theorem readRsp_rspWord (fmt : Fmt) (r : Response Word) :
    readRsp fmt (rspWord fmt r) = some (match r with
      | .ack => .ack
      | .sample v => .sample (toWidth fmt v)
      | .err c => .err c) := by
  cases r with
  | ack => cases fmt <;> rfl
  | err c => cases fmt <;> cases c <;> rfl
  | sample v =>
    have hlt : v.toNat % 2 ^ fmt.width < 2 ^ fmt.width := Nat.mod_lt _ (Nat.two_pow_pos _)
    have hn : (rspWord fmt (.sample v)).toNat = 2 ^ fmt.width + v.toNat % 2 ^ fmt.width := by
      simp only [rspWord, bitsOf, BitVec.toNat_ofNat, one_mul]
      apply Nat.mod_eq_of_lt
      cases fmt <;> simp only [Fmt.width] at * <;> omega
    have hk : (rspWord fmt (.sample v)).toNat / 2 ^ fmt.width = 1 := by
      rw [hn, Nat.add_div_left _ (Nat.two_pow_pos _), Nat.div_eq_of_lt hlt]
    have hd : (rspWord fmt (.sample v)).toNat % 2 ^ fmt.width = v.toNat % 2 ^ fmt.width := by
      rw [hn, Nat.add_mod_left, Nat.mod_eq_of_lt hlt]
    simp [readRsp, hk, hd, toWidth]

@[simp] theorem withOsc_none {s : State} (k : Osc Word → State) (h : s.osc = none) : withOsc s k = .next (raiseFault .unc s) := by
  simp [withOsc, h]

@[simp] theorem withOsc_some {s : State} {o : Osc Word} (k : Osc Word → State) (h : s.osc = some o) :
    withOsc s k = .next (k o) := by
  simp [withOsc, h]

@[simp] theorem withRandom_nil {i : Instr} {s : State} (k : Word → State → State) (h : s.rnd = []) :
    withRandom i s k = .next { s with inflight := some i } := by
  simp [withRandom, h]

@[simp] theorem withRandom_cons {i : Instr} {s : State} {u : Word} {rest : List Word} (k : Word → State → State)
    (h : s.rnd = u :: rest) : withRandom i s k = .next (k (toWidth s.fmt u) { s with rnd := rest }) := by
  simp [withRandom, h]

/-- What an operation that needs an oscillator can do. -/
theorem withOsc_next {s t : State} {k : Osc Word → State} (h : withOsc s k = .next t) :
    (s.osc = none ∧ t = raiseFault .unc s) ∨ ∃ o, s.osc = some o ∧ t = k o := by
  unfold withOsc at h
  split at h <;> rename_i ho
  · exact .inl ⟨ho, by simpa using h.symm⟩
  · exact .inr ⟨_, ho, by simpa using h.symm⟩

/-- What an operation that takes a random value can do. -/
theorem withRandom_next {i : Instr} {s t : State} {k : Word → State → State} (h : withRandom i s k = .next t) :
    (s.rnd = [] ∧ t = { s with inflight := some i }) ∨
      ∃ u rest, s.rnd = u :: rest ∧ t = k (toWidth s.fmt u) { s with rnd := rest } := by
  unfold withRandom at h
  split at h <;> rename_i hr
  · exact .inl ⟨hr, by simpa using h.symm⟩
  · exact .inr ⟨_, _, hr, by simpa using h.symm⟩

/-- The oscillator after a command. -/
def oscAfter (N : NumSys Word) (i : Instr) (osc : Option (Osc Word)) : Option (Osc Word) :=
  match i with
  | .oscNew wf bl sr hz => some (newOsc N wf bl sr hz)
  | .oscSetf hz => osc.map fun o => { o with inc := N.div hz o.sr }
  | .oscSetp p => osc.map fun o => { o with phase := frac N p }
  | .oscRst => osc.map fun o => { o with phase := N.k .zero }
  | .oscNext => osc.map (advance N)
  | .oscBlep _ => osc
  | .whiteNext => osc
  | .pinkNew => osc
  | .pinkNext => osc
  | .brownNew => osc
  | .brownNext => osc

/-- The pink taps after a command, given the random values present. -/
def tapsAfter (fmt : Fmt) (N : NumSys Word) (i : Instr) (b : Taps Word) (rnd : List Word) : Taps Word :=
  match i, rnd with
  | .pinkNew, _ => tapsOf (N.k .zero)
  | .pinkNext, u :: _ => pinkTaps N b (white N (toWidth fmt u))
  | _, _ => b

/-- The brown accumulator after a command, given the random values present. -/
def prevAfter (fmt : Fmt) (N : NumSys Word) (i : Instr) (prev : Word) (rnd : List Word) : Word :=
  match i, rnd with
  | .brownNew, _ => N.k .zero
  | .brownNext, u :: _ => brownPrev N prev (white N (toWidth fmt u))
  | _, _ => prev

/-- The response of a command that does not wait. -/
def responseOf (fmt : Fmt) (N : NumSys Word) (i : Instr) (osc : Option (Osc Word)) (b : Taps Word) (prev : Word) (rnd : List Word) : Response Word :=
  let u := toWidth fmt (rnd.headD 0)
  match i with
  | .oscNew _ _ _ _ => .ack
  | .oscSetf _ => if osc.isSome then .ack else .err .unc
  | .oscSetp _ => if osc.isSome then .ack else .err .unc
  | .oscRst => if osc.isSome then .ack else .err .unc
  | .oscNext =>
    match osc with
    | some o => .sample (oscSample N (advance N o))
    | none => .err .unc
  | .oscBlep p =>
    match osc with
    | some o => .sample (blep N p o.inc)
    | none => .err .unc
  | .whiteNext => .sample (white N u)
  | .pinkNew => .ack
  | .pinkNext => .sample (pinkOut N (pinkTaps N b (white N u)) (white N u))
  | .brownNew => .ack
  | .brownNext => .sample (brownOut N (brownPrev N prev (white N u)))

/-- Whether a command faults with `UNC` while there is no oscillator (60_exceptions.md R149). -/
def needsOsc : Instr → Bool
  | .oscNew _ _ _ _ => false
  | .oscSetf _ => true
  | .oscSetp _ => true
  | .oscRst => true
  | .oscNext => true
  | .oscBlep _ => true
  | .whiteNext => false
  | .pinkNew => false
  | .pinkNext => false
  | .brownNew => false
  | .brownNext => false

/-- `exec` in full: a noise sample command with no random value waits; every other command completes, and its next state is given field
by field. -/
theorem exec_eq (i : Instr) (s : State) :
    exec i s = .next
      (if takesRandom i = true ∧ s.rnd = [] then { s with inflight := some i }
       else
        { s with
          osc := oscAfter s.num i s.osc
          taps := tapsAfter s.fmt s.num i s.taps s.rnd
          prev := prevAfter s.fmt s.num i s.prev s.rnd
          unc := s.unc || (needsOsc i && s.osc.isNone)
          rnd := if takesRandom i then s.rnd.tail else s.rnd
          rsp := s.rsp ++ [rspWord s.fmt (responseOf s.fmt s.num i s.osc s.taps s.prev s.rnd)] }) := by
  obtain ⟨fmt, sinTol, osc, taps, prev, ill, unc, inflight, host, rnd, rsp⟩ := s
  cases i <;> cases osc <;> cases rnd <;>
    simp [exec, execOscNew, execOscSetf, execOscSetp, execOscRst, execOscNext, execOscBlep, execWhiteNext, execPinkNew,
      execPinkNext, execBrownNew, execBrownNext, withOsc, withRandom, raiseFault, respond, setSticky, takesRandom, needsOsc,
      oscAfter, tapsAfter, prevAfter, responseOf, State.num]

/-- No command stops the machine. -/
theorem exec_next (i : Instr) (s : State) : ∃ t, exec i s = .next t := ⟨_, exec_eq i s⟩

/-- What a command leaves, when it answers a next state. -/
theorem exec_cases {i : Instr} {s t : State} (h : exec i s = .next t) :
    (takesRandom i = true ∧ s.rnd = [] ∧ t = { s with inflight := some i }) ∨
      (¬(takesRandom i = true ∧ s.rnd = []) ∧ t = { s with
          osc := oscAfter s.num i s.osc
          taps := tapsAfter s.fmt s.num i s.taps s.rnd
          prev := prevAfter s.fmt s.num i s.prev s.rnd
          unc := s.unc || (needsOsc i && s.osc.isNone)
          rnd := if takesRandom i then s.rnd.tail else s.rnd
          rsp := s.rsp ++ [rspWord s.fmt (responseOf s.fmt s.num i s.osc s.taps s.prev s.rnd)] }) := by
  rw [exec_eq] at h
  by_cases hw : takesRandom i = true ∧ s.rnd = []
  · rw [if_pos hw] at h
    exact .inl ⟨hw.1, hw.2, by simpa using h.symm⟩
  · rw [if_neg hw] at h
    exact .inr ⟨hw, by simpa using h.symm⟩

theorem exec_fmt {i : Instr} {s t : State} (h : exec i s = .next t) : t.fmt = s.fmt := by
  obtain ⟨-, -, rfl⟩ | ⟨-, rfl⟩ := exec_cases h <;> rfl

theorem exec_sinTol {i : Instr} {s t : State} (h : exec i s = .next t) : t.sinTol = s.sinTol := by
  obtain ⟨-, -, rfl⟩ | ⟨-, rfl⟩ := exec_cases h <;> rfl

theorem exec_num {i : Instr} {s t : State} (h : exec i s = .next t) : t.num = s.num := by
  rw [State.num, State.num, exec_fmt h, exec_sinTol h]

theorem exec_host {i : Instr} {s t : State} (h : exec i s = .next t) : t.host = s.host := by
  obtain ⟨-, -, rfl⟩ | ⟨-, rfl⟩ := exec_cases h <;> rfl

theorem exec_ill {i : Instr} {s t : State} (h : exec i s = .next t) : t.ill = s.ill := by
  obtain ⟨-, -, rfl⟩ | ⟨-, rfl⟩ := exec_cases h <;> rfl

/-- The oscillator after a command, waiting or not. -/
theorem exec_osc {i : Instr} {s t : State} (h : exec i s = .next t) : t.osc = oscAfter s.num i s.osc := by
  obtain ⟨hr, -, rfl⟩ | ⟨-, rfl⟩ := exec_cases h
  · cases i <;> simp [takesRandom] at hr <;> rfl
  · rfl

/-- The pink taps after a command, waiting or not. -/
theorem exec_taps {i : Instr} {s t : State} (h : exec i s = .next t) : t.taps = tapsAfter s.fmt s.num i s.taps s.rnd := by
  obtain ⟨hr, hn, rfl⟩ | ⟨-, rfl⟩ := exec_cases h
  · rw [hn]; cases i <;> simp [takesRandom] at hr <;> rfl
  · rfl

/-- The brown accumulator after a command, waiting or not. -/
theorem exec_prev {i : Instr} {s t : State} (h : exec i s = .next t) : t.prev = prevAfter s.fmt s.num i s.prev s.rnd := by
  obtain ⟨hr, hn, rfl⟩ | ⟨-, rfl⟩ := exec_cases h
  · rw [hn]; cases i <;> simp [takesRandom] at hr <;> rfl
  · rfl

@[simp] theorem execAll_nil (s : State) : execAll [] s = .next s := rfl

theorem execAll_cons {i : Instr} {is : List Instr} {s t : State} (h : exec i s = .next t) :
    execAll (i :: is) s = execAll is t := by
  simp [execAll, h]

/-- No list of commands stops the machine. -/
theorem execAll_next (is : List Instr) (s : State) : ∃ t, execAll is s = .next t := by
  induction is generalizing s with
  | nil => exact ⟨s, rfl⟩
  | cons i is ih =>
    obtain ⟨t, ht⟩ := exec_next i s
    obtain ⟨t', ht'⟩ := ih t
    exact ⟨t', by rw [execAll_cons ht, ht']⟩

/-- A step, by what stands first: the waiting command, nothing, a word, `rst`, or a word abandoned by `rst`. -/
theorem step_cases {s t : State} (h : step s = .next t) :
    (∃ i u rest, s.inflight = some i ∧ s.rnd = u :: rest ∧ exec i { s with inflight := none } = .next t) ∨
    (∃ i rest, s.inflight = some i ∧ s.rnd = [] ∧ s.host = .rst :: rest ∧ t = hardReset { s with host := rest }) ∨
    (s.inflight = none ∧ s.host = [] ∧ t = s) ∨
    (∃ w rest i, s.inflight = none ∧ s.host = .command w :: rest ∧ decode s.fmt w = .command i ∧
      exec i { s with host := rest } = .next t) ∨
    (∃ w rest why, s.inflight = none ∧ s.host = .command w :: rest ∧ decode s.fmt w = .reserved why ∧
      t = raiseFault .ill { s with host := rest }) ∨
    (∃ rest, s.inflight = none ∧ s.host = .rst :: rest ∧ t = hardReset { s with host := rest }) ∨
    (∃ w took rest, s.inflight = none ∧ s.host = .commandThenRst w took :: rest ∧
      t = hardReset { s with host := rest, rnd := rndAfterAbandon s.fmt w took s.rnd }) := by
  unfold step at h
  split at h
  · rename_i i hi
    unfold resumeInflight at h
    split at h
    · rename_i u rest hr
      exact .inl ⟨i, u, rest, hi, hr, h⟩
    · rename_i hr
      split at h
      · rename_i rest hh
        exact .inr (.inl ⟨i, rest, hi, hr, hh, by simpa using h.symm⟩)
      · simp at h
  · rename_i hi
    split at h
    · rename_i hh
      exact .inr (.inr (.inl ⟨hi, hh, by simpa using h.symm⟩))
    · rename_i e rest hh
      cases e with
      | command w =>
        simp only [acceptEvent, acceptWord] at h
        split at h
        · rename_i i hd
          exact .inr (.inr (.inr (.inl ⟨w, rest, i, hi, hh, hd, h⟩)))
        · rename_i why hd
          exact .inr (.inr (.inr (.inr (.inl ⟨w, rest, why, hi, hh, hd, by simpa using h.symm⟩))))
      | rst => exact .inr (.inr (.inr (.inr (.inr (.inl ⟨rest, hi, hh, by simpa [acceptEvent] using h.symm⟩)))))
      | commandThenRst w took =>
        exact .inr (.inr (.inr (.inr (.inr (.inr ⟨w, took, rest, hi, hh, by simpa [acceptEvent] using h.symm⟩)))))

end Sys2Proof.Machine
end

