-- ==== Sys2Proof/Laws/NoiseBounds.lean ====
section
/-! SUPPORT. One pink tap step within a bound: the condition on the constants is an evaluation (44_noise.md R133, log 12). -/

namespace Sys2Proof.Machine

/-- The word of the magnitude of `a`. -/
def magWord (fmt : Fmt) (a : Word) : Word := if negOf fmt a then flipSign fmt a else a

theorem Bounded.mag {fmt : Fmt} {a x : Word} (h : Bounded fmt a x) : Bounded fmt (magWord fmt a) x ∧ 0 ≤ sunits fmt (magWord fmt a) := by
  unfold magWord
  split_ifs with hn
  · refine ⟨⟨isFinite_flipSign.trans h.1, h.2.1, by rw [flipSign_finite.2, Int.natAbs_neg]; exact h.2.2⟩, ?_⟩
    rw [flipSign_finite.2]; simp [sunits, hn]
  · exact ⟨h, by simp [sunits, hn]⟩

/-- If the bound `B` survives one step at full scale, rounding included, every tap within `B` stays within it. -/
theorem within_tapStep {fmt : Fmt} {sin : Word → Word} {decay gain : Const} {B b w : Word} (hB : isFinite fmt B = true) (hB0 : 0 ≤ sunits fmt B)
    (hb : within fmt B b = true) (hw : inSignedUnit fmt w = true)
    (ha : isFinite fmt (fmul fmt (constBits fmt decay) B) = true)
    (hg : isFinite fmt (fmul fmt (constBits fmt .one) (constBits fmt gain)) = true)
    (hs : isFinite fmt (fadd fmt (magWord fmt (fmul fmt (constBits fmt decay) B))
      (magWord fmt (fmul fmt (constBits fmt .one) (constBits fmt gain)))) = true)
    (hle : sunits fmt (fadd fmt (magWord fmt (fmul fmt (constBits fmt decay) B))
      (magWord fmt (fmul fmt (constBits fmt .one) (constBits fmt gain)))) ≤ sunits fmt B) :
    within fmt B (tapStep (ieee fmt sin) decay gain b w) = true := by
  rw [within_iff_bounded hB hB0] at hb ⊢
  rw [inSignedUnit_iff_bounded] at hw
  have h1 : Bounded fmt _ (fmul fmt (constBits fmt decay) b) := Bounded.fmul (bounded_refl (isFinite_constBits fmt decay)) hb ha
  have h2 : Bounded fmt _ (fmul fmt w (constBits fmt gain)) := Bounded.fmul hw (bounded_refl (isFinite_constBits fmt gain)) hg
  obtain ⟨p1, p10⟩ := h1.mag
  obtain ⟨p2, p20⟩ := h2.mag
  rw [tapStep_ieee]
  have h3 := p1.fadd p2 p10 p20 hs
  refine h3.trans ⟨hB, isNaN_of_isFinite hs, ?_⟩
  have h4 := (fadd_finite p1.1 p2.1).2
  have h5 := signedRound_nonneg (fmt := fmt) (d := 1) (add_nonneg p10 p20)
  rw [← h4] at h5
  omega

end Sys2Proof.Machine
end

