-- ==== Sys2Proof/Laws/PerInstr.lean ====
section
/-! SUPPORT. A statement for every command: the encoding of a well-formed command is a word of exactly `CW` bits with the bit `z` zero
(30_encoding.md R45, R52). -/

namespace Sys2Proof.Laws.EncodedWidth

/-- The word of a well-formed command has no bit above `CW - 1` and `z = 0`. -/
def Statement (i : Instr) : Prop :=
  ∀ fmt : Fmt, i.wellFormed fmt = true → (encode fmt i).toNat < 2 ^ fmt.cmdWidth ∧ cmdField (encode fmt i) (2 * fmt.width) 1 = 0

/-- The one argument behind every case. -/
theorem packed {fmt : Fmt} {op wf bl a b : Nat} (hop : op < 16) (hwf : wf < 4) (hbl : bl < 2) (ha : a < 2 ^ fmt.width)
    (hb : b < 2 ^ fmt.width) :
    (packCmd fmt op wf bl a b).toNat < 2 ^ fmt.cmdWidth ∧ cmdField (packCmd fmt op wf bl a b) (2 * fmt.width) 1 = 0 := by
  refine ⟨?_, (fields_packCmd hop hwf hbl ha hb).2.2.2.1⟩
  rw [toNat_packCmd hop hwf hbl ha hb]
  cases fmt <;> simp only [Fmt.width, Fmt.cmdWidth] at * <;> omega

theorem oscNew (wf : Waveform) (bl : Mode) (sr hz : Word) : Statement (.oscNew wf bl sr hz) := by
  intro fmt h
  simp only [Instr.wellFormed, Bool.and_eq_true, fits_iff] at h
  exact packed (by decide) (wfCode_lt wf) (modeCode_lt bl) h.1 h.2

theorem oscSetf (hz : Word) : Statement (.oscSetf hz) := fun _ h =>
  packed (by decide) (by decide) (by decide) (fits_iff.1 h) (Nat.two_pow_pos _)

theorem oscSetp (p : Word) : Statement (.oscSetp p) := fun _ h =>
  packed (by decide) (by decide) (by decide) (fits_iff.1 h) (Nat.two_pow_pos _)

theorem oscRst : Statement .oscRst := fun _ _ => packed (by decide) (by decide) (by decide) (Nat.two_pow_pos _) (Nat.two_pow_pos _)

theorem oscNext : Statement .oscNext := fun _ _ => packed (by decide) (by decide) (by decide) (Nat.two_pow_pos _) (Nat.two_pow_pos _)

theorem oscBlep (p : Word) : Statement (.oscBlep p) := fun _ h =>
  packed (by decide) (by decide) (by decide) (fits_iff.1 h) (Nat.two_pow_pos _)

theorem whiteNext : Statement .whiteNext := fun _ _ => packed (by decide) (by decide) (by decide) (Nat.two_pow_pos _) (Nat.two_pow_pos _)

theorem pinkNew : Statement .pinkNew := fun _ _ => packed (by decide) (by decide) (by decide) (Nat.two_pow_pos _) (Nat.two_pow_pos _)

theorem pinkNext : Statement .pinkNext := fun _ _ => packed (by decide) (by decide) (by decide) (Nat.two_pow_pos _) (Nat.two_pow_pos _)

theorem brownNew : Statement .brownNew := fun _ _ => packed (by decide) (by decide) (by decide) (Nat.two_pow_pos _) (Nat.two_pow_pos _)

theorem brownNext : Statement .brownNext := fun _ _ => packed (by decide) (by decide) (by decide) (Nat.two_pow_pos _) (Nat.two_pow_pos _)

end Sys2Proof.Laws.EncodedWidth
end

