-- ==== Sys2Proof/Tests/Slice0.lean ====
section
/-! SUPPORT. Tests of the model: expected values are those of spec/95_test_vectors.md, of the encoding tables of spec/30_encoding.md and of the
examples in the rules (the source of each stands in its comment). The second half holds a witness for the hypotheses of every
obligation that has any. -/

namespace Sys2Proof.Tests

open Sys2Proof.Machine

/-! Well-formedness: each operand check refuses an ill-formed term (a bit above `W - 1`). -/

theorem test_wellformed_accepts : (Instr.oscNew .saw .bandlimited 0xFFFFFFFF 0xFFFFFFFF).wellFormed .binary32 = true := by decide
theorem test_wellformed_oscNew_sr : (Instr.oscNew .sine .naive 0x100000000 0).wellFormed .binary32 = false := by decide
theorem test_wellformed_oscNew_hz : (Instr.oscNew .sine .naive 0 0x100000000).wellFormed .binary32 = false := by decide
theorem test_wellformed_oscSetf : (Instr.oscSetf 0x100000000).wellFormed .binary32 = false := by decide
theorem test_wellformed_oscSetp : (Instr.oscSetp 0x100000000).wellFormed .binary32 = false := by decide
theorem test_wellformed_oscBlep : (Instr.oscBlep 0x100000000).wellFormed .binary32 = false := by decide

/-! Decoding: the words of 30_encoding.md R62 and 95_test_vectors.md 2.1, bit by bit from the layout `op wf bl z a b` of R50. -/

theorem test_decode_oscNew : decode .binary32 0b0001_00_0_0_01000000100000000000000000000000_00111111100000000000000000000000
    = .command (.oscNew .sine .naive 0x40800000 0x3F800000) := by decide
theorem test_decode_oscNew_square_blep : decode .binary32 0x1A_41000000_40000000
    = .command (.oscNew .square .bandlimited 0x41000000 0x40000000) := by decide
theorem test_decode_oscSetf : decode .binary32 0b0010_00_0_0_01000000000000000000000000000000_00000000000000000000000000000000
    = .command (.oscSetf 0x40000000) := by decide
theorem test_decode_oscSetp : decode .binary32 0x30_BE800000_00000000 = .command (.oscSetp 0xBE800000) := by decide
theorem test_decode_oscRst : decode .binary32 0x40_00000000_00000000 = .command .oscRst := by decide
theorem test_decode_oscNext : decode .binary32 0x50_00000000_00000000 = .command .oscNext := by decide
theorem test_decode_oscBlep : decode .binary32 0x60_3D4CCCCD_00000000 = .command (.oscBlep 0x3D4CCCCD) := by decide
theorem test_decode_whiteNext : decode .binary32 0b1000_00_0_0_00000000000000000000000000000000_00000000000000000000000000000000
    = .command .whiteNext := by decide
theorem test_decode_pinkNew : decode .binary32 0x90_00000000_00000000 = .command .pinkNew := by decide
theorem test_decode_pinkNext : decode .binary32 0xA0_00000000_00000000 = .command .pinkNext := by decide
theorem test_decode_brownNew : decode .binary32 0xB0_00000000_00000000 = .command .brownNew := by decide
theorem test_decode_brownNext : decode .binary32 0xC0_00000000_00000000 = .command .brownNext := by decide
/-- The same layout at `W = 64` (R45, R50). -/
theorem test_decode_binary64 : decode .binary64 0x16_4024000000000000_3FF0000000000000
    = .command (.oscNew .saw .bandlimited 0x4024000000000000 0x3FF0000000000000) := by decide

/-- The reserved words of 95_test_vectors.md 2.1. -/
theorem test_decode_reserved :
    decode .binary32 0x00_00000000_00000000 = .reserved .opcode ∧ decode .binary32 0x70_00000000_00000000 = .reserved .opcode ∧
    decode .binary32 0xD0_00000000_00000000 = .reserved .opcode ∧ decode .binary32 0xE0_00000000_00000000 = .reserved .opcode ∧
    decode .binary32 0xF0_00000000_00000000 = .reserved .opcode ∧ decode .binary32 0xFF_FFFFFFFF_FFFFFFFF = .reserved .zBit ∧
    decode .binary32 0x11_40800000_3F800000 = .reserved .zBit ∧ decode .binary32 0x24_40000000_00000000 = .reserved .unusedField ∧
    decode .binary32 0x22_40000000_00000000 = .reserved .unusedField ∧
    decode .binary32 0x20_40000000_00000001 = .reserved .unusedField ∧
    decode .binary32 0x50_00000000_80000000 = .reserved .unusedField ∧ decode .binary32 0x40_3F800000_00000000 = .reserved .slotA ∧
    decode .binary32 0xA0_00000001_00000000 = .reserved .slotA := by decide

/-- A stored word, byte 0 first (20_memory.md R33), and a list that is no word. -/
theorem test_decode_bytes : decodeBytes .binary32 [0, 0, 0, 0, 0xCD, 0xCC, 0x4C, 0x3D, 0x60] = .command (.oscBlep 0x3D4CCCCD) ∧
    decodeBytes .binary32 [0, 0, 0] = .reserved .partialWord := by decide

/-- The host's two readings of a table word. -/
theorem test_table_word : decodeTableWord 72 0x60_3D4CCCCD_00000000 = some (.oscBlep 0x3D4CCCCD) ∧
    decodeTableWord 136 0xC0_0000000000000000_0000000000000000 = some .brownNext ∧ decodeTableWord 72 0 = none := by decide

/-! One step each. -/

/-- A state with an oscillator, in `binary32`. -/
def withOsc32 (wf : Waveform) (bl : Mode) (sr inc phase : Word) : State :=
  { State.reset with osc := some { phase := phase, inc := inc, sr := sr, wf := wf, bl := bl } }

/-- A state with noise state and one random value. -/
def withNoise (fmt : Fmt) (taps : Taps Word) (prev u : Word) : State :=
  { State.resetAt fmt with taps := taps, prev := prev, rnd := [u] }

/-- The oscillator and the responses after a command that completed. -/
def oscAnd (r : Result) : Option (Option (Osc Word) × List RspWord) :=
  match r with
  | .next s => some (s.osc, s.rsp)
  | .fault _ => none
  | .refused _ => none

/-- The noise state, the random values left and the responses after a command that completed. -/
def noiseAnd (r : Result) : Option (Taps Word × Word × List Word × List RspWord) :=
  match r with
  | .next s => some (s.taps, s.prev, s.rnd, s.rsp)
  | .fault _ => none
  | .refused _ => none

/-- 2.1: `OSC.NEW TRIANGLE, BLEP, 48000, 440` has the increment `0x3C162FC9`. -/
theorem test_oscNew : oscAnd (exec (.oscNew .triangle .bandlimited 0x473B8000 0x43DC0000) State.reset) =
    some (some ⟨0, 0x3C162FC9, 0x473B8000, .triangle, .bandlimited⟩, [0]) := by decide
/-- R85: a sample rate of 0 gives an infinite increment and no fault. -/
theorem test_oscNew_zero_rate : oscAnd (exec (.oscNew .saw .naive 0 0x3F800000) State.reset) =
    some (some ⟨0, 0x7F800000, 0, .saw, .naive⟩, [0]) := by decide
/-- R87's example: `S.SR = 4.0`, `OSC.SETF 2.0` leaves `S.INC = 0.5`, the phase kept. -/
theorem test_oscSetf : oscAnd (exec (.oscSetf 0x40000000) (withOsc32 .sine .naive 0x40800000 0x3E800000 0x3F400000)) =
    some (some ⟨0x3F400000, 0x3F000000, 0x40800000, .sine, .naive⟩, [0]) := by decide
/-- R88: `OSC.SETP -1.75` stores -0.75, not 0.25. -/
theorem test_oscSetp_negative : oscAnd (exec (.oscSetp 0xBFE00000) (withOsc32 .sine .naive 0x40800000 0x3E800000 0)) =
    some (some ⟨0xBF400000, 0x3E800000, 0x40800000, .sine, .naive⟩, [0]) := by decide
/-- R73: `OSC.SETP -0.0` stores `+0.0`. -/
theorem test_oscSetp_zero : oscAnd (exec (.oscSetp 0x80000000) (withOsc32 .sine .naive 0x40800000 0x3E800000 0x3F000000)) =
    some (some ⟨0, 0x3E800000, 0x40800000, .sine, .naive⟩, [0]) := by decide
/-- R89's example. -/
theorem test_oscRst : oscAnd (exec .oscRst (withOsc32 .saw .bandlimited 0x40800000 0x3E800000 0x3F400000)) =
    some (some ⟨0, 0x3E800000, 0x40800000, .saw, .bandlimited⟩, [0]) := by decide
/-- P2, sample 10: the phase wraps to `2^-23` and the corrected saw answers `0xB6100000`. -/
theorem test_oscNext_saw_blep : oscAnd (exec .oscNext (withOsc32 .saw .bandlimited 0x41200000 0x3DCCCCCD 0x3F666668)) =
    some (some ⟨0x34000000, 0x3DCCCCCD, 0x41200000, .saw, .bandlimited⟩, [0x1_B6100000]) := by decide
/-- P1, sample 4: a sum of exactly 1.0 wraps, and `SINE(+0.0) = +0.0` whatever the sine unit. -/
theorem test_oscNext_sine : exec .oscNext (withOsc32 .sine .naive 0x40800000 0x3E800000 0x3F400000) =
    .next { withOsc32 .sine .naive 0x40800000 0x3E800000 0 with rsp := [0x1_00000000] } := by
  have wrap : accum (hw .binary32 none) 0x3F400000 0x3E800000 = 0 := by decide
  have zero : sine (hw .binary32 none) 0 = 0 := (sineUnit_default .binary32).sine_zero
  have run : exec .oscNext (withOsc32 .sine .naive 0x40800000 0x3E800000 0x3F400000) =
      .next { withOsc32 .sine .naive 0x40800000 0x3E800000 (accum (hw .binary32 none) 0x3F400000 0x3E800000) with
        rsp := [rspWord .binary32 (.sample (sine (hw .binary32 none) (accum (hw .binary32 none) 0x3F400000 0x3E800000)))] } := rfl
  rw [run, wrap, zero]; rfl
/-- 2.5: `BLEP(0.9, 0.75) = 0x3F4048D0`, the second branch. -/
theorem test_oscBlep_second : oscAnd (exec (.oscBlep 0x3F666666) (withOsc32 .sine .naive 0x3F800000 0x3F400000 0)) =
    some (some ⟨0, 0x3F400000, 0x3F800000, .sine, .naive⟩, [0x1_3F4048D0]) := by decide
/-- S2: `OSC.BLEP 0.05` with increment 0.1 answers -0.25. -/
theorem test_oscBlep_first : oscAnd (exec (.oscBlep 0x3D4CCCCD) (withOsc32 .saw .bandlimited 0x41200000 0x3DCCCCCD 0)) =
    some (some ⟨0, 0x3DCCCCCD, 0x41200000, .saw, .bandlimited⟩, [0x1_BE800000]) := by decide
/-- 2.7: the largest `u` below 1 gives `0x3F7FFFFE`. -/
theorem test_whiteNext : noiseAnd (exec .whiteNext (withNoise .binary32 (tapsOf 0) 0 0x3F7FFFFF)) =
    some (tapsOf 0, 0, [], [0x1_3F7FFFFE]) := by decide
/-- R129's example. -/
theorem test_pinkNew : noiseAnd (exec .pinkNew (withNoise .binary32 (tapsOf 0x3F800000) 0x3F800000 0)) =
    some (tapsOf 0, 0x3F800000, [0], [0]) := by decide
/-- V-PINK step 2. -/
theorem test_pinkNext : noiseAnd (exec .pinkNext (withNoise .binary32
      ⟨0x3CE366BD, 0x3D19C165, 0x3D9D8B61, 0x3E1EF7F8, 0x3E886F8E, 0xBC0A6DAD⟩ 0 0x3E800000)) =
    some (⟨0xB804BA00, 0xB9837780, 0xBB1C48C0, 0xBCA9C748, 0xBDF59598, 0x3C73DB02⟩, 0, [], [0x1_BD32A83C]) := by decide
/-- V-PINK step 1 in `binary64`. -/
theorem test_pinkNext_binary64 : (noiseAnd (exec .pinkNext (withNoise .binary64 (tapsOf 0) 0 0x3FE8000000000000))).map (·.2.2.2) =
    some [0x1_3FB7313F5F88C909] := by decide +kernel
/-- R135's example. -/
theorem test_brownNew : noiseAnd (exec .brownNew (withNoise .binary32 (tapsOf 0x3F800000) 0x3F800000 0)) =
    some (tapsOf 0x3F800000, 0, [0], [0]) := by decide
/-- V-BROWN step 2. -/
theorem test_brownNext : noiseAnd (exec .brownNext (withNoise .binary32 (tapsOf 0) 0x3C20A0A1 0x3E800000)) =
    some (tapsOf 0, 0xB9499235, [], [0x1_BA305FEE]) := by decide
/-- V-BROWN step 1 in `binary64`. -/
theorem test_brownNext_binary64 : noiseAnd (exec .brownNext (withNoise .binary64 (tapsOf 0) 0 0x3FE8000000000000)) =
    some (tapsOf 0, 0x3F84141414141414, [], [0x1_3FA1919191919192]) := by decide +kernel

/-- 2.8: `OSC.NEXT` right after reset sets `S.UNC` and answers `ERR 2`. -/
theorem test_unc : step { State.reset with host := [.command 0x50_00000000_00000000] } =
    .next { State.reset with unc := true, rsp := [0x2_00000002] } := by rfl
/-- 2.8: a reserved word raises `ILL`, decode first, and takes no random value. -/
theorem test_ill : step { State.reset with host := [.command 0xA0_00000001_00000000], rnd := [0x3F400000] } =
    .next { State.reset with ill := true, rnd := [0x3F400000], rsp := [0x2_00000001] } := by rfl
/-- R162: a noise sample command with no random value waits, and then has no successor. -/
theorem test_wait : step { State.reset with host := [.command 0x80_00000000_00000000] } = .next { State.reset with inflight := some .whiteNext } ∧
    step { State.reset with inflight := some .whiteNext } = .fault .stuckOnRandom := ⟨rfl, rfl⟩
/-- The host's probe: a noise sample command placed on the reset state runs as the next step. -/
theorem test_fetch : step (State.reset.withFetchWord 72 0xC0_00000000_00000000) = exec .brownNext { State.reset with rnd := [0] } := by rfl
theorem test_fetch_binary64 : step (State.reset.withFetchWord 136 0x50_0000000000000000_0000000000000000) =
    exec .oscNext (State.resetAt .binary64) := by rfl

/-! The corrector beside its rules. -/

/-- R112 and log 11: for a width above 1/2 the phase `d` itself falls into the second window, so R111's law holds only up to 1/2. -/
theorem test_blep_wide_window : fgt .binary32 (blep (hw .binary32 none) 0x3F400000 0x3F400000) 0 = true := by decide
/-- R119: the shifted phase of the largest phase below 1 is `0.5`. -/
theorem test_half_shift : halfShift (hw .binary32 none) 0x3F7FFFFF = 0x3F000000 := by decide
/-- 2.6, `d = 0.1`: `BLSQUARE(0.55)`. -/
theorem test_blsquare : blSquare (hw .binary32 none) 0x3F0CCCCD 0x3DCCCCCD = 0xBF3FFFF8 := by decide

/-! The assembler: lines of 30_encoding.md R57 to R62. -/

theorem test_assemble_new : (parseLine .binary32 "OSC.NEW SINE, NAIVE, 4.0, 1.0").map (fun l => assemble .binary32 [l]) =
    some [0x10_40800000_3F800000] := by decide
theorem test_assemble_case : (parseLine .binary32 "osc.new TRIANGLE, NAIVE, 48000, 440 ; comment").map (fun l => assemble .binary32 [l]) =
    some [0x1C_473B8000_43DC0000] := by decide
theorem test_assemble_bits : (parseLine .binary32 "OSC.SETP 0x3E800000").map (fun l => assemble .binary32 [l]) =
    some [0x30_3E800000_00000000] := by decide
theorem test_assemble_rnd : (parseLine .binary32 ".RND 0.75, 0.25").map (fun l => assembleDraws .binary32 [l]) =
    some [0x3F400000, 0x3E800000] := by decide
theorem test_assemble_fill : (parseLine .binary32 "PINK.FILL 3").map (fun l => assemble .binary32 [l]) =
    some [0xA0_00000000_00000000, 0xA0_00000000_00000000, 0xA0_00000000_00000000] := by decide

/-! Witnesses: for each obligation with hypotheses, states and operands that meet all of them together, clause by clause, at the ends of the
ranges. -/

/-- The oscillator of the witnesses: saw, bandlimited, sample rate 4, increment 1/4, phase 3/4. -/
def osc1 : Osc Word := { phase := 0x3F400000, inc := 0x3E800000, sr := 0x40800000, wf := .saw, bl := .bandlimited }

/-- A state with that oscillator, noise state that is not zero, and one random value, the largest below 1. -/
def busy : State := { State.reset with osc := some osc1, taps := tapsOf 0x3D800000, prev := 0x3F800000, rnd := [0x3F7FFFFF] }

/-- `busy` with one event of the host. -/
def busyWith (e : HostEvent) : State := { busy with host := [e] }

theorem witness_DecodeOfEncodeIsTheCommand : (Instr.oscNew .triangle .bandlimited 0xFFFFFFFF 0).wellFormed .binary32 = true ∧
    (Instr.oscBlep 0xFFFFFFFFFFFFFFFF).wellFormed .binary64 = true := by decide
theorem witness_EncodeOfDecodeIsTheWord :
    decode .binary32 0x1E_FFFFFFFF_FFFFFFFF = .command (.oscNew .triangle .bandlimited 0xFFFFFFFF 0xFFFFFFFF) := by decide
theorem witness_DecodeFollowsTheMasksOfTheTable :
    (0x1E_FFFFFFFF_FFFFFFFF : CmdWord) &&& (tableRow .binary32 (.oscNew .sine .naive 0 0)).1 = (tableRow .binary32 (.oscNew .sine .naive 0 0)).2 := by
  decide
theorem witness_StoredBytesDecodeAsTheWord : ([] : List Byte).length * 8 ≠ Fmt.cmdWidth .binary32 ∧
    (List.replicate 17 (0 : Byte)).length * 8 ≠ Fmt.cmdWidth .binary32 := by decide
theorem witness_ResponseWordsHaveTheirKindAndData : fits .binary32 0xFFFFFFFF = true ∧ fits .binary64 0xFFFFFFFFFFFFFFFF = true := by decide
theorem witness_HardwareResetGivesTheResetState :
    ((busyWith .rst).host = .rst :: [] ∧ (busyWith .rst).inflight = none) ∧
    ({ State.reset with host := [.rst], inflight := some .pinkNext }.host = HostEvent.rst :: [] ∧
      { State.reset with host := [.rst], inflight := some .pinkNext }.rnd = []) ∧
    ((busyWith (.commandThenRst 0xA0_00000000_00000000 true)).inflight = none ∧
      wordTakesRandom (busyWith (.commandThenRst 0xA0_00000000_00000000 true)).fmt 0xA0_00000000_00000000 = true) := by decide
theorem witness_StepRunsTheDecodedCommand : (busyWith (.command 0x40_00000000_00000000)).inflight = none ∧
    (busyWith (.command 0x40_00000000_00000000)).host = .command 0x40_00000000_00000000 :: [] ∧
    decode (busyWith (.command 0x40_00000000_00000000)).fmt 0x40_00000000_00000000 = .command .oscRst := by decide
theorem witness_ReservedWordRaisesIll : (busyWith (.command 0)).inflight = none ∧ (busyWith (.command 0)).host = .command 0 :: [] ∧
    decode (busyWith (.command 0)).fmt 0 = .reserved .opcode := by decide
theorem witness_NoiseSampleCommandWaitsForItsRandomValue :
    State.reset.rnd = [] ∧
    ({ State.reset with inflight := some .whiteNext }.inflight = some .whiteNext ∧
      ∀ rest, { State.reset with inflight := some .whiteNext }.host ≠ .rst :: rest) ∧
    ({ busy with inflight := some .brownNext }.inflight = some .brownNext ∧ { busy with inflight := some .brownNext }.rnd ≠ []) := by
  refine ⟨rfl, ⟨rfl, fun rest h => ?_⟩, rfl, by decide⟩
  exact List.noConfusion rfl (heq_of_eq h)
theorem witness_OscSetfStoresTheQuotient : busy.osc = some osc1 := rfl
theorem witness_PhaseCommandsStoreThePhase : busy.osc = some osc1 := rfl
theorem witness_OscNextAdvancesThenSamples : busy.osc = some osc1 ∧ (withOsc32 .sine .naive 0x40800000 0x3E800000 0).osc.isSome = true := by decide
theorem witness_OscBlepAnswersTheCorrector : busy.osc = some osc1 := rfl
theorem witness_OscillatorCommandsFaultBeforeConstruction : State.reset.osc = none := rfl
theorem witness_WhiteNextAnswersTheRemap : busy.rnd = 0x3F7FFFFF :: [] ∧ fits busy.fmt 0x3F7FFFFF = true := by decide
theorem witness_PinkNextUpdatesTapsThenSums : busy.rnd = 0x3F7FFFFF :: [] ∧ fits busy.fmt 0x3F7FFFFF = true := by decide
theorem witness_BrownNextIntegratesThenScales : busy.rnd = 0x3F7FFFFF :: [] ∧ fits busy.fmt 0x3F7FFFFF = true := by decide
theorem busy_ok : StateOk busy := by
  refine ⟨?_, by decide, by decide, ?_, ?_⟩
  · intro o ho
    have : o = osc1 := by simpa [busy] using ho.symm
    subst this; decide
  · intro i hi; exact Option.noConfusion rfl (heq_of_eq hi)
  · intro w hw; simp [busy, State.reset, State.resetAt] at hw
/-- `OSC.SETF` as a command, and as the word of a step. -/
theorem witness_OnlyOscNewChangesRateWaveformAndMode :
    (∃ t, exec (.oscSetf 0x40000000) busy = .next t ∧ busy.osc = some osc1 ∧ ∀ wf bl sr hz, Instr.oscSetf 0x40000000 ≠ .oscNew wf bl sr hz) ∧
    (StateOk (busyWith (.command 0x20_40000000_00000000)) ∧
      (∃ t, step (busyWith (.command 0x20_40000000_00000000)) = .next t) ∧
      (busyWith (.command 0x20_40000000_00000000)).osc = some osc1 ∧
      (∀ rest, (busyWith (.command 0x20_40000000_00000000)).host ≠ .rst :: rest) ∧
      (∀ w took rest, (busyWith (.command 0x20_40000000_00000000)).host ≠ .commandThenRst w took :: rest) ∧
      ∀ w rest wf bl sr hz, (busyWith (.command 0x20_40000000_00000000)).host = .command w :: rest →
        decode .binary32 w ≠ .command (.oscNew wf bl sr hz)) := by
  refine ⟨⟨_, rfl, rfl, fun _ _ _ _ h => Instr.noConfusion h⟩, ⟨busy_ok.osc, busy_ok.taps, busy_ok.prev, busy_ok.inflight, busy_ok.rsp⟩,
    ⟨_, rfl⟩, rfl, ?_, ?_, ?_⟩
  · intro rest h; exact HostEvent.noConfusion (List.cons.inj h).1
  · intro w took rest h; exact HostEvent.noConfusion (List.cons.inj h).1
  · intro w rest wf bl sr hz h hd
    have hw : w = 0x20_40000000_00000000 := by simpa using (List.cons.inj h).1.symm
    subst hw
    have hn : decode .binary32 0x20_40000000_00000000 = .command (.oscSetf 0x40000000) := by decide
    exact Instr.noConfusion (Decoded.command.inj (hn.symm.trans hd))
/-- Each clause of the frame: a command that does change the unit it names. -/
theorem witness_CommandsKeepTheOtherUnits :
    (oscAnd (exec .oscRst busy)).map (·.1) = some (some { osc1 with phase := 0 }) ∧
    exec .pinkNew busy = .next { busy with taps := tapsOf 0, rsp := [0] } ∧ tapsOf 0 ≠ busy.taps ∧
    exec .brownNew busy = .next { busy with prev := 0, rsp := [0] } ∧ 0 ≠ busy.prev ∧
    exec .oscNext State.reset = .next { State.reset with unc := true, rsp := [0x2_00000002] } ∧
    exec .whiteNext State.reset = .next { State.reset with inflight := some .whiteNext } := by
  refine ⟨by decide, rfl, by decide, rfl, by decide, rfl, rfl⟩
theorem witness_OneResponseAndAtMostOneDrawPerCommand : exec .brownNew busy = .next { busy with prev := 0, rsp := [0] } := rfl
/-- Each clause: a bit cleared by `rst`, each bit set by its fault. -/
theorem witness_StickyBitsAreSetByFaultsAndClearedByReset :
    step { State.reset with ill := true, unc := true, host := [.rst] } = .next State.reset ∧
    step { State.reset with host := [.command 0] } = .next { State.reset with ill := true, rsp := [0x2_00000001] } ∧
    step { State.reset with host := [.command 0x50_00000000_00000000] } = .next { State.reset with unc := true, rsp := [0x2_00000002] } :=
  ⟨rfl, rfl, rfl⟩
theorem witness_StatusBitsDoNotChangeBehaviour : exec .oscNext State.reset = .next { State.reset with unc := true, rsp := [0x2_00000002] } := rfl
theorem witness_NoiseDoesNotDependOnTheOscillator : exec .brownNew busy = .next { busy with prev := 0, rsp := [0] } := rfl
theorem witness_PhaseDoesNotDependOnWaveformOrMode : busy.fmt = State.reset.fmt ∧
    (∃ t, execAll [.oscNew .saw .naive 0x40800000 0x3F800000, .oscRst] busy = .next t) ∧
    ∃ t, execAll [.oscNew .sine .bandlimited 0x40800000 0x3F800000, .oscRst] State.reset = .next t := ⟨rfl, ⟨_, rfl⟩, ⟨_, rfl⟩⟩
theorem witness_SettingTheCurrentFrequencyChangesNothing :
    (busy.osc = some osc1 ∧ osc1.inc = fdiv busy.fmt 0x3F800000 osc1.sr) ∧
    (∃ t, execAll [.oscNew .saw .naive 0x40800000 0x3F800000, .oscNext] State.reset = .next t) ∧
    ((∃ t, execAll [.oscSetf 0x40000000, .oscNext] busy = .next t) ∧ busy.osc ≠ none) ∧
    ∀ j ∈ [Instr.oscNext], (∀ wf bl sr x, j ≠ .oscNew wf bl sr x) ∧ ∀ x, j ≠ .oscSetf x := by
  refine ⟨⟨rfl, by decide⟩, ⟨_, rfl⟩, ⟨⟨_, rfl⟩, by decide⟩, fun j hj => ?_⟩
  rw [List.mem_singleton.1 hj]
  exact ⟨fun _ _ _ _ h => Instr.noConfusion h, fun _ h => Instr.noConfusion h⟩
theorem witness_ResetOscillatorEqualsAFreshOne : busy.osc = some osc1 ∧ osc1.inc = fdiv busy.fmt 0x3F800000 osc1.sr ∧
    (∃ t, exec .oscRst busy = .next t) ∧ ∃ t, exec (.oscNew osc1.wf osc1.bl osc1.sr 0x3F800000) busy = .next t :=
  ⟨rfl, by decide, ⟨_, rfl⟩, ⟨_, rfl⟩⟩
theorem witness_SineAndTriangleAreNotCorrected :
    (∃ t, execAll [.oscNew .triangle .bandlimited 0x40800000 0x3F800000, .oscNext] State.reset = .next t) ∧
    ∃ t, execAll [.oscNew .triangle .naive 0x40800000 0x3F800000, .oscNext] State.reset = .next t := ⟨⟨_, rfl⟩, ⟨_, rfl⟩⟩
theorem witness_OscFillGivesOneSamplePerSlot : busy.osc ≠ none := by decide
theorem witness_EveryStepKeepsTheStateOk : StateOk (busyWith .rst) ∧ ∃ t, step (busyWith .rst) = .next t :=
  ⟨⟨busy_ok.osc, busy_ok.taps, busy_ok.prev, busy_ok.inflight, busy_ok.rsp⟩, _, rfl⟩
/-- Phase and increment both the largest value below 1, and `OSC.NEXT` the next word. -/
theorem witness_EveryStepKeepsThePhaseInRange :
    let s := { withOsc32 .saw .bandlimited 0x3F800000 0x3F7FFFFF 0x3F7FFFFF with host := [.command 0x50_00000000_00000000] }
    PhaseInRange s ∧ nextInDomain s ∧ ∃ t, step s = .next t := by
  refine ⟨?_, ?_, _, rfl⟩
  · intro o ho
    have : o = { phase := 0x3F7FFFFF, inc := 0x3F7FFFFF, sr := 0x3F800000, wf := .saw, bl := .bandlimited } := by
      simpa [withOsc32] using ho.symm
    subst this; decide
  · intro w rest i hw hd
    have hww : w = 0x50_00000000_00000000 := by simpa using (List.cons.inj hw).1.symm
    subst hww
    have hn : decode .binary32 0x50_00000000_00000000 = .command .oscNext := by decide
    have : i = .oscNext := by
      have h := hn.symm.trans hd
      exact (Decoded.command.inj h).symm
    subst this; rfl
theorem witness_EveryStepKeepsTheNoiseStateBounded :
    (tapsWithin .binary32 (tapBound .binary32) = true ∧ inSignedUnit .binary32 0xBF800000 = true) ∧
    (∀ u ∈ busy.rnd, inUnit busy.fmt (toWidth busy.fmt u) = true) ∧ NoiseBounded (busyWith .rst) ∧ ∃ t, step (busyWith .rst) = .next t := by
  refine ⟨by decide, ?_, by unfold NoiseBounded; decide, _, rfl⟩
  intro u hu
  have : u = 0x3F7FFFFF := by simpa [busy] using hu
  subst this; decide
/-- The largest finite value and the least subnormal. -/
theorem witness_AddAndSubRoundTheExactResult : isFinite .binary32 0x7F7FFFFF = true ∧ isFinite .binary64 0x8000000000000001 = true := by
  decide
theorem witness_MulAndDivRoundTheExactResult : isFinite .binary32 0x7F7FFFFF = true ∧ isFinite .binary32 0x00000001 = true ∧
    isZero .binary32 0x00000001 = false := by decide
theorem witness_AddAndSubSpecialCases :
    (isFinite .binary32 0x3F800000 = true ∧ isFinite .binary32 0xBF800000 = true ∧ sunits .binary32 0x3F800000 + sunits .binary32 0xBF800000 = 0 ∧
      negOf .binary32 0x3F800000 ≠ negOf .binary32 0xBF800000) ∧ isNaN .binary32 0x7F800001 = true ∧
    (isInf .binary32 0xFF800000 = true ∧ isNaN .binary32 0x7F7FFFFF = false ∧ isInf .binary32 0x7F7FFFFF = false) := by decide
theorem witness_MulAndDivSpecialCases :
    (isNaN .binary32 0x80000000 = false ∧ isZero .binary32 0x80000000 = true ∧ isNaN .binary32 0x7F800000 = false ∧
      isInf .binary32 0x7F800000 = true) ∧ (isFinite .binary32 0x00000001 = true ∧ isZero .binary32 0x00000001 = false) ∧
    isNaN .binary32 (fmul .binary32 0x80000000 0x3F800000) = false ∧ isNaN .binary32 0x7F800001 = true ∧
    isZero .binary32 0x7F800000 = false := by decide
theorem witness_ComparisonsFollowTheRealValues : isNaN .binary32 0xFF7FFFFF = false ∧ isNaN .binary32 0x7F800000 = false ∧
    isNaN .binary32 0xFFFFFFFF = true := by decide
/-- A finite value that is no integer, a negative integer, and an infinity. -/
theorem witness_FracIsExactAndTowardZero : isFinite .binary32 0xBFE00000 = true ∧ isFinite .binary32 0xC0400000 = true ∧
    valueOf .binary32 0xC0400000 = -3 ∧ isFinite .binary32 0xFF800000 = false ∧ isInf .binary32 0xFF800000 = true ∧
    isNaN .binary32 0x7F800001 = true := by decide +kernel
theorem witness_AccumulatorKeepsTheUnitInterval : (inUnit .binary32 0x80000000 = true ∧ inUnit .binary32 0x3F7FFFFF = true) ∧
    ((0 : ℝ) ≤ 0 ∧ (0 : ℝ) < 1 ∧ (0 : ℝ) ≤ 1 / 2 ∧ (1 / 2 : ℝ) < 1) := by
  refine ⟨by decide, by norm_num⟩
/-- The least sample rate with frequency 0, and the largest with the frequency just below it. -/
theorem witness_IncrementOfAGoodRateIsBelowOne : (goodRate .binary32 0x00000001 0 = true ∧ goodRate .binary32 0x7F7FFFFF 0x7F7FFFFE = true) ∧
    (0 : ℝ) ≤ 0 ∧ (0 : ℝ) < 1 := ⟨by decide, by norm_num⟩
theorem witness_NaiveEnginesStayInTheirRange : (inUnit .binary32 0 = true ∧ inUnit .binary32 0x3F7FFFFF = true ∧ inUnit .binary32 0x3F000000 = true) ∧
    (0 : ℝ) ≤ 0 ∧ (0 : ℝ) < 1 := ⟨by decide, by norm_num⟩
/-- The default tolerance and the budget itself, a function for the default, the three phases of R101, and a tolerance that no function meets. -/
theorem witness_SineUnitHasTheNamedProperties :
    (sineBudget .binary32 ≤ sinTolOf .binary32 none ∧ sineBudget .binary32 ≤ sinTolOf .binary32 (some (sineBudget .binary32))) ∧
    SinProperties .binary32 (sinTolOf .binary32 none) (referenceSine .binary32) ∧
    (∀ sin, ¬ SinProperties .binary32 (sinTolOf .binary32 (some (-1))) sin) ∧
    (inUnit .binary32 0x3E800000 = true ∧ valueOf .binary32 0x3E800000 = 1 / 4) ∧
    (inUnit .binary32 0x3F000000 = true ∧ valueOf .binary32 0x3F000000 = 1 / 2) ∧
    (inUnit .binary32 0x3F400000 = true ∧ valueOf .binary32 0x3F400000 = 3 / 4) :=
  ⟨⟨by norm_num [sineBudget, sinTolOf, Fmt.sinTol], le_rfl⟩, referenceSine_properties .binary32 le_rfl,
    fun _ h => by
      have := le_trans (abs_nonneg _) (h.approx 0 (by decide))
      norm_num [sinTolOf] at this,
    ⟨by decide, by decide +kernel⟩, ⟨by decide, by decide +kernel⟩,
    by decide, by decide +kernel⟩
/-- The function of the error budget's clause: the reference unit. -/
theorem witness_NamedSinePropertiesCanBeMet :
    let sin := referenceSine .binary32
    (∀ x, fits .binary32 (sin x) = true) ∧ (∀ x, sin x = sin (toWidth .binary32 x)) ∧
    (∀ x, isFinite .binary32 x = true → inSignedUnit .binary32 (sin x) = true) ∧ sin (zeroWord .binary32 false) = zeroWord .binary32 false ∧
    (∀ x, (isNaN .binary32 x || isInf .binary32 x) = true → sin x = canonNaN .binary32) ∧
    (∀ x, isFinite .binary32 x = true → |valueOf .binary32 x| ≤ 7 →
      |((valueOf .binary32 (sin x) : ℚ) : ℝ) - Real.sin ((valueOf .binary32 x : ℚ) : ℝ)| ≤ (1 / 2) ^ Fmt.precision .binary32) :=
  have h := referenceSine_properties .binary32 le_rfl
  ⟨h.total, h.det, h.range, h.zero, h.nan, fun _ => referenceSine_near .binary32⟩
theorem witness_BlepIsZeroAtItsBoundaries :
    ((flt .binary32 (constBits .binary32 .zero) 0x00000001 = true ∧ fge .binary32 (constBits .binary32 .half) 0x00000001 = true) ∧
    (flt .binary32 (constBits .binary32 .zero) 0x3F000000 = true ∧ fge .binary32 (constBits .binary32 .half) 0x3F000000 = true)) ∧
    (0 : ℝ) < 1 / 2 ∧ (1 / 2 : ℝ) ≤ 1 / 2 := ⟨by decide, by norm_num⟩
theorem witness_BlepAtPhaseZeroIsMinusOne : (isZero .binary32 0x80000000 = true ∧ flt .binary32 (constBits .binary32 .zero) 0x3F800000 = true ∧
    flt .binary32 (constBits .binary32 .zero) 0x7F800000 = true) ∧ (0 : ℝ) < 1 := ⟨by decide, by norm_num⟩
theorem witness_BlepWithoutAWindowIsZero : (inUnit .binary32 0x3F7FFFFF = true ∧ isNaN .binary32 0x7FC00000 = true ∧
    fge .binary32 (constBits .binary32 .zero) 0x80000000 = true ∧ fge .binary32 (constBits .binary32 .zero) 0xFF800000 = true ∧
    flt .binary32 0x80000001 (constBits .binary32 .zero) = true) ∧ (0 : ℝ) ≤ 0 ∧ (0 : ℝ) < 1 ∧ (-1 : ℝ) < 0 := ⟨by decide, by norm_num⟩
theorem witness_WhiteRemapIsBelowOne : (inUnit .binary32 0 = true ∧ inUnit .binary32 0x3F7FFFFF = true) ∧ (0 : ℝ) ≤ 0 ∧ (0 : ℝ) < 1 :=
  ⟨by decide, by norm_num⟩
theorem witness_NaNPoisonsTheNoiseState : isNaN .binary32 0x7FC00000 = true ∧ isNaN .binary32 0xFF800001 = true := by decide
theorem witness_IdealBrownSamplesAreBounded : ∀ u ∈ [(0 : ℝ), 1 / 2], 0 ≤ u ∧ u < 1 := by
  intro u hu; simp only [List.mem_cons, List.not_mem_nil, or_false] at hu; rcases hu with rfl | rfl <;> norm_num
theorem witness_IdealPinkSamplesAreBounded : ∀ u ∈ [(0 : ℝ), 1 / 2], 0 ≤ u ∧ u < 1 := witness_IdealBrownSamplesAreBounded
theorem witness_IdealBandlimitedSamplesAreBounded : (0 : ℝ) ≤ 0 ∧ (0 : ℝ) < 1 ∧ (0 : ℝ) < 1 / 4 ∧ (1 / 4 : ℝ) ≤ 1 / 4 ∧ (1 : ℝ) ≤ 1 := by norm_num
theorem witness_IdealPhaseIsPeriodic : (0 : ℝ) ≤ 3 / 4 ∧ (3 / 4 : ℝ) < 1 ∧ (0 : ℝ) ≤ 1 / 4 ∧ (1 / 4 : ℝ) < 1 ∧ ((4 : ℕ) : ℝ) * (1 / 4) = 1 := by norm_num
theorem witness_IdealCorrectionIntegratesToZero : (0 : ℝ) < 1 / 2 ∧ (1 / 2 : ℝ) ≤ 1 / 2 := by norm_num

end Sys2Proof.Tests
end

/-! PROOFS of the family 10_state: what the steps keep, the frame of a command, the sticky bits, the reset state (O34, O35, O23, O25,
O7, O33). -/

section
namespace Sys2Proof.Machine

/-! Two columns of the opcode table, read the other way: which commands have the flag. -/

/-- The commands that take a random value are the three noise sample commands (20_memory.md R32). -/
theorem takesRandom_iff {i : Instr} : takesRandom i = true ↔ i = .whiteNext ∨ i = .pinkNext ∨ i = .brownNext := by
  cases i <;> simp [takesRandom]

/-- The commands that fault without an oscillator are those of 60_exceptions.md R149. -/
theorem needsOsc_iff {i : Instr} :
    needsOsc i = true ↔ ∃ x, i = .oscSetf x ∨ i = .oscSetp x ∨ i = .oscRst ∨ i = .oscNext ∨ i = .oscBlep x := by
  cases i <;> simp [needsOsc]

theorem needsOsc_of_takesRandom {i : Instr} (h : takesRandom i = true) : needsOsc i = false := by
  obtain rfl | rfl | rfl := takesRandom_iff.1 h <;> rfl

/-- A noise sample command has no operand. -/
theorem wellFormed_of_takesRandom {i : Instr} (fmt : Fmt) (h : takesRandom i = true) : i.wellFormed fmt = true := by
  obtain rfl | rfl | rfl := takesRandom_iff.1 h <;> rfl

theorem fits_operandOf_cmdField (fmt : Fmt) (w : CmdWord) (lo : ℕ) : fits fmt (operandOf (cmdField w lo fmt.width)) = true := by
  have hlt := cmdField_lt w lo fmt.width
  rw [fits_iff, toNat_operandOf hlt]
  exact hlt

/-- The operands of a decoded command are `W`-bit patterns (30_encoding.md R49). -/
theorem wellFormed_of_decode {fmt : Fmt} {w : CmdWord} {i : Instr} (h : decode fmt w = .command i) : i.wellFormed fmt = true := by
  obtain ⟨-, ⟨-, rfl⟩ | ⟨-, -, -, hrow⟩⟩ := decode_cases h
  · simp [Instr.wellFormed, fits_operandOf_cmdField]
  · obtain ⟨-, rfl⟩ | ⟨-, rfl⟩ | ⟨-, rfl⟩ | ⟨-, hrow⟩ := hrow
    · exact fits_operandOf_cmdField fmt w _
    · exact fits_operandOf_cmdField fmt w _
    · exact fits_operandOf_cmdField fmt w _
    · obtain ⟨-, rfl⟩ | ⟨-, rfl⟩ | ⟨-, rfl⟩ | ⟨-, rfl⟩ | ⟨-, rfl⟩ | ⟨-, rfl⟩ | ⟨-, rfl⟩ := hrow <;> rfl

/-! The two fields of `exec` that Laws/Commands.lean leaves to `exec_cases`. -/

/-- `S.UNC` after a command, waiting or not. -/
theorem exec_unc {i : Instr} {s t : State} (h : exec i s = .next t) : t.unc = (s.unc || (needsOsc i && s.osc.isNone)) := by
  obtain ⟨hr, -, rfl⟩ | ⟨-, rfl⟩ := exec_cases h
  · simp [needsOsc_of_takesRandom hr]
  · rfl

/-- A command either leaves the command in flight alone, or is a noise sample command that begins to wait. -/
theorem exec_inflight {i : Instr} {s t : State} (h : exec i s = .next t) :
    t.inflight = s.inflight ∨ (takesRandom i = true ∧ s.rnd = [] ∧ t.inflight = some i) := by
  obtain ⟨hr, hn, rfl⟩ | ⟨-, rfl⟩ := exec_cases h
  · exact .inr ⟨hr, hn, rfl⟩
  · exact .inl rfl

/-- The responses after a command: those before it, and at most one more. -/
theorem exec_rsp {i : Instr} {s t : State} (h : exec i s = .next t) :
    t.rsp = s.rsp ∨ ∃ r, t.rsp = s.rsp ++ [rspWord s.fmt r] := by
  obtain ⟨-, -, rfl⟩ | ⟨-, rfl⟩ := exec_cases h
  · exact .inl rfl
  · exact .inr ⟨_, rfl⟩

/-! O34: values are `W`-bit patterns. -/

/-- The three values an oscillator holds are `W`-bit patterns. -/
def OscFits (fmt : Fmt) (o : Osc Word) : Prop := fits fmt o.phase = true ∧ fits fmt o.inc = true ∧ fits fmt o.sr = true

/-- The six taps are `W`-bit patterns. -/
def TapsFit (fmt : Fmt) (b : Taps Word) : Prop :=
  fits fmt b.b0 = true ∧ fits fmt b.b1 = true ∧ fits fmt b.b2 = true ∧ fits fmt b.b3 = true ∧ fits fmt b.b4 = true ∧ fits fmt b.b5 = true

theorem tapsFit_tapsOf {fmt : Fmt} {x : Word} (h : fits fmt x = true) : TapsFit fmt (tapsOf x) := ⟨h, h, h, h, h, h⟩

/-- A well-formed command leaves `W`-bit patterns in the oscillator: what it writes is an operand, a constant or a rounded result. -/
theorem oscAfter_fits {fmt : Fmt} {sin : Word → Word} {i : Instr} {osc : Option (Osc Word)} (hi : i.wellFormed fmt = true)
    (hosc : ∀ o, osc = some o → OscFits fmt o) : ∀ o, oscAfter (ieee fmt sin) i osc = some o → OscFits fmt o := by
  intro o ho
  cases i with
  | oscNew wf bl sr hz =>
    simp only [oscAfter, newOsc_ieee, Option.some.injEq] at ho
    simp only [Instr.wellFormed, Bool.and_eq_true] at hi
    subst ho
    exact ⟨fits_constBits fmt _, fits_fdiv fmt _ _, hi.1⟩
  | oscSetf hz =>
    obtain ⟨o', ho', rfl⟩ := Option.map_eq_some_iff.1 ho
    obtain ⟨hphase, -, hsr⟩ := hosc o' ho'
    exact ⟨hphase, fits_fdiv fmt _ _, hsr⟩
  | oscSetp p =>
    obtain ⟨o', ho', rfl⟩ := Option.map_eq_some_iff.1 ho
    obtain ⟨-, hinc, hsr⟩ := hosc o' ho'
    exact ⟨fits_frac fmt sin p, hinc, hsr⟩
  | oscRst =>
    obtain ⟨o', ho', rfl⟩ := Option.map_eq_some_iff.1 ho
    obtain ⟨-, hinc, hsr⟩ := hosc o' ho'
    exact ⟨fits_constBits fmt _, hinc, hsr⟩
  | oscNext =>
    obtain ⟨o', ho', rfl⟩ := Option.map_eq_some_iff.1 ho
    obtain ⟨-, hinc, hsr⟩ := hosc o' ho'
    exact ⟨fits_accum fmt sin _ _, hinc, hsr⟩
  | _ => exact hosc o ho

theorem tapsAfter_fits {fmt : Fmt} {sin : Word → Word} (i : Instr) {b : Taps Word} (rnd : List Word) (hb : TapsFit fmt b) :
    TapsFit fmt (tapsAfter fmt (ieee fmt sin) i b rnd) := by
  unfold tapsAfter
  split
  · exact tapsFit_tapsOf (fits_constBits fmt .zero)
  · exact ⟨fits_tapStep .., fits_tapStep .., fits_tapStep .., fits_tapStep .., fits_tapStep .., fits_tapStep ..⟩
  · exact hb

theorem prevAfter_fits {fmt : Fmt} {sin : Word → Word} (i : Instr) {prev : Word} (rnd : List Word) (hp : fits fmt prev = true) :
    fits fmt (prevAfter fmt (ieee fmt sin) i prev rnd) = true := by
  unfold prevAfter
  split
  · exact fits_constBits fmt .zero
  · exact fits_brownPrev fmt sin _ _
  · exact hp

/-- A list of readable response words stays one when a response is appended. -/
theorem readable_append {fmt : Fmt} {ws : List RspWord} (h : ∀ w ∈ ws, (readRsp fmt w).isSome = true) (r : Response Word) :
    ∀ w ∈ ws ++ [rspWord fmt r], (readRsp fmt w).isSome = true := by
  simpa [or_imp, forall_and, readRsp_rspWord] using h

/-- `StateOk` says nothing of what the host and the random source will present. -/
theorem StateOk.withPorts {s : State} (h : StateOk s) (host : List HostEvent) (rnd : List Word) :
    StateOk { s with host := host, rnd := rnd } :=
  ⟨h.osc, h.taps, h.prev, h.inflight, h.rsp⟩

theorem StateOk.withoutInflight {s : State} (h : StateOk s) : StateOk { s with inflight := none } :=
  ⟨h.osc, h.taps, h.prev, nofun, h.rsp⟩

theorem StateOk.hardReset {s : State} (h : StateOk s) : StateOk (Machine.hardReset s) :=
  ⟨nofun, tapsFit_tapsOf (fits_zeroLit s.fmt), fits_zeroLit s.fmt, nofun, h.rsp⟩

theorem StateOk.raiseFault {s : State} (h : StateOk s) (c : FaultCode) : StateOk (Machine.raiseFault c s) := by
  refine ⟨?_, ?_, ?_, ?_, ?_⟩
  · simpa using h.osc
  · simpa using h.taps
  · simpa using h.prev
  · simpa using h.inflight
  · rw [raiseFault_fmt, raiseFault_rsp]
    exact readable_append h.rsp (.err c)

/-- A well-formed command keeps the state well formed. -/
theorem StateOk.exec {i : Instr} {s t : State} (h : StateOk s) (hi : i.wellFormed s.fmt = true) (he : Machine.exec i s = .next t) :
    StateOk t := by
  have hfmt := exec_fmt he
  refine ⟨?_, ?_, ?_, ?_, ?_⟩
  · rw [hfmt, exec_osc he]
    exact oscAfter_fits hi h.osc
  · rw [hfmt, exec_taps he]
    exact tapsAfter_fits i s.rnd h.taps
  · rw [hfmt, exec_prev he]
    exact prevAfter_fits i s.rnd h.prev
  · intro j hj
    obtain hsame | ⟨hr, -, hwait⟩ := exec_inflight he
    · exact h.inflight j (hsame ▸ hj)
    · obtain rfl : i = j := Option.some.inj (hwait.symm.trans hj)
      exact hr
  · rw [hfmt]
    obtain hsame | ⟨r, happ⟩ := exec_rsp he
    · rw [hsame]
      exact h.rsp
    · rw [happ]
      exact readable_append h.rsp r

theorem StateOk.step {s t : State} (h : StateOk s) (hs : Machine.step s = .next t) : StateOk t := by
  obtain ⟨i, u, rest, hi, -, he⟩ | ⟨i, rest, -, -, -, rfl⟩ | ⟨-, -, rfl⟩ | ⟨w, rest, i, -, -, hd, he⟩ |
    ⟨w, rest, why, -, -, -, rfl⟩ | ⟨rest, -, -, rfl⟩ | ⟨w, took, rest, -, -, rfl⟩ := step_cases hs
  · exact h.withoutInflight.exec (wellFormed_of_takesRandom s.fmt (h.inflight i hi)) he
  · exact (h.withPorts rest s.rnd).hardReset
  · exact h
  · exact (h.withPorts rest s.rnd).exec (wellFormed_of_decode hd) he
  · exact (h.withPorts rest s.rnd).raiseFault .ill
  · exact (h.withPorts rest s.rnd).hardReset
  · exact (h.withPorts rest (rndAfterAbandon s.fmt w took s.rnd)).hardReset

/-- No step changes the two parameters (00_scope.md R7). -/
theorem step_parameters {s t : State} (hs : step s = .next t) : t.fmt = s.fmt ∧ t.sinTol = s.sinTol := by
  obtain ⟨i, u, rest, -, -, he⟩ | ⟨i, rest, -, -, -, rfl⟩ | ⟨-, -, rfl⟩ | ⟨w, rest, i, -, -, -, he⟩ |
    ⟨w, rest, why, -, -, -, rfl⟩ | ⟨rest, -, -, rfl⟩ | ⟨w, took, rest, -, -, rfl⟩ := step_cases hs
  · exact ⟨(exec_fmt he :), (exec_sinTol he :)⟩
  · exact ⟨rfl, rfl⟩
  · exact ⟨rfl, rfl⟩
  · exact ⟨(exec_fmt he :), (exec_sinTol he :)⟩
  · exact ⟨rfl, rfl⟩
  · exact ⟨rfl, rfl⟩
  · exact ⟨rfl, rfl⟩

/-- Settles O34: the invariant case by case of what a step can do, and the parameters that no step writes. -/
theorem everyStepKeepsTheStateOk : Obligations.EveryStepKeepsTheStateOk :=
  fun _ _ h hs => ⟨h.step hs, step_parameters hs⟩

/-! O35: phase and increment in [0, 1), rounding included. -/

theorem inUnit_zero (fmt : Fmt) : inUnit fmt (constBits fmt .zero) = true := by
  rw [inUnit_iff, sunits_zero]
  exact ⟨isNaN_constBits fmt .zero, le_rfl, by positivity⟩

/-- A rounded result whose exact value lies between 0 and the largest value below 1 is in [0, 1). -/
theorem inUnit_of_signedRound {fmt : Fmt} {x : Word} {t : ℤ} {d : ℕ} (hd : 0 < d) (hx : isNaN fmt x = false)
    (hs : sunits fmt x = signedRound fmt t d) (h0 : 0 ≤ t) (h1 : t ≤ sunits fmt (belowOne fmt) * d) : inUnit fmt x = true := by
  have hlo : 0 ≤ signedRound fmt t d := signedRound_nonneg h0
  have hhi : signedRound fmt t d ≤ sunits fmt (belowOne fmt) := signedRound_le hd (isNaN_belowOne fmt) h1
  exact inUnit_iff.2 ⟨hx, hs ▸ hlo, hs ▸ lt_of_le_of_lt hhi (sunits_belowOne_lt fmt)⟩

theorem sunits_eq_unitsOf_of_nonneg {fmt : Fmt} {x : Word} (h : 0 ≤ sunits fmt x) : sunits fmt x = unitsOf fmt (magOf fmt x) := by
  rw [← natAbs_sunits, Int.natAbs_of_nonneg h]

/-- Of two values with `0 ≤ x < y` the quotient is at most the largest value below 1: the step from `y` down to `x` loses at least a last
place, relatively (`unitsOf_pred_mul`). -/
theorem sunits_mul_le_belowOne_mul {fmt : Fmt} {x y : Word} (h0 : 0 ≤ sunits fmt x) (hlt : sunits fmt x < sunits fmt y) :
    sunits fmt x * 2 ^ lsbExp fmt ≤ sunits fmt (belowOne fmt) * (sunits fmt y).natAbs := by
  have hx := sunits_eq_unitsOf_of_nonneg h0
  have hy := sunits_eq_unitsOf_of_nonneg (h0.trans hlt.le)
  rw [natAbs_sunits, hx]
  rw [hx, hy, Nat.cast_lt, unitsOf_lt_iff] at hlt
  obtain ⟨m, hm⟩ : ∃ m, magOf fmt y = m + 1 := ⟨magOf fmt y - 1, by omega⟩
  have hle : unitsOf fmt (magOf fmt x) ≤ unitsOf fmt m := unitsOf_le_iff.2 (by omega)
  have hpred := unitsOf_pred_mul fmt m
  have hbelow := sunits_belowOne_mul fmt
  obtain ⟨q, hq⟩ : ∃ q, 2 * 2 ^ fmt.fracBits = q + 1 := ⟨2 * 2 ^ fmt.fracBits - 1, by have := Nat.two_pow_pos fmt.fracBits; omega⟩
  have hq' : (2 * 2 ^ fmt.fracBits : ℤ) = q + 1 := by exact_mod_cast hq
  rw [hq, Nat.add_sub_cancel] at hpred
  rw [hq', add_sub_cancel_right] at hbelow
  rw [hm]
  have hpred' : (unitsOf fmt (magOf fmt x) : ℤ) * (q + 1) ≤ unitsOf fmt (m + 1) * q := by
    exact_mod_cast (Nat.mul_le_mul_right (q + 1) hle).trans hpred
  refine le_of_mul_le_mul_right ?_ (by positivity : (0 : ℤ) < q + 1)
  calc (unitsOf fmt (magOf fmt x) : ℤ) * 2 ^ lsbExp fmt * (q + 1)
      = unitsOf fmt (magOf fmt x) * (q + 1) * 2 ^ lsbExp fmt := by ring
    _ ≤ unitsOf fmt (m + 1) * q * 2 ^ lsbExp fmt := mul_le_mul_of_nonneg_right hpred' (by positivity)
    _ = 2 ^ lsbExp fmt * q * unitsOf fmt (m + 1) := by ring
    _ = sunits fmt (belowOne fmt) * unitsOf fmt (m + 1) * (q + 1) := by rw [← hbelow]; ring

/-- The increment of a good rate is in [0, 1): the quotient `hz / sr` does not round up to 1 (70_reset_and_hazards.md R168). -/
theorem inUnit_fdiv_of_goodRate {fmt : Fmt} {sr hz : Word} (h : goodRate fmt sr hz = true) : inUnit fmt (fdiv fmt hz sr) = true := by
  simp only [goodRate, Bool.and_eq_true] at h
  obtain ⟨⟨⟨hsr, hpos⟩, hge⟩, hlt⟩ := h
  obtain ⟨-, -, hpos⟩ := flt_elim hpos
  obtain ⟨hnan, -, hge⟩ := fge_elim hge
  obtain ⟨-, -, hlt⟩ := flt_elim hlt
  rw [sunits_zero] at hpos hge
  have hhz : isFinite fmt hz = true :=
    isFinite_of_bounds hnan (isFinite_constBits fmt .zero) hsr (by rwa [sunits_zero]) hlt.le
  have hsr0 : magOf fmt sr ≠ 0 := fun h0 => hpos.ne' (sunits_eq_zero_iff.2 h0)
  obtain ⟨hn, hs⟩ := fdiv_finite hhz hsr hsr0
  rw [Int.sign_eq_one_of_pos hpos, mul_one] at hs
  exact inUnit_of_signedRound (Int.natAbs_pos.2 hpos.ne') hn hs (mul_nonneg hge (by positivity)) (sunits_mul_le_belowOne_mul hge hlt)

/-- One advance keeps the phase in [0, 1) (41_oscillator_control.md R94): the sum is at most the largest value below 2, and the wrap
takes 1 from it. -/
theorem inUnit_accum {fmt : Fmt} {sin : Word → Word} {ph d : Word} (hph : inUnit fmt ph = true) (hd : inUnit fmt d = true) :
    inUnit fmt (accum (ieee fmt sin) ph d) = true := by
  obtain ⟨-, hph0, hph1⟩ := inUnit_iff.1 hph
  obtain ⟨-, hd0, hd1⟩ := inUnit_iff.1 hd
  obtain ⟨hn, hs⟩ := fadd_finite (isFinite_of_inUnit hph) (isFinite_of_inUnit hd)
  have hbelow := sunits_belowOne_lt fmt
  have hlo : 0 ≤ sunits fmt (fadd fmt ph d) := hs ▸ signedRound_nonneg (add_nonneg hph0 hd0)
  have hhi : sunits fmt (fadd fmt ph d) ≤ 2 * sunits fmt (belowOne fmt) := by
    have hph2 := le_belowOne hph1
    have hd2 := le_belowOne hd1
    rw [hs, ← sunits_belowTwo]
    exact signedRound_le one_pos (isNaN_belowTwo fmt) (by rw [sunits_belowTwo]; push_cast; linarith)
  rw [accum_ieee]
  split_ifs with hge
  · obtain ⟨-, -, hge⟩ := fge_elim hge
    have hfin : isFinite fmt (fadd fmt ph d) = true := isFinite_of_sunits hn (by linarith) (by linarith)
    obtain ⟨hn', hs'⟩ := fsub_finite hfin (isFinite_constBits fmt .one)
    rw [sunits_one] at hge hs'
    exact inUnit_of_signedRound one_pos hn' hs' (by linarith) (by push_cast; linarith)
  · rw [fge_iff hn (isNaN_constBits fmt .one), sunits_one, not_le] at hge
    exact inUnit_iff.2 ⟨hn, hlo, hge⟩

theorem sunits_toWidth (fmt : Fmt) (x : Word) : sunits fmt (toWidth fmt x) = sunits fmt x := by
  simp [sunits]

/-- Truncation of a value that is not negative, in units: the whole multiples of 1.0 in it (40_numerics.md R72). -/
theorem sunits_ftrunc_of_nonneg {fmt : Fmt} {x : Word} (hx : isFinite fmt x = true) (h0 : 0 ≤ sunits fmt x) :
    sunits fmt (ftrunc fmt x) = sunits fmt x / 2 ^ lsbExp fmt * 2 ^ lsbExp fmt := by
  obtain ⟨-, hneg, hunits⟩ := ftrunc_finite hx
  have hxu := sunits_eq_unitsOf_of_nonneg h0
  rw [hxu]
  cases hn : negOf fmt x with
  | false => simp [sunits, hneg, hn, hunits]
  | true =>
    have hzero : unitsOf fmt (magOf fmt x) = 0 := by
      simp only [sunits, hn, if_true] at hxu
      omega
    simp [sunits, hneg, hn, hunits, hzero]

/-- The fractional part of a value that is not negative, in units: the remainder by 1.0 (40_numerics.md R73). -/
theorem sunits_frac_of_nonneg {fmt : Fmt} {x : Word} (hx : isFinite fmt x = true) (h0 : 0 ≤ sunits fmt x) :
    sunits fmt (fsub fmt x (ftrunc fmt x)) = sunits fmt x % 2 ^ lsbExp fmt := by
  obtain ⟨-, hfrac, -⟩ := frac_finite hx
  rw [hfrac, sunits_ftrunc_of_nonneg hx h0, Int.emod_def, mul_comm]

/-- The phase that `OSC.SETP` stores for a good operand is in [0, 1): the fractional part of a value that is not negative, or the
`+0.0` of an integer (70_reset_and_hazards.md R172). -/
theorem inUnit_frac_of_goodPhase {fmt : Fmt} {sin : Word → Word} {p : Word} (h : goodPhase fmt p = true) :
    inUnit fmt (frac (ieee fmt sin) p) = true := by
  simp only [goodPhase, Bool.and_eq_true, Bool.or_eq_true, decide_eq_true_eq] at h
  obtain ⟨hp, hcase⟩ := h
  obtain ⟨hfin, -, hinteger⟩ := frac_finite hp
  rw [frac_ieee]
  rcases hcase with hge | hint
  · obtain ⟨-, -, hge⟩ := fge_elim hge
    rw [sunits_zero] at hge
    have hone : (0 : ℤ) < 2 ^ lsbExp fmt := by positivity
    rw [inUnit_iff, sunits_frac_of_nonneg hp hge]
    exact ⟨isNaN_of_isFinite hfin, Int.emod_nonneg _ hone.ne', Int.emod_lt_of_pos _ hone⟩
  · have hsame : sunits fmt p = sunits fmt (ftrunc fmt p) := by rw [hint, sunits_toWidth]
    rw [hinteger hsame, ← constBits_zero]
    exact inUnit_zero fmt

theorem oscInRange_iff {fmt : Fmt} {o : Osc Word} : oscInRange fmt o = true ↔ inUnit fmt o.phase = true ∧ inUnit fmt o.inc = true := by
  simp [oscInRange]

/-- A command within the preconditions keeps the oscillator in range. -/
theorem oscAfter_inRange {fmt : Fmt} {sin : Word → Word} {i : Instr} {osc : Option (Osc Word)} (hi : commandInDomain fmt osc i = true)
    (hosc : ∀ o, osc = some o → oscInRange fmt o = true) : ∀ o, oscAfter (ieee fmt sin) i osc = some o → oscInRange fmt o = true := by
  intro o ho
  cases i with
  | oscNew wf bl sr hz =>
    simp only [oscAfter, newOsc_ieee, Option.some.injEq] at ho
    subst ho
    exact oscInRange_iff.2 ⟨inUnit_zero fmt, inUnit_fdiv_of_goodRate hi⟩
  | oscSetf hz =>
    obtain ⟨o', rfl, rfl⟩ := Option.map_eq_some_iff.1 ho
    obtain ⟨hphase, -⟩ := oscInRange_iff.1 (hosc o' rfl)
    exact oscInRange_iff.2 ⟨hphase, inUnit_fdiv_of_goodRate hi⟩
  | oscSetp p =>
    obtain ⟨o', rfl, rfl⟩ := Option.map_eq_some_iff.1 ho
    obtain ⟨-, hinc⟩ := oscInRange_iff.1 (hosc o' rfl)
    exact oscInRange_iff.2 ⟨inUnit_frac_of_goodPhase hi, hinc⟩
  | oscRst =>
    obtain ⟨o', rfl, rfl⟩ := Option.map_eq_some_iff.1 ho
    obtain ⟨-, hinc⟩ := oscInRange_iff.1 (hosc o' rfl)
    exact oscInRange_iff.2 ⟨inUnit_zero fmt, hinc⟩
  | oscNext =>
    obtain ⟨o', rfl, rfl⟩ := Option.map_eq_some_iff.1 ho
    obtain ⟨hphase, hinc⟩ := oscInRange_iff.1 (hosc o' rfl)
    exact oscInRange_iff.2 ⟨inUnit_accum hphase hinc, hinc⟩
  | _ => exact hosc o ho

theorem phaseInRange_of_osc_none {s : State} (h : s.osc = none) : PhaseInRange s := by
  simp [PhaseInRange, h]

theorem PhaseInRange.exec {i : Instr} {s t : State} (h : PhaseInRange s) (hi : commandInDomain s.fmt s.osc i = true)
    (he : Machine.exec i s = .next t) : PhaseInRange t := by
  unfold PhaseInRange
  rw [exec_fmt he, exec_osc he]
  exact oscAfter_inRange hi h

theorem PhaseInRange.step {s t : State} (h : PhaseInRange s) (hdom : nextInDomain s) (hs : Machine.step s = .next t) :
    PhaseInRange t := by
  obtain ⟨i, u, rest, hi, -, he⟩ | ⟨i, rest, -, -, -, rfl⟩ | ⟨-, -, rfl⟩ | ⟨w, rest, i, hi, hh, hd, he⟩ |
    ⟨w, rest, why, -, -, -, rfl⟩ | ⟨rest, -, -, rfl⟩ | ⟨w, took, rest, -, -, rfl⟩ := step_cases hs
  · have hcommand : commandInDomain s.fmt s.osc i = true := by simpa [nextInDomain, hi] using hdom
    exact PhaseInRange.exec (s := { s with inflight := none }) h hcommand he
  · exact phaseInRange_of_osc_none rfl
  · exact h
  · simp only [nextInDomain, hi] at hdom
    exact PhaseInRange.exec (s := { s with host := rest }) h (hdom w rest i hh hd) he
  · exact h
  · exact phaseInRange_of_osc_none rfl
  · exact phaseInRange_of_osc_none rfl

/-- Settles O35: the invariant case by case of what a step can do; the arithmetic is `inUnit_fdiv_of_goodRate`, `inUnit_accum` and
`inUnit_frac_of_goodPhase`. -/
theorem everyStepKeepsThePhaseInRange : Obligations.EveryStepKeepsThePhaseInRange :=
  fun _ _ h hdom hs => h.step hdom hs

/-! O23: the frame of a command. -/

/-- Only the oscillator commands that write an element change the oscillator. -/
theorem oscAfter_ne {N : NumSys Word} {i : Instr} {osc : Option (Osc Word)} (h : oscAfter N i osc ≠ osc) :
    (∃ wf bl sr hz, i = .oscNew wf bl sr hz) ∨ (∃ x, i = .oscSetf x ∨ i = .oscSetp x) ∨ i = .oscRst ∨ i = .oscNext := by
  cases i with
  | oscNew wf bl sr hz => exact .inl ⟨wf, bl, sr, hz, rfl⟩
  | oscSetf hz => exact .inr (.inl ⟨hz, .inl rfl⟩)
  | oscSetp p => exact .inr (.inl ⟨p, .inr rfl⟩)
  | oscRst => exact .inr (.inr (.inl rfl))
  | oscNext => exact .inr (.inr (.inr rfl))
  | _ => exact absurd rfl h

theorem tapsAfter_ne {fmt : Fmt} {N : NumSys Word} {i : Instr} {b : Taps Word} {rnd : List Word} (h : tapsAfter fmt N i b rnd ≠ b) :
    i = .pinkNew ∨ i = .pinkNext := by
  cases i with
  | pinkNew => exact .inl rfl
  | pinkNext => exact .inr rfl
  | _ => exact absurd rfl h

theorem prevAfter_ne {fmt : Fmt} {N : NumSys Word} {i : Instr} {prev : Word} {rnd : List Word}
    (h : prevAfter fmt N i prev rnd ≠ prev) : i = .brownNew ∨ i = .brownNext := by
  cases i with
  | brownNew => exact .inl rfl
  | brownNext => exact .inr rfl
  | _ => exact absurd rfl h

/-- A command changes `S.UNC` only if it needs an oscillator and there is none, and then to 1. -/
theorem exec_unc_eq_or_set {i : Instr} {s t : State} (h : exec i s = .next t) :
    t.unc = s.unc ∨ (t.unc = true ∧ s.osc = none ∧ needsOsc i = true) := by
  rw [exec_unc h]
  by_cases hb : (needsOsc i && s.osc.isNone) = true
  · rw [hb, Bool.or_true]
    rw [Bool.and_eq_true, Option.isNone_iff_eq_none] at hb
    exact .inr ⟨rfl, hb.symm⟩
  · simp [hb]

/-- Settles O23, element by element: each clause is the lemma that says what a command leaves in the element. -/
theorem commandsKeepTheOtherUnits : Obligations.CommandsKeepTheOtherUnits := by
  intro i s t h
  refine ⟨exec_fmt h, exec_sinTol h, exec_host h, exec_ill h, fun hne => ?_, fun hne => ?_, fun hne => ?_, fun hne => ?_, fun hne => ?_⟩
  · exact oscAfter_ne (exec_osc h ▸ hne)
  · exact tapsAfter_ne (exec_taps h ▸ hne)
  · exact prevAfter_ne (exec_prev h ▸ hne)
  · obtain ⟨-, hosc, hneeds⟩ := (exec_unc_eq_or_set h).resolve_left hne
    exact ⟨hosc, needsOsc_iff.1 hneeds⟩
  · obtain ⟨hr, hrnd, hwait⟩ := (exec_inflight h).resolve_left hne
    exact ⟨hrnd, hwait, takesRandom_iff.1 hr⟩

/-! O25: the sticky bits. -/

/-- The next event of the host asserts `rst`. -/
def AssertsReset (s : State) : Prop := ∃ rest w took, s.host = .rst :: rest ∨ s.host = .commandThenRst w took :: rest

/-- What a step does to the sticky bits: `rst` clears both, a reserved word sets `S.ILL` alone, and anything else leaves `S.ILL`
and changes `S.UNC` at most to 1, while there is no oscillator. -/
theorem step_sticky_cases {s t : State} (hs : step s = .next t) :
    (AssertsReset s ∧ t.ill = false ∧ t.unc = false) ∨
    ((∃ w rest why, s.host = .command w :: rest ∧ decode s.fmt w = .reserved why) ∧ t.ill = true ∧ t.unc = s.unc) ∨
    (t.ill = s.ill ∧ (t.unc = s.unc ∨ (t.unc = true ∧ s.osc = none))) := by
  obtain ⟨i, u, rest, -, -, he⟩ | ⟨i, rest, -, -, hh, rfl⟩ | ⟨-, -, rfl⟩ | ⟨w, rest, i, -, -, -, he⟩ |
    ⟨w, rest, why, -, hh, hd, rfl⟩ | ⟨rest, -, hh, rfl⟩ | ⟨w, took, rest, -, hh, rfl⟩ := step_cases hs
  · exact .inr (.inr ⟨(exec_ill he :), (exec_unc_eq_or_set he).imp_right fun hset => ⟨hset.1, hset.2.1⟩⟩)
  · exact .inl ⟨⟨rest, 0, false, .inl hh⟩, rfl, rfl⟩
  · exact .inr (.inr ⟨rfl, .inl rfl⟩)
  · exact .inr (.inr ⟨(exec_ill he :), (exec_unc_eq_or_set he).imp_right fun hset => ⟨hset.1, hset.2.1⟩⟩)
  · exact .inr (.inl ⟨⟨w, rest, why, hh, hd⟩, rfl, rfl⟩)
  · exact .inl ⟨⟨rest, 0, false, .inl hh⟩, rfl, rfl⟩
  · exact .inl ⟨⟨rest, w, took, .inr hh⟩, rfl, rfl⟩

/-- Settles O25, by what a step does to the two bits (`step_sticky_cases`). -/
theorem stickyBitsAreSetByFaultsAndClearedByReset : Obligations.StickyBitsAreSetByFaultsAndClearedByReset := by
  intro s t hs
  obtain ⟨hrst, hill, hunc⟩ | ⟨hword, hill, hunc⟩ | ⟨hill, hunc | ⟨hunc, hosc⟩⟩ := step_sticky_cases hs
  · exact ⟨fun _ _ => hrst, fun _ _ => hrst, by simp [hill], by simp [hunc]⟩
  · exact ⟨by simp [hill], by simp +contextual [hunc], fun _ _ => hword, by simp +contextual [hunc]⟩
  · rw [hill, hunc]
    exact ⟨by simp +contextual, by simp +contextual, by simp +contextual, by simp +contextual⟩
  · rw [hill, hunc]
    exact ⟨by simp +contextual, by simp, by simp +contextual, fun _ _ => hosc⟩

/-! O7, O33: the reset state. -/

/-- Settles O7: the reset state is written out element by element. -/
theorem resetStateHasTheValuesOfTheTable : Obligations.ResetStateHasTheValuesOfTheTable :=
  fun _ => ⟨rfl, rfl, rfl, rfl, rfl, rfl, rfl, rfl, rfl, rfl⟩

theorem stateOk_resetAt (fmt : Fmt) : StateOk (State.resetAt fmt) :=
  ⟨nofun, tapsFit_tapsOf (fits_zeroLit fmt), fits_zeroLit fmt, nofun, nofun⟩

/-- Zero taps and a zero accumulator are within their bounds: an evaluation at one word, in each format. -/
theorem noiseBounded_resetAt (fmt : Fmt) : NoiseBounded (State.resetAt fmt) := by
  unfold NoiseBounded
  cases fmt <;> decide +kernel

/-- Settles O33: no oscillator, nothing in flight, no response, and zeros everywhere else. -/
theorem resetStateIsOk : Obligations.ResetStateIsOk :=
  fun fmt => ⟨stateOk_resetAt fmt, phaseInRange_of_osc_none rfl, noiseBounded_resetAt fmt⟩

end Sys2Proof.Machine
end

/-! PROOFS of the family 20_memory: command words stored as bytes, and the step that accepts a command word (O5, O9). -/

section
namespace Sys2Proof.Machine

/-! O5: a command word as stored bytes. -/

/-- A command word is a whole number of bytes in both formats (30_encoding.md R45). -/
theorem cmdWidth_eq_eight_mul (fmt : Fmt) : fmt.cmdWidth = 8 * (fmt.cmdWidth / 8) := by cases fmt <;> rfl

theorem length_cmdBytes_mul_eight (fmt : Fmt) (w : CmdWord) : (cmdBytes fmt w).length * 8 = fmt.cmdWidth := by
  rw [cmdBytes, length_bytesOfNat, mul_comm, ← cmdWidth_eq_eight_mul]

/-- The stored bytes hold the bits that the port carries: the low `CW` bits of the word. -/
theorem natOfBytes_cmdBytes (fmt : Fmt) (w : CmdWord) : natOfBytes (cmdBytes fmt w) = w.toNat % 2 ^ fmt.cmdWidth := by
  have hpow : 256 ^ (fmt.cmdWidth / 8) = 2 ^ fmt.cmdWidth :=
    calc 256 ^ (fmt.cmdWidth / 8) = 2 ^ (8 * (fmt.cmdWidth / 8)) := (pow_mul 2 8 _).symm
      _ = 2 ^ fmt.cmdWidth := by rw [← cmdWidth_eq_eight_mul]
  rw [cmdBytes, natOfBytes_bytesOfNat, hpow]

theorem decodeBytes_of_length_eq {fmt : Fmt} {bs : List Byte} (h : bs.length * 8 = fmt.cmdWidth) :
    decodeBytes fmt bs = decode fmt (BitVec.ofNat 136 (natOfBytes bs)) := if_pos h

theorem decodeBytes_of_length_ne {fmt : Fmt} {bs : List Byte} (h : bs.length * 8 ≠ fmt.cmdWidth) :
    decodeBytes fmt bs = .reserved .partialWord := if_neg h

/-- Storing a word loses no bit that decoding reads (`decode_low`). -/
theorem decodeBytes_cmdBytes (fmt : Fmt) (w : CmdWord) : decodeBytes fmt (cmdBytes fmt w) = decode fmt w := by
  rw [decodeBytes_of_length_eq (length_cmdBytes_mul_eight fmt w), natOfBytes_cmdBytes]
  apply decode_low
  have hle : w.toNat % 2 ^ fmt.cmdWidth ≤ w.toNat := Nat.mod_le _ _
  rw [BitVec.toNat_ofNat, Nat.mod_eq_of_lt (hle.trans_lt w.isLt), Nat.mod_mod]

/-- Settles O5: the round trip through the bytes, and the refusal of any other length. -/
theorem storedBytesDecodeAsTheWord : Obligations.StoredBytesDecodeAsTheWord :=
  fun fmt => ⟨decodeBytes_cmdBytes fmt, fun _ => decodeBytes_of_length_ne⟩

/-! O9: the step that accepts an event. -/

/-- With nothing in flight a step accepts the next event of the host (20_memory.md R40). -/
theorem step_of_event {s : State} {e : HostEvent} {rest : List HostEvent} (hi : s.inflight = none) (hh : s.host = e :: rest) :
    step s = acceptEvent e { s with host := rest } := by
  simp only [step, hi, hh]

theorem acceptWord_of_command {s : State} {w : CmdWord} {i : Instr} (h : decode s.fmt w = .command i) :
    acceptWord w s = exec i s := by
  simp only [acceptWord, h]

/-- Settles O9: the step accepts the word (`step_of_event`), and the word is a command (`acceptWord_of_command`). -/
theorem stepRunsTheDecodedCommand : Obligations.StepRunsTheDecodedCommand := by
  intro s w rest i hi hh hd
  calc step s = acceptWord w { s with host := rest } := step_of_event hi hh
    _ = exec i { s with host := rest } := acceptWord_of_command hd

end Sys2Proof.Machine
end

/-! PROOFS of the family 30_encoding: the round trip in both directions, the rows of the opcode table, the reserved words, the response
words, the expansion of `OSC.FILL` (O1, O2, O3, O10, O4, O6, O32). -/

section
namespace Sys2Proof.Machine

/-! The rows of the opcode table, each named by its opcode. -/

/-- The column `op` of the opcode table (30_encoding.md R51). -/
def opcodeOf : Instr → ℕ
  | .oscNew _ _ _ _ => 1
  | .oscSetf _ => 2
  | .oscSetp _ => 3
  | .oscRst => 4
  | .oscNext => 5
  | .oscBlep _ => 6
  | .whiteNext => 8
  | .pinkNew => 9
  | .pinkNext => 10
  | .brownNew => 11
  | .brownNext => 12

/-- The fields of `w` are as the row of opcode `op` wants them: the opcode itself, `z = 0` (30_encoding.md R52), and zero in every field
that the row does not use (R51). -/
def FieldsOfRow (fmt : Fmt) (w : CmdWord) (op : ℕ) : Prop :=
  cmdField w (2 * fmt.width + 4) 4 = op ∧ cmdField w (2 * fmt.width) 1 = 0 ∧
  (op ≠ 1 → cmdField w (2 * fmt.width + 2) 2 = 0 ∧ cmdField w (2 * fmt.width + 1) 1 = 0 ∧ cmdField w 0 fmt.width = 0) ∧
  (op ∉ [1, 2, 3, 6] → cmdField w fmt.width fmt.width = 0)

/-- The command of the row of `i` whose operands are the fields `wf`, `bl`, `a` and `b`, as far as the row has them. -/
def withOperands (wf bl a b : ℕ) : Instr → Instr
  | .oscNew _ _ _ _ => .oscNew (wfOfCode wf) (modeOfCode bl) (operandOf a) (operandOf b)
  | .oscSetf _ => .oscSetf (operandOf a)
  | .oscSetp _ => .oscSetp (operandOf a)
  | .oscBlep _ => .oscBlep (operandOf a)
  | i => i

@[simp] theorem opcodeOf_withOperands (wf bl a b : ℕ) (i : Instr) : opcodeOf (withOperands wf bl a b i) = opcodeOf i := by
  cases i <;> rfl

/-- A word with the fields of a row decodes to the command of that row. -/
theorem decode_of_fieldsOfRow {fmt : Fmt} {w : CmdWord} {i : Instr} (h : FieldsOfRow fmt w (opcodeOf i)) :
    decode fmt w = .command (withOperands (cmdField w (2 * fmt.width + 2) 2) (cmdField w (2 * fmt.width + 1) 1)
      (cmdField w fmt.width fmt.width) (cmdField w 0 fmt.width) i) := by
  obtain ⟨hop, hz, hunused, ha⟩ := h
  simp only [decode]
  rw [hop, hz]
  cases i with
  | oscNew => rfl
  | oscSetf | oscSetp | oscBlep =>
    obtain ⟨hwf, hbl, hb⟩ := hunused (by simp [opcodeOf])
    rw [hwf, hbl, hb]
    rfl
  | oscRst | oscNext | whiteNext | pinkNew | pinkNext | brownNew | brownNext =>
    obtain ⟨hwf, hbl, hb⟩ := hunused (by decide)
    rw [hwf, hbl, hb, ha (by decide)]
    rfl

/-- A word that decodes to a command has the fields of the command's row. -/
theorem fieldsOfRow_of_decode {fmt : Fmt} {w : CmdWord} {i : Instr} (h : decode fmt w = .command i) :
    FieldsOfRow fmt w (opcodeOf i) := by
  obtain ⟨hz, ⟨hop, rfl⟩ | ⟨hwf, hbl, hb, hrow⟩⟩ := decode_cases h
  · exact ⟨hop, hz, by simp [opcodeOf], by simp [opcodeOf]⟩
  · obtain ⟨hop, rfl⟩ | ⟨hop, rfl⟩ | ⟨hop, rfl⟩ | ⟨ha, hrow⟩ := hrow
    · exact ⟨hop, hz, fun _ => ⟨hwf, hbl, hb⟩, by simp [opcodeOf]⟩
    · exact ⟨hop, hz, fun _ => ⟨hwf, hbl, hb⟩, by simp [opcodeOf]⟩
    · exact ⟨hop, hz, fun _ => ⟨hwf, hbl, hb⟩, by simp [opcodeOf]⟩
    · refine ⟨?_, hz, fun _ => ⟨hwf, hbl, hb⟩, fun _ => ha⟩
      obtain ⟨hop, rfl⟩ | ⟨hop, rfl⟩ | ⟨hop, rfl⟩ | ⟨hop, rfl⟩ | ⟨hop, rfl⟩ | ⟨hop, rfl⟩ | ⟨hop, rfl⟩ := hrow <;> exact hop

theorem exists_decode_opcodeOf_iff (fmt : Fmt) (w : CmdWord) (i : Instr) :
    (∃ j, decode fmt w = .command j ∧ opcodeOf j = opcodeOf i) ↔ FieldsOfRow fmt w (opcodeOf i) := by
  constructor
  · rintro ⟨j, hd, hj⟩
    exact hj ▸ fieldsOfRow_of_decode hd
  · intro h
    exact ⟨_, decode_of_fieldsOfRow h, opcodeOf_withOperands ..⟩

theorem opcodeOf_lt (i : Instr) : opcodeOf i < 16 := by cases i <;> simp [opcodeOf]

/-! O1: from the command to the word and back. -/

/-- A packed word decodes to a command of its row whose operands are the packed ones (`fields_packCmd`). -/
theorem decode_packCmd {fmt : Fmt} {op wf bl a b : ℕ} {i : Instr} (hop : opcodeOf i = op) (hwf : wf < 4) (hbl : bl < 2)
    (ha : a < 2 ^ fmt.width) (hb : b < 2 ^ fmt.width) (hunused : op ≠ 1 → wf = 0 ∧ bl = 0 ∧ b = 0)
    (hslot : op ∉ [1, 2, 3, 6] → a = 0) (hi : withOperands wf bl a b i = i) : decode fmt (packCmd fmt op wf bl a b) = .command i := by
  subst hop
  obtain ⟨eop, ewf, ebl, ez, ea, eb⟩ := fields_packCmd (opcodeOf_lt i) hwf hbl ha hb
  have hrow : FieldsOfRow fmt (packCmd fmt (opcodeOf i) wf bl a b) (opcodeOf i) := by
    rw [FieldsOfRow, ewf, ebl, ea, eb]
    exact ⟨eop, ez, hunused, hslot⟩
  rw [decode_of_fieldsOfRow hrow, ewf, ebl, ea, eb, hi]

/-- Settles O1, by the shape of the row: two operands, one in slot `a`, or none (`decode_packCmd`). -/
theorem decodeOfEncodeIsTheCommand : Obligations.DecodeOfEncodeIsTheCommand := by
  intro fmt i h
  have h0 : 0 < 2 ^ fmt.width := Nat.two_pow_pos _
  cases i with
  | oscNew wf bl sr hz =>
    simp only [Instr.wellFormed, Bool.and_eq_true, fits_iff] at h
    exact decode_packCmd rfl (wfCode_lt wf) (modeCode_lt bl) h.1 h.2 (by simp) (by simp) (by simp [withOperands])
  | oscSetf x | oscSetp x | oscBlep x =>
    exact decode_packCmd rfl (by decide) (by decide) (fits_iff.1 h) h0 (fun _ => ⟨rfl, rfl, rfl⟩) (by simp) (by simp [withOperands])
  | oscRst | oscNext | whiteNext | pinkNew | pinkNext | brownNew | brownNext =>
    exact decode_packCmd rfl (by decide) (by decide) h0 h0 (fun _ => ⟨rfl, rfl, rfl⟩) (fun _ => rfl) rfl

/-! O2: from the word to the command and back. -/

/-- The word of a decoded command is packed from the fields of the decoded word. -/
theorem encode_of_decode {fmt : Fmt} {w : CmdWord} {i : Instr} (h : decode fmt w = .command i) :
    encode fmt i = packCmd fmt (cmdField w (2 * fmt.width + 4) 4) (cmdField w (2 * fmt.width + 2) 2) (cmdField w (2 * fmt.width + 1) 1)
      (cmdField w fmt.width fmt.width) (cmdField w 0 fmt.width) := by
  have ha := toNat_operandOf (cmdField_lt w fmt.width fmt.width)
  obtain ⟨-, ⟨hop, rfl⟩ | ⟨hwf, hbl, hb, hrow⟩⟩ := decode_cases h
  · rw [encode, wfCode_wfOfCode (cmdField_lt w _ 2), modeCode_modeOfCode (cmdField_lt w _ 1), ha,
      toNat_operandOf (cmdField_lt w 0 fmt.width), hop]
  · rw [hwf, hbl, hb]
    obtain ⟨hop, rfl⟩ | ⟨hop, rfl⟩ | ⟨hop, rfl⟩ | ⟨ha0, hrow⟩ := hrow
    · rw [encode, ha, hop]
    · rw [encode, ha, hop]
    · rw [encode, ha, hop]
    · rw [ha0]
      obtain ⟨hop, rfl⟩ | ⟨hop, rfl⟩ | ⟨hop, rfl⟩ | ⟨hop, rfl⟩ | ⟨hop, rfl⟩ | ⟨hop, rfl⟩ | ⟨hop, rfl⟩ := hrow <;> rw [encode, hop]

/-- Settles O2: with `z = 0` the word is the sum of the fields that `encode` packs again. -/
theorem encodeOfDecodeIsTheWord : Obligations.EncodeOfDecodeIsTheWord := by
  intro fmt w i h
  refine ⟨wellFormed_of_decode h, ?_⟩
  have hz : cmdField w (2 * fmt.width) 1 = 0 := (decode_cases h).1
  rw [encode_of_decode h, toNat_packCmd (cmdField_lt ..) (cmdField_lt ..) (cmdField_lt ..) (cmdField_lt ..) (cmdField_lt ..),
    toNat_of_fields, hz, zero_mul, add_zero]

/-! O3: masks and matches. -/

/-- The mask of the row of opcode `op`, by the operands of the row: two, one in slot `a`, or none. -/
def maskOfRow (W op : ℕ) : ℕ :=
  if op = 1 then 241 * 2 ^ (2 * W) else if op ∈ [2, 3, 6] then 255 * 2 ^ (2 * W) + (2 ^ W - 1) else 2 ^ (2 * W + 8) - 1

/-- The numbers of the table are those that R51 computes from the opcode. -/
theorem tableRow_eq (fmt : Fmt) {i : Instr} {op : ℕ} (h : opcodeOf i = op) :
    tableRow fmt i = (BitVec.ofNat 136 (maskOfRow fmt.width op), BitVec.ofNat 136 (16 * op * 2 ^ (2 * fmt.width))) := by
  cases fmt <;> cases i <;> simp only [opcodeOf] at h <;> subst h <;> rfl

theorem two_mul_width_add_le (fmt : Fmt) : 2 * fmt.width + 8 ≤ 136 := by cases fmt <;> decide

/-- A row is named by its opcode: the match is the opcode, shifted. -/
theorem tableRow_eq_iff (fmt : Fmt) (i j : Instr) : tableRow fmt j = tableRow fmt i ↔ opcodeOf j = opcodeOf i := by
  constructor
  · intro h
    have hmatch := congrArg (fun row => row.2.toNat) h
    have hi := opcodeOf_lt i
    have hj := opcodeOf_lt j
    simp only [tableRow_eq fmt rfl, BitVec.toNat_ofNat] at hmatch
    cases fmt <;> simp only [Fmt.width] at hmatch <;> omega
  · intro h
    rw [tableRow_eq fmt h, tableRow_eq fmt rfl]

/-- A masked word equals the row's match exactly when its fields are the row's: one case for each shape of mask. -/
theorem and_mask_eq_match_iff (fmt : Fmt) (w : CmdWord) (i : Instr) :
    w &&& (tableRow fmt i).1 = (tableRow fmt i).2 ↔ FieldsOfRow fmt w (opcodeOf i) := by
  have hW := two_mul_width_add_le fmt
  have hlt := opcodeOf_lt i
  rw [tableRow_eq fmt rfl]
  generalize opcodeOf i = op at hlt ⊢
  unfold maskOfRow FieldsOfRow cmdField
  by_cases hnew : op = 1
  · subst hnew
    rw [if_pos rfl, mask_new hW]
    simp
  · rw [if_neg hnew]
    by_cases hslot : op ∈ [2, 3, 6]
    · rw [if_pos hslot, mask_slotA hW w _ (by omega)]
      have hin : op ∈ [1, 2, 3, 6] := List.mem_cons_of_mem 1 hslot
      simp only [hnew, hin, ne_eq, not_true, not_false_eq_true, true_imp_iff, false_imp_iff, and_true]
      cases fmt <;> simp only [Fmt.width] <;> omega
    · rw [if_neg hslot, mask_full hW w _ (by omega)]
      have hout : op ∉ [1, 2, 3, 6] := by simpa [hnew] using hslot
      simp only [hnew, hout, ne_eq, not_false_eq_true, true_imp_iff]
      cases fmt <;> simp only [Fmt.width] <;> omega

/-- Settles O3: both sides say that the word has the row's fields, and a word has one opcode. -/
theorem decodeFollowsTheMasksOfTheTable : Obligations.DecodeFollowsTheMasksOfTheTable := by
  intro fmt w i
  simp only [and_mask_eq_match_iff, tableRow_eq_iff, exists_decode_opcodeOf_iff, true_and]
  rintro k ⟨hi, -⟩ ⟨hk, -⟩
  exact hk.symm.trans hi

/-! O10: the reserved words. -/

theorem exists_opcodeOf_eq_iff (op : ℕ) : (∃ i, opcodeOf i = op) ↔ op ∈ [1, 2, 3, 4, 5, 6, 8, 9, 10, 11, 12] := by
  constructor
  · rintro ⟨i, rfl⟩
    cases i <;> simp [opcodeOf]
  · simp only [List.mem_cons, List.not_mem_nil, or_false]
    rintro (rfl | rfl | rfl | rfl | rfl | rfl | rfl | rfl | rfl | rfl | rfl)
    exacts [⟨.oscNew .sine .naive 0 0, rfl⟩, ⟨.oscSetf 0, rfl⟩, ⟨.oscSetp 0, rfl⟩, ⟨.oscRst, rfl⟩, ⟨.oscNext, rfl⟩, ⟨.oscBlep 0, rfl⟩,
      ⟨.whiteNext, rfl⟩, ⟨.pinkNew, rfl⟩, ⟨.pinkNext, rfl⟩, ⟨.brownNew, rfl⟩, ⟨.brownNext, rfl⟩]

/-- The words that are commands: the opcode is one of the table's and the other fields are the row's. -/
theorem exists_decode_command_iff (fmt : Fmt) (w : CmdWord) :
    (∃ i, decode fmt w = .command i) ↔
      cmdField w (2 * fmt.width + 4) 4 ∈ [1, 2, 3, 4, 5, 6, 8, 9, 10, 11, 12] ∧ FieldsOfRow fmt w (cmdField w (2 * fmt.width + 4) 4) := by
  rw [← exists_opcodeOf_eq_iff]
  constructor
  · rintro ⟨i, hd⟩
    have hrow := fieldsOfRow_of_decode hd
    have hop := hrow.1
    exact ⟨⟨i, hop.symm⟩, hop ▸ hrow⟩
  · rintro ⟨⟨i, hop⟩, hrow⟩
    exact ⟨_, decode_of_fieldsOfRow (hop ▸ hrow)⟩

/-- Decoding has two results (30_encoding.md R53). -/
theorem exists_decode_reserved_iff (fmt : Fmt) (w : CmdWord) :
    (∃ why, decode fmt w = .reserved why) ↔ ¬ ∃ i, decode fmt w = .command i := by
  cases decode fmt w <;> simp

/-- Of the opcodes of four bits, those without a row. -/
theorem notMem_opcodes_iff {op : ℕ} (h : op < 16) : op ∉ [1, 2, 3, 4, 5, 6, 8, 9, 10, 11, 12] ↔ op ∈ [0, 7, 13, 14, 15] := by
  simp only [List.mem_cons, List.not_mem_nil, or_false]
  omega

theorem decode_reserved_iff (fmt : Fmt) (w : CmdWord) :
    (∃ why, decode fmt w = .reserved why) ↔
      cmdField w (2 * fmt.width + 4) 4 ∈ [0, 7, 13, 14, 15] ∨ cmdField w (2 * fmt.width) 1 = 1 ∨
      (cmdField w (2 * fmt.width + 4) 4 ≠ 1 ∧
        (cmdField w (2 * fmt.width + 2) 2 ≠ 0 ∨ cmdField w (2 * fmt.width + 1) 1 ≠ 0 ∨ cmdField w 0 fmt.width ≠ 0)) ∨
      (cmdField w (2 * fmt.width + 4) 4 ∉ [1, 2, 3, 6] ∧ cmdField w fmt.width fmt.width ≠ 0) := by
  have hz := cmdField_lt w (2 * fmt.width) 1
  have hbit : ¬ cmdField w (2 * fmt.width) 1 = 0 ↔ cmdField w (2 * fmt.width) 1 = 1 := by omega
  rw [exists_decode_reserved_iff, exists_decode_command_iff, not_and_or, notMem_opcodes_iff (cmdField_lt w _ 4)]
  simp only [FieldsOfRow, true_and, not_and_or, Classical.not_imp, hbit, ne_eq]

theorem acceptWord_of_reserved {s : State} {w : CmdWord} {why : Reserved} (h : decode s.fmt w = .reserved why) :
    acceptWord w s = .next (raiseFault .ill s) := by
  simp only [acceptWord, h]

/-- Settles O10: the reserved words are those with the fields of no row, and the step raises the fault (`acceptWord_of_reserved`). -/
theorem reservedWordRaisesIll : Obligations.ReservedWordRaisesIll := by
  refine ⟨decode_reserved_iff, fun fmt => ?_, fun s w rest hi hh => ?_⟩
  · cases fmt <;> decide
  · cases hd : decode s.fmt w with
    | command i => exact .inl ⟨i, rfl⟩
    | reserved why =>
      refine .inr ⟨⟨why, rfl⟩, ?_⟩
      calc step s = acceptWord w { s with host := rest } := step_of_event hi hh
        _ = .next (raiseFault .ill { s with host := rest }) := acceptWord_of_reserved hd

/-! O4: words of the spec. -/

/-- Settles O4: eight evaluations of the decoder. -/
theorem wordsOfTheSpecDecode : Obligations.WordsOfTheSpecDecode := by
  unfold Obligations.WordsOfTheSpecDecode
  decide

/-! O6: the response words. -/

theorem bitsOf_lt (fmt : Fmt) (v : Word) : bitsOf fmt v < 2 ^ fmt.width := Nat.mod_lt _ (Nat.two_pow_pos _)

theorem bitsOf_of_fits {fmt : Fmt} {v : Word} (h : fits fmt v = true) : bitsOf fmt v = v.toNat := Nat.mod_eq_of_lt (fits_iff.1 h)

theorem toNat_rspWord_sample (fmt : Fmt) (v : Word) : (rspWord fmt (.sample v)).toNat = 1 * 2 ^ fmt.width + bitsOf fmt v := by
  have hlt := bitsOf_lt fmt v
  rw [rspWord, BitVec.toNat_ofNat, Nat.mod_eq_of_lt]
  cases fmt <;> simp only [Fmt.width] at * <;> omega

theorem toNat_rspWord_err (fmt : Fmt) (c : FaultCode) : (rspWord fmt (.err c)).toNat = 2 * 2 ^ fmt.width + faultNumber c := by
  cases fmt <;> cases c <;> rfl

/-- Kind 3 is never produced (30_encoding.md R46). -/
theorem rspWord_kind_lt (fmt : Fmt) (r : Response Word) : (rspWord fmt r).toNat / 2 ^ fmt.width < 3 := by
  apply Nat.div_lt_of_lt_mul
  cases r with
  | ack => exact Nat.mul_pos (Nat.two_pow_pos _) (by decide)
  | sample v =>
    have hlt := bitsOf_lt fmt v
    rw [toNat_rspWord_sample]
    omega
  | err c => cases fmt <;> cases c <;> decide

/-- Settles O6: the number of each response word, and the bound on its kind. -/
theorem responseWordsHaveTheirKindAndData : Obligations.ResponseWordsHaveTheirKindAndData := by
  intro fmt v hv
  refine ⟨rfl, ?_, toNat_rspWord_err fmt .ill, toNat_rspWord_err fmt .unc, rspWord_kind_lt fmt⟩
  rw [toNat_rspWord_sample, bitsOf_of_fits hv]

/-! O32: the expansion of `OSC.FILL`. -/

theorem assemble_fill_osc (fmt : Fmt) (n : ℕ) : assemble fmt [.fill .osc n] = List.replicate n (encode fmt .oscNext) := by
  simp [assemble, lineCommands, fillCommand]

/-- `OSC.NEXT` on an oscillator (41_oscillator_control.md R90). -/
theorem exec_oscNext_of_osc {s : State} {o : Osc Word} (h : s.osc = some o) :
    exec .oscNext s = .next (respond (.sample (oscSample s.num (advance s.num o))) { s with osc := some (advance s.num o) }) :=
  withOsc_some _ h

/-- A run of `OSC.NEXT` on an oscillator: each sample is one response, and leaves an oscillator for the next. -/
theorem execAll_replicate_oscNext (n : ℕ) {s : State} (h : s.osc ≠ none) :
    ∃ (t : State) (vs : List Word), execAll (List.replicate n .oscNext) s = .next t ∧ vs.length = n ∧
      t.rsp = s.rsp ++ vs.map (fun v => rspWord s.fmt (.sample v)) := by
  induction n generalizing s with
  | zero => exact ⟨s, [], rfl, rfl, by simp⟩
  | succ n ih =>
    obtain ⟨o, ho⟩ := Option.ne_none_iff_exists'.1 h
    have hnext := exec_oscNext_of_osc ho
    generalize oscSample s.num (advance s.num o) = v at hnext
    obtain ⟨t, vs, hrun, hlen, hrsp⟩ :=
      ih (s := respond (.sample v) { s with osc := some (advance s.num o) }) (by simp)
    refine ⟨t, v :: vs, ?_, by simp [hlen], by simp [hrsp]⟩
    rw [List.replicate_succ, execAll_cons hnext, hrun]

/-- Settles O32: the expansion (`assemble_fill_osc`) and the run of what it expands to (`execAll_replicate_oscNext`). -/
theorem oscFillGivesOneSamplePerSlot : Obligations.OscFillGivesOneSamplePerSlot :=
  fun n s h => ⟨assemble_fill_osc s.fmt n, execAll_replicate_oscNext n h⟩

end Sys2Proof.Machine
end

/-! PROOFS of the family 40_numerics: the primitives round the exact result, their special cases, the comparisons, the fractional part,
decimal literals and constants, the sine unit, the sine scenario of `IDEAL` (O37 to O44, O48, O49, O59). -/

section
namespace Sys2Proof.Machine

/-! The classes of a word: it is a NaN, an infinity or finite, and a zero is finite. -/

theorem isNaN_or_isInf_or_isFinite (fmt : Fmt) (x : Word) : isNaN fmt x = true ∨ isInf fmt x = true ∨ isFinite fmt x = true := by
  simp only [isNaN, isInf, isFinite, decide_eq_true_eq]
  omega

theorem isNaN_of_isInf {fmt : Fmt} {x : Word} (h : isInf fmt x = true) : isNaN fmt x = false :=
  isNaN_eq_false.2 (isInf_iff.1 h).le

theorem isZero_of_isInf {fmt : Fmt} {x : Word} (h : isInf fmt x = true) : isZero fmt x = false := by
  have hpos := infMag_pos fmt
  rw [isInf_iff] at h
  simp [isZero, h, hpos.ne']

theorem isFinite_of_isZero {fmt : Fmt} {x : Word} (h : isZero fmt x = true) : isFinite fmt x = true := by
  rw [isFinite_iff, isZero_iff.1 h]
  exact infMag_pos fmt

@[simp] theorem isInf_infWord (fmt : Fmt) (neg : Bool) : isInf fmt (infWord fmt neg) = true :=
  isInf_iff.2 (magOf_mkWord (infMag_lt fmt))

@[simp] theorem negOf_infWord (fmt : Fmt) (neg : Bool) : negOf fmt (infWord fmt neg) = neg := negOf_mkWord (infMag_lt fmt)

@[simp] theorem isFinite_zeroWord (fmt : Fmt) (neg : Bool) : isFinite fmt (zeroWord fmt neg) = true :=
  isFinite_of_isZero (isZero_iff.2 (magOf_mkWord (Nat.two_pow_pos _)))

@[simp] theorem negOf_zeroWord (fmt : Fmt) (neg : Bool) : negOf fmt (zeroWord fmt neg) = neg := negOf_mkWord (Nat.two_pow_pos _)

@[simp] theorem valueOf_flipSign (fmt : Fmt) (x : Word) : valueOf fmt (flipSign fmt x) = -valueOf fmt x := by
  rw [valueOf_eq, valueOf_eq, flipSign_finite.2, Int.cast_neg, neg_div]

theorem valueOf_eq_zero_iff {fmt : Fmt} {x : Word} : valueOf fmt x = 0 ↔ isZero fmt x = true := by
  rw [valueOf_eq, div_eq_zero_iff, or_iff_left (unit_pos fmt).ne', Int.cast_eq_zero, sunits_eq_zero_iff, isZero_iff]

theorem unitsOf_pos {fmt : Fmt} {m : ℕ} (h : 0 < m) : 0 < unitsOf fmt m := by
  simpa using (unitsOf_lt_iff (fmt := fmt)).2 h

theorem unitsOf_pos_of_not_isZero {fmt : Fmt} {x : Word} (h : isZero fmt x = false) : 0 < unitsOf fmt (magOf fmt x) :=
  unitsOf_pos (Nat.pos_of_ne_zero (by simpa [isZero] using h))

/-! The primitives, an equation per case (40_numerics.md R65 to R68, R70). -/

theorem fadd_of_isNaN {fmt : Fmt} {x y : Word} (h : isNaN fmt x = true ∨ isNaN fmt y = true) : fadd fmt x y = canonNaN fmt := by
  unfold fadd
  rw [if_pos (by simpa using h)]

theorem fadd_of_isInf_left {fmt : Fmt} {x y : Word} (hx : isInf fmt x = true) (hy : isNaN fmt y = false)
    (hsign : isInf fmt y = true → negOf fmt y = negOf fmt x) : fadd fmt x y = infWord fmt (negOf fmt x) := by
  cases hi : isInf fmt y with
  | true => simp [fadd, isNaN_of_isInf hx, hx, hy, hi, hsign hi]
  | false => simp [fadd, isNaN_of_isInf hx, hx, hy, hi]

theorem fadd_of_isInf_right {fmt : Fmt} {x y : Word} (hx : isFinite fmt x = true) (hy : isInf fmt y = true) :
    fadd fmt x y = infWord fmt (negOf fmt y) := by
  simp [fadd, isNaN_of_isFinite hx, isInf_of_isFinite hx, isNaN_of_isInf hy, hy]

theorem fadd_of_isInf_of_negOf_ne {fmt : Fmt} {x y : Word} (hx : isInf fmt x = true) (hy : isInf fmt y = true)
    (hsign : negOf fmt x ≠ negOf fmt y) : fadd fmt x y = canonNaN fmt := by
  simp [fadd, isNaN_of_isInf hx, isNaN_of_isInf hy, hx, hy, hsign]

theorem fadd_of_isFinite {fmt : Fmt} {x y : Word} (hx : isFinite fmt x = true) (hy : isFinite fmt y = true) :
    fadd fmt x y =
      if sunits fmt x + sunits fmt y = 0 then zeroWord fmt (negOf fmt x && negOf fmt y)
      else mkWord fmt (decide (sunits fmt x + sunits fmt y < 0)) (roundMag fmt (sunits fmt x + sunits fmt y).natAbs 1) := by
  simp [fadd, isNaN_of_isFinite hx, isNaN_of_isFinite hy, isInf_of_isFinite hx, isInf_of_isFinite hy]

theorem fmul_of_isNaN {fmt : Fmt} {x y : Word} (h : isNaN fmt x = true ∨ isNaN fmt y = true) : fmul fmt x y = canonNaN fmt := by
  unfold fmul
  dsimp only
  rw [if_pos (by simpa using h)]

theorem fmul_of_isInf {fmt : Fmt} {x y : Word} (hx : isNaN fmt x = false) (hy : isNaN fmt y = false)
    (h : isInf fmt x = true ∨ isInf fmt y = true) :
    fmul fmt x y =
      if isZero fmt x = true ∨ isZero fmt y = true then canonNaN fmt else infWord fmt (negOf fmt x != negOf fmt y) := by
  have hinf : (isInf fmt x || isInf fmt y) = true := by simpa using h
  simp [fmul, hx, hy, hinf]

theorem fmul_of_isFinite {fmt : Fmt} {x y : Word} (hx : isFinite fmt x = true) (hy : isFinite fmt y = true) :
    fmul fmt x y = mkWord fmt (negOf fmt x != negOf fmt y)
      (roundMag fmt (unitsOf fmt (magOf fmt x) * unitsOf fmt (magOf fmt y)) (2 ^ lsbExp fmt)) := by
  simp [fmul, isNaN_of_isFinite hx, isNaN_of_isFinite hy, isInf_of_isFinite hx, isInf_of_isFinite hy]

theorem fdiv_of_isNaN {fmt : Fmt} {x y : Word} (h : isNaN fmt x = true ∨ isNaN fmt y = true) : fdiv fmt x y = canonNaN fmt := by
  unfold fdiv
  dsimp only
  rw [if_pos (by simpa using h)]

theorem fdiv_of_isInf_left {fmt : Fmt} {x y : Word} (hx : isInf fmt x = true) (hy : isNaN fmt y = false) :
    fdiv fmt x y = if isInf fmt y = true then canonNaN fmt else infWord fmt (negOf fmt x != negOf fmt y) := by
  simp [fdiv, isNaN_of_isInf hx, hx, hy]

theorem fdiv_of_isInf_right {fmt : Fmt} {x y : Word} (hx : isFinite fmt x = true) (hy : isInf fmt y = true) :
    fdiv fmt x y = zeroWord fmt (negOf fmt x != negOf fmt y) := by
  simp [fdiv, isNaN_of_isFinite hx, isInf_of_isFinite hx, isNaN_of_isInf hy, hy]

theorem fdiv_of_isZero_right {fmt : Fmt} {x y : Word} (hx : isFinite fmt x = true) (hy : isZero fmt y = true) :
    fdiv fmt x y = if isZero fmt x = true then canonNaN fmt else infWord fmt (negOf fmt x != negOf fmt y) := by
  have hfin := isFinite_of_isZero hy
  simp [fdiv, isNaN_of_isFinite hx, isInf_of_isFinite hx, isNaN_of_isFinite hfin, isInf_of_isFinite hfin, hy]

theorem fdiv_of_isFinite {fmt : Fmt} {x y : Word} (hx : isFinite fmt x = true) (hy : isFinite fmt y = true)
    (hzero : isZero fmt y = false) :
    fdiv fmt x y = mkWord fmt (negOf fmt x != negOf fmt y)
      (roundMag fmt (unitsOf fmt (magOf fmt x) * 2 ^ lsbExp fmt) (unitsOf fmt (magOf fmt y))) := by
  simp [fdiv, isNaN_of_isFinite hx, isNaN_of_isFinite hy, isInf_of_isFinite hx, isInf_of_isFinite hy, hzero]

/-! O37: sums and differences. -/

/-- A sum of finite operands is a word of the sign of the exact sum with its rounded magnitude; of a zero sum the sign is left open. -/
theorem exists_fadd_eq_mkWord {fmt : Fmt} {x y : Word} (hx : isFinite fmt x = true) (hy : isFinite fmt y = true) :
    ∃ neg, fadd fmt x y = mkWord fmt neg (roundMag fmt (sunits fmt x + sunits fmt y).natAbs 1) ∧
      (sunits fmt x + sunits fmt y ≠ 0 → (neg = true ↔ sunits fmt x + sunits fmt y < 0)) := by
  rw [fadd_of_isFinite hx hy]
  split_ifs with h
  · rw [h, Int.natAbs_zero, roundMag_zero one_pos]
    exact ⟨_, rfl, fun hne => absurd rfl hne⟩
  · exact ⟨_, rfl, fun _ => decide_eq_true_iff⟩

theorem roundsTo_fadd {fmt : Fmt} {x y : Word} (hx : isFinite fmt x = true) (hy : isFinite fmt y = true) :
    RoundsTo fmt (valueOf fmt x + valueOf fmt y) (fadd fmt x y) := by
  have hL := unit_pos fmt
  have hsum : valueOf fmt x + valueOf fmt y = ((sunits fmt x + sunits fmt y : ℤ) : ℚ) / 2 ^ lsbExp fmt := by
    rw [valueOf_eq, valueOf_eq, ← add_div, Int.cast_add]
  obtain ⟨neg, hword, hneg⟩ := exists_fadd_eq_mkWord hx hy
  rw [hsum, hword]
  generalize sunits fmt x + sunits fmt y = t at hneg ⊢
  refine roundsTo_mkWord one_pos ?_ fun hne => ?_
  · rw [abs_div, abs_of_pos hL, Nat.cast_natAbs, Int.cast_abs, Nat.cast_one, one_mul]
  · have ht : t ≠ 0 := fun h0 => hne (by rw [h0, Int.cast_zero, zero_div])
    rw [hneg ht, div_lt_iff₀ hL, zero_mul, Int.cast_lt_zero]

/-- Settles O37: the sum by `roundsTo_fadd`, and the difference is the sum with the sign of the second operand flipped. -/
theorem addAndSubRoundTheExactResult : Obligations.AddAndSubRoundTheExactResult := by
  intro fmt x y hx hy
  refine ⟨roundsTo_fadd hx hy, ?_⟩
  have hsub := roundsTo_fadd hx (isFinite_flipSign.trans hy)
  rwa [valueOf_flipSign, ← sub_eq_add_neg] at hsub

/-! O38: products and quotients. -/

/-- The combined sign of two values that are not zero: they have opposite signs. -/
theorem negOf_bne_iff {fmt : Fmt} {x y : Word} (hx : valueOf fmt x ≠ 0) (hy : valueOf fmt y ≠ 0) :
    (negOf fmt x != negOf fmt y) = true ↔ 0 < valueOf fmt x ∧ valueOf fmt y < 0 ∨ valueOf fmt x < 0 ∧ 0 < valueOf fmt y := by
  have hxn := valueOf_neg_iff hx
  have hyn := valueOf_neg_iff hy
  have hxp : 0 < valueOf fmt x ↔ ¬ negOf fmt x = true := by rw [← hxn, not_lt, hx.symm.le_iff_lt]
  have hyp : 0 < valueOf fmt y ↔ ¬ negOf fmt y = true := by rw [← hyn, not_lt, hy.symm.le_iff_lt]
  rw [hxn, hyn, hxp, hyp]
  cases negOf fmt x <;> cases negOf fmt y <;> decide

theorem roundsTo_fmul {fmt : Fmt} {x y : Word} (hx : isFinite fmt x = true) (hy : isFinite fmt y = true) :
    RoundsTo fmt (valueOf fmt x * valueOf fmt y) (fmul fmt x y) := by
  rw [fmul_of_isFinite hx hy]
  refine roundsTo_mkWord (Nat.two_pow_pos _) ?_ fun hne => ?_
  · rw [abs_mul, abs_valueOf, abs_valueOf]
    push_cast
    rw [div_mul_div_comm]
  · rw [negOf_bne_iff (left_ne_zero_of_mul hne) (right_ne_zero_of_mul hne), mul_neg_iff]

theorem roundsTo_fdiv {fmt : Fmt} {x y : Word} (hx : isFinite fmt x = true) (hy : isFinite fmt y = true) (hzero : isZero fmt y = false) :
    RoundsTo fmt (valueOf fmt x / valueOf fmt y) (fdiv fmt x y) := by
  have hy0 : valueOf fmt y ≠ 0 := fun h => by rw [valueOf_eq_zero_iff.1 h] at hzero; contradiction
  have hpos : 0 < unitsOf fmt (magOf fmt y) := unitsOf_pos_of_not_isZero hzero
  rw [fdiv_of_isFinite hx hy hzero]
  refine roundsTo_mkWord hpos ?_ fun hne => ?_
  · have hL := (unit_pos fmt).ne'
    have hu : (unitsOf fmt (magOf fmt y) : ℚ) ≠ 0 := by exact_mod_cast hpos.ne'
    rw [abs_div, abs_valueOf, abs_valueOf]
    push_cast
    field_simp
  · rw [negOf_bne_iff (fun h => hne (by rw [h, zero_div])) hy0, div_neg_iff]

/-- Settles O38: `roundsTo_fmul` and `roundsTo_fdiv`. -/
theorem mulAndDivRoundTheExactResult : Obligations.MulAndDivRoundTheExactResult :=
  fun _ _ _ hx hy => ⟨roundsTo_fmul hx hy, roundsTo_fdiv hx hy⟩

/-! O39: special cases of sums. -/

/-- An infinity and a finite value, in either order. -/
theorem fadd_comm_of_isInf_of_isFinite {fmt : Fmt} {x y : Word} (hx : isInf fmt x = true) (hy : isFinite fmt y = true) :
    fadd fmt x y = fadd fmt y x := by
  rw [fadd_of_isInf_left hx (isNaN_of_isFinite hy) (by simp [isInf_of_isFinite hy]), fadd_of_isInf_right hy hx]

theorem fadd_comm (fmt : Fmt) (x y : Word) : fadd fmt x y = fadd fmt y x := by
  rcases isNaN_or_isInf_or_isFinite fmt x with hx | hx | hx
  · rw [fadd_of_isNaN (.inl hx), fadd_of_isNaN (.inr hx)]
  · rcases isNaN_or_isInf_or_isFinite fmt y with hy | hy | hy
    · rw [fadd_of_isNaN (.inr hy), fadd_of_isNaN (.inl hy)]
    · by_cases hsign : negOf fmt x = negOf fmt y
      · rw [fadd_of_isInf_left hx (isNaN_of_isInf hy) fun _ => hsign.symm, fadd_of_isInf_left hy (isNaN_of_isInf hx) fun _ => hsign, hsign]
      · rw [fadd_of_isInf_of_negOf_ne hx hy hsign, fadd_of_isInf_of_negOf_ne hy hx (Ne.symm hsign)]
    · exact fadd_comm_of_isInf_of_isFinite hx hy
  · rcases isNaN_or_isInf_or_isFinite fmt y with hy | hy | hy
    · rw [fadd_of_isNaN (.inr hy), fadd_of_isNaN (.inl hy)]
    · exact (fadd_comm_of_isInf_of_isFinite hy hx).symm
    · rw [fadd_of_isFinite hx hy, fadd_of_isFinite hy hx, add_comm (sunits fmt x), Bool.and_comm]

/-- An exact sum of zero is the zero that is negative when both operands are (R66). -/
theorem fadd_of_sum_eq_zero {fmt : Fmt} {x y : Word} (hx : isFinite fmt x = true) (hy : isFinite fmt y = true)
    (h : sunits fmt x + sunits fmt y = 0) : fadd fmt x y = zeroWord fmt (negOf fmt x && negOf fmt y) := by
  rw [fadd_of_isFinite hx hy, if_pos h]

theorem fadd_zeroWord (fmt : Fmt) (a b : Bool) : fadd fmt (zeroWord fmt a) (zeroWord fmt b) = zeroWord fmt (a && b) := by
  rw [fadd_of_sum_eq_zero (isFinite_zeroWord fmt a) (isFinite_zeroWord fmt b) (by simp), negOf_zeroWord, negOf_zeroWord]

theorem fsub_self {fmt : Fmt} {x : Word} (hx : isFinite fmt x = true) : fsub fmt x x = zeroWord fmt false := by
  rw [fsub, fadd_of_sum_eq_zero hx (isFinite_flipSign.trans hx) (by rw [flipSign_finite.2, add_neg_cancel]), negOf_flipSign,
    Bool.and_not_self]

/-- Settles O39: each clause is a case of `fadd`. -/
theorem addAndSubSpecialCases : Obligations.AddAndSubSpecialCases := by
  intro fmt x y
  refine ⟨fadd_comm fmt x y, rfl, fun hx hy hsum hsign => ?_, fsub_self, fadd_zeroWord fmt false false, fadd_zeroWord fmt true true,
    fadd_zeroWord fmt false true, fadd_of_isInf_of_negOf_ne (by simp) (by simp) (by simp),
    fadd_of_isInf_of_negOf_ne (by simp) (by simp) (by simp), fadd_of_isInf_left, fun h => ⟨fadd_of_isNaN h, fadd_of_isNaN ?_⟩⟩
  · have hand : (negOf fmt x && negOf fmt y) = false := by
      cases hn : negOf fmt x <;> cases hm : negOf fmt y <;> simp_all
    rw [fadd_of_sum_eq_zero hx hy hsum, hand]
  · rwa [isNaN_flipSign]

/-! O40: special cases of products and quotients. -/

/-- A product that is not NaN has the combined sign (R67). -/
theorem negOf_fmul {fmt : Fmt} {x y : Word} (h : isNaN fmt (fmul fmt x y) = false) :
    negOf fmt (fmul fmt x y) = (negOf fmt x != negOf fmt y) := by
  unfold fmul at h ⊢
  dsimp only at h ⊢
  split_ifs at h ⊢
  · simp at h
  · simp at h
  · exact negOf_infWord fmt _
  · exact negOf_mkWord (roundMag_lt_width fmt _ _)

theorem fmul_of_isZero_of_isInf {fmt : Fmt} {x y : Word} (hx : isZero fmt x = true) (hy : isInf fmt y = true) :
    fmul fmt x y = canonNaN fmt ∧ fmul fmt y x = canonNaN fmt := by
  have hxn := isNaN_of_isFinite (isFinite_of_isZero hx)
  have hyn := isNaN_of_isInf hy
  rw [fmul_of_isInf hxn hyn (.inr hy), fmul_of_isInf hyn hxn (.inl hy), if_pos (.inl hx), if_pos (.inr hx)]
  exact ⟨rfl, rfl⟩

theorem fmul_of_isInf_of_not_isZero {fmt : Fmt} {x y : Word} (hx : isInf fmt x = true) (hyn : isNaN fmt y = false)
    (hy : isZero fmt y = false) :
    fmul fmt x y = infWord fmt (negOf fmt x != negOf fmt y) ∧ fmul fmt y x = infWord fmt (negOf fmt x != negOf fmt y) := by
  have hxn := isNaN_of_isInf hx
  have hxz := isZero_of_isInf hx
  rw [fmul_of_isInf hxn hyn (.inl hx), fmul_of_isInf hyn hxn (.inr hx), if_neg (by simp [hxz, hy]), if_neg (by simp [hxz, hy]),
    bne_comm (a := negOf fmt y)]
  exact ⟨rfl, rfl⟩

theorem fdiv_of_isZero_left {fmt : Fmt} {x y : Word} (hx : isZero fmt x = true) (hy : isFinite fmt y = true) (hzero : isZero fmt y = false) :
    fdiv fmt x y = zeroWord fmt (negOf fmt x != negOf fmt y) := by
  have hpos : 0 < unitsOf fmt (magOf fmt y) := unitsOf_pos_of_not_isZero hzero
  rw [fdiv_of_isFinite (isFinite_of_isZero hx) hy hzero, isZero_iff.1 hx, unitsOf_zero, zero_mul, roundMag_zero hpos]
  rfl

/-- Settles O40: each clause is a case of `fmul` or `fdiv`. -/
theorem mulAndDivSpecialCases : Obligations.MulAndDivSpecialCases := by
  intro fmt x y neg
  refine ⟨fun h => ⟨fmul_of_isNaN h, fdiv_of_isNaN h⟩, negOf_fmul, fmul_of_isZero_of_isInf, fmul_of_isInf_of_not_isZero,
    fun hx hy => ?_, fdiv_of_isInf_right, fun hx hxz hy => ?_, fun hx hy => ?_, fun hx hy => ?_, fdiv_of_isZero_left⟩
  · rw [fdiv_of_isInf_left hx (isNaN_of_isFinite hy), isInf_of_isFinite hy]
    rfl
  · rw [fdiv_of_isZero_right hx hy, hxz]
    rfl
  · rw [fdiv_of_isZero_right (isFinite_of_isZero hx) hy, if_pos hx]
  · rw [fdiv_of_isInf_left hx (isNaN_of_isInf hy), if_pos hy]

/-! O41: comparisons. -/

/-- The value of a word that is no NaN, the infinities included (40_numerics.md R69). -/
noncomputable def extendedValue (fmt : Fmt) (x : Word) : EReal :=
  if isInf fmt x then (if negOf fmt x then ⊥ else ⊤) else (((valueOf fmt x : ℚ) : ℝ) : EReal)

/-- The units of an infinity stand above those of every finite value, so that `sunits` orders the infinities as well. -/
theorem extendedValue_cases {fmt : Fmt} {x : Word} (hx : isNaN fmt x = false) :
    (extendedValue fmt x = ⊥ ∧ sunits fmt x = -unitsOf fmt (infMag fmt)) ∨ (extendedValue fmt x = ⊤ ∧ sunits fmt x = unitsOf fmt (infMag fmt)) ∨
      (extendedValue fmt x = (((valueOf fmt x : ℚ) : ℝ) : EReal) ∧
        -unitsOf fmt (infMag fmt) < sunits fmt x ∧ sunits fmt x < unitsOf fmt (infMag fmt)) := by
  rcases isNaN_or_isInf_or_isFinite fmt x with h | h | h
  · rw [hx] at h
    contradiction
  · cases hn : negOf fmt x with
    | true => exact .inl ⟨by simp [extendedValue, h, hn], by simp [sunits, hn, isInf_iff.1 h]⟩
    | false => exact .inr (.inl ⟨by simp [extendedValue, h, hn], by simp [sunits, hn, isInf_iff.1 h]⟩)
  · have habs := natAbs_sunits fmt x
    have hlt : unitsOf fmt (magOf fmt x) < unitsOf fmt (infMag fmt) := unitsOf_lt_iff.2 (isFinite_iff.1 h)
    exact .inr (.inr ⟨by simp [extendedValue, isInf_of_isFinite h], by omega, by omega⟩)

theorem extendedValue_lt_iff {fmt : Fmt} {x y : Word} (hx : isNaN fmt x = false) (hy : isNaN fmt y = false) :
    extendedValue fmt x < extendedValue fmt y ↔ sunits fmt x < sunits fmt y := by
  have hpos : 0 < unitsOf fmt (infMag fmt) := unitsOf_pos (infMag_pos fmt)
  rcases extendedValue_cases hx with ⟨hvx, hux⟩ | ⟨hvx, hux⟩ | ⟨hvx, hxlo, hxhi⟩ <;>
    rcases extendedValue_cases hy with ⟨hvy, huy⟩ | ⟨hvy, huy⟩ | ⟨hvy, hylo, hyhi⟩ <;> rw [hvx, hvy]
  case inr.inr.inr.inr => rw [EReal.coe_lt_coe_iff, Rat.cast_lt, valueOf_lt_iff]
  all_goals simp only [lt_irrefl, not_lt_bot, not_top_lt, bot_lt_top, EReal.bot_lt_coe, EReal.coe_lt_top, true_iff, false_iff]
  all_goals omega

theorem compare_of_isNaN {fmt : Fmt} {x y : Word} (h : isNaN fmt x = true ∨ isNaN fmt y = true) :
    flt fmt x y = false ∧ fgt fmt x y = false ∧ fge fmt x y = false := by
  rcases h with h | h <;> simp [flt, fgt, fge, h]

/-- Settles O41: comparisons are comparisons of units, and units are in the order of the values (`extendedValue_lt_iff`). -/
theorem comparisonsFollowTheRealValues : Obligations.ComparisonsFollowTheRealValues := by
  intro fmt x y value
  refine ⟨fun hx hy => ⟨?_, ?_, ?_⟩, by simp [flt], by simp [fge], compare_of_isNaN⟩
  · exact (flt_iff hx hy).trans (extendedValue_lt_iff hx hy).symm
  · exact (fgt_iff hx hy).trans (extendedValue_lt_iff hy hx).symm
  · calc fge fmt x y = true ↔ ¬ sunits fmt x < sunits fmt y := (fge_iff hx hy).trans not_lt.symm
      _ ↔ ¬ extendedValue fmt x < extendedValue fmt y := not_congr (extendedValue_lt_iff hx hy).symm
      _ ↔ value x ≥ value y := not_lt

/-! O42: truncation and the fractional part. -/

/-- Truncation of a finite value, in units: the quotient by 1.0 rounded toward zero (R72). -/
theorem sunits_ftrunc {fmt : Fmt} {x : Word} (hx : isFinite fmt x = true) :
    sunits fmt (ftrunc fmt x) = (sunits fmt x).tdiv (2 ^ lsbExp fmt) * 2 ^ lsbExp fmt := by
  obtain ⟨-, hneg, hunits⟩ := ftrunc_finite hx
  unfold sunits
  rw [hneg, hunits]
  cases negOf fmt x
  · simp
  · simp

/-- The quotient rounded toward zero is the floor of one that is not negative and the ceiling of one that is. -/
theorem cast_tdiv_eq (a : ℤ) {d : ℕ} (hd : 0 < d) :
    ((a.tdiv d : ℤ) : ℚ) = if 0 ≤ (a : ℚ) / d then (⌊(a : ℚ) / d⌋ : ℚ) else (⌈(a : ℚ) / d⌉ : ℚ) := by
  have hsign : 0 ≤ (a : ℚ) / d ↔ 0 ≤ a := by
    rw [le_div_iff₀ (by exact_mod_cast hd), zero_mul, Int.cast_nonneg_iff]
  rw [Rat.floor_intCast_div_natCast, Rat.ceil_intCast_div_natCast]
  split_ifs with h
  · rw [Int.tdiv_eq_ediv_of_nonneg (hsign.1 h)]
  · rw [hsign, not_le] at h
    rw [← Int.tdiv_eq_ediv_of_nonneg (by omega), Int.neg_tdiv, neg_neg]

theorem valueOf_ftrunc {fmt : Fmt} {x : Word} (hx : isFinite fmt x = true) :
    valueOf fmt (ftrunc fmt x) = if 0 ≤ valueOf fmt x then (⌊valueOf fmt x⌋ : ℚ) else (⌈valueOf fmt x⌉ : ℚ) := by
  have hL := (unit_pos fmt).ne'
  have htrunc := cast_tdiv_eq (sunits fmt x) (Nat.two_pow_pos (lsbExp fmt))
  rw [valueOf_eq fmt (ftrunc fmt x), sunits_ftrunc hx]
  push_cast at htrunc ⊢
  rw [mul_div_cancel_right₀ _ hL, htrunc, ← valueOf_eq]

theorem ftrunc_of_isNaN {fmt : Fmt} {x : Word} (h : isNaN fmt x = true) : ftrunc fmt x = canonNaN fmt := by
  rw [ftrunc, if_pos h]

theorem mkWord_negOf_magOf (fmt : Fmt) (x : Word) : mkWord fmt (negOf fmt x) (magOf fmt x) = toWidth fmt x := by
  apply BitVec.eq_of_toNat_eq
  rw [toNat_mkWord (magOf_lt fmt x), toNat_toWidth, width_eq, mul_comm, Nat.mod_mul]
  unfold negOf magOf
  have hbit : x.toNat / 2 ^ (fmt.width - 1) % 2 < 2 := Nat.mod_lt _ two_pos
  interval_cases h : x.toNat / 2 ^ (fmt.width - 1) % 2
  · simp
  · simp [add_comm]

theorem ftrunc_of_isInf {fmt : Fmt} {x : Word} (h : isInf fmt x = true) : ftrunc fmt x = infWord fmt (negOf fmt x) := by
  simp [ftrunc, isNaN_of_isInf h, h]

/-- The fraction of a NaN, and the difference of an infinity and itself (R73). -/
theorem frac_of_not_isFinite {fmt : Fmt} {sin : Word → Word} {x : Word} (h : isFinite fmt x = false) :
    frac (ieee fmt sin) x = canonNaN fmt := by
  rw [frac_ieee]
  rcases isNaN_or_isInf_or_isFinite fmt x with hx | hx | hx
  · exact fadd_of_isNaN (.inl hx)
  · rw [ftrunc_of_isInf hx]
    exact fadd_of_isInf_of_negOf_ne hx (by simp) (by simp)
  · rw [h] at hx
    contradiction

/-- Settles O42: truncation is the quotient by 1.0 rounded toward zero (`valueOf_ftrunc`), and the difference is exact (`frac_finite`). -/
theorem fracIsExactAndTowardZero : Obligations.FracIsExactAndTowardZero := by
  intro fmt sin x
  refine ⟨fun hx => ?_, frac_of_not_isFinite, fun h => ?_, ftrunc_of_isNaN⟩
  · intro v whole
    obtain ⟨htfin, htneg, -⟩ := ftrunc_finite hx
    obtain ⟨hffin, hfunits, hfzero⟩ := frac_finite hx
    have hwhole : valueOf fmt (ftrunc fmt x) = whole := valueOf_ftrunc hx
    rw [frac_ieee]
    refine ⟨htfin, hwhole, htneg, hffin, ?_, fun hv => hfzero ?_⟩
    · rw [← hwhole, valueOf_eq, hfunits, Int.cast_sub, sub_div, ← valueOf_eq, ← valueOf_eq]
    · have heq : valueOf fmt x = valueOf fmt (ftrunc fmt x) := hv.trans hwhole.symm
      exact le_antisymm (valueOf_le_iff.1 heq.le) (valueOf_le_iff.1 heq.ge)
  · rw [ftrunc_of_isInf h, infWord, ← isInf_iff.1 h, mkWord_negOf_magOf]

/-! O43, O44: decimal literals. -/

theorem abs_decimal (fmt : Fmt) (digits places : ℕ) :
    |(digits : ℚ) / 10 ^ places| = ((digits * 2 ^ lsbExp fmt : ℕ) : ℚ) / ((10 ^ places : ℕ) * 2 ^ lsbExp fmt) := by
  have hL := (unit_pos fmt).ne'
  rw [abs_of_nonneg (by positivity)]
  push_cast
  rw [mul_div_mul_right _ _ hL]

/-- Settles O44: a literal's word is its sign and its rounded magnitude (`roundsTo_mkWord`). -/
theorem decimalLiteralsRoundToNearest : Obligations.DecimalLiteralsRoundToNearest := by
  intro fmt digits places
  have hpos : 0 < 10 ^ places := by positivity
  have hnonneg : 0 ≤ (digits : ℚ) / 10 ^ places := by positivity
  constructor
  · exact roundsTo_mkWord hpos (abs_decimal fmt digits places) fun _ => by simp [hnonneg.not_gt]
  · refine roundsTo_mkWord hpos (by rw [abs_neg]; exact abs_decimal fmt digits places) fun hne => ?_
    simpa using lt_of_le_of_ne hnonneg (Ne.symm (neg_ne_zero.1 hne))

/-- Settles O43: an evaluation for each constant in each format. -/
theorem constantsAreTheRoundedLiterals : Obligations.ConstantsAreTheRoundedLiterals := by
  intro fmt c
  cases fmt <;> cases c <;> decide +kernel

/-! O48, O49: the sine unit. -/

theorem sineBudget_lt_sinTol (fmt : Fmt) : sineBudget fmt < fmt.sinTol := by
  cases fmt <;> norm_num [sineBudget, Fmt.sinTol]

/-- The budget of 40_numerics.md R76: a last place of the unit, and the error of its argument. -/
theorem lastPlace_add_twoPiError_le (fmt : Fmt) :
    (1 / 2 : ℝ) ^ fmt.precision + (twoPiError fmt : ℝ) * (1 / 2) ^ fmt.precision ≤ ((sineBudget fmt : ℚ) : ℝ) := by
  cases fmt <;> norm_num [Fmt.precision, Fmt.fracBits, sineBudget, twoPiError]

/-- A unit within a last place of the real sine of its operand is within the budget of `sin(2 * pi * p)`: the sine is 1-Lipschitz, so the
argument's error adds to the unit's. -/
theorem approx_of_lastPlace {fmt : Fmt} {sin : Word → Word}
    (hnear : ∀ x, isFinite fmt x = true → |valueOf fmt x| ≤ 7 →
      |((valueOf fmt (sin x) : ℚ) : ℝ) - Real.sin ((valueOf fmt x : ℚ) : ℝ)| ≤ (1 / 2) ^ fmt.precision)
    {p : Word} (hp : inUnit fmt p = true) :
    |((valueOf fmt (sin (fmul fmt (constBits fmt .twoPi) p)) : ℚ) : ℝ) - Real.sin (2 * Real.pi * ((valueOf fmt p : ℚ) : ℝ))| ≤
      ((sineBudget fmt : ℚ) : ℝ) := by
  obtain ⟨hfin, h7, harg⟩ := twoPi_mul_near fmt hp
  generalize fmul fmt (constBits fmt .twoPi) p = x at hfin h7 harg ⊢
  have hsin := Real.abs_sin_sub_sin_le ((valueOf fmt x : ℚ) : ℝ) (2 * Real.pi * ((valueOf fmt p : ℚ) : ℝ))
  calc |((valueOf fmt (sin x) : ℚ) : ℝ) - Real.sin (2 * Real.pi * ((valueOf fmt p : ℚ) : ℝ))|
      ≤ |((valueOf fmt (sin x) : ℚ) : ℝ) - Real.sin ((valueOf fmt x : ℚ) : ℝ)| +
          |Real.sin ((valueOf fmt x : ℚ) : ℝ) - Real.sin (2 * Real.pi * ((valueOf fmt p : ℚ) : ℝ))| := abs_sub_le _ _ _
    _ ≤ (1 / 2) ^ fmt.precision + (twoPiError fmt : ℝ) * (1 / 2) ^ fmt.precision := add_le_add (hnear x hfin h7) (hsin.trans harg)
    _ ≤ ((sineBudget fmt : ℚ) : ℝ) := lastPlace_add_twoPiError_le fmt

/-- The reference unit meets R76 within the error budget, and not only within the tolerance of R7. -/
theorem referenceSine_budget (fmt : Fmt) : SinProperties fmt (sineBudget fmt) (referenceSine fmt) :=
  { referenceSine_properties fmt le_rfl with approx := fun _ hp => approx_of_lastPlace (fun _ => referenceSine_near fmt) hp }

/-- Settles O49: the budget covers a unit accurate to the last place (`approx_of_lastPlace`), and the reference unit is one. -/
theorem namedSinePropertiesCanBeMet : Obligations.NamedSinePropertiesCanBeMet := fun fmt =>
  ⟨sineBudget_lt_sinTol fmt,
    fun _ htotal hdet hrange hzero hnan hnear => ⟨htotal, hdet, hrange, hzero, fun _ hp => approx_of_lastPlace hnear hp, hnan⟩,
    referenceSine fmt, referenceSine_budget fmt⟩

/-- Settles O48: a tolerance from the budget on is met by the reference unit, so the unit has the properties (`sineUnit_properties`), and
the rest is `SIN_APPROX`. -/
theorem sineUnitHasTheNamedProperties : Obligations.SineUnitHasTheNamedProperties := by
  intro fmt tol t bound out
  refine ⟨⟨rfl, fun _ => rfl⟩, fun hmet => ?_, fun hnone => ?_⟩
  · have hprop : SinProperties fmt t (sineUnit fmt tol).1 :=
      sineUnit_properties (hmet.elim (fun hle => ⟨_, (referenceSine_budget fmt).mono hle⟩) id)
    refine ⟨hprop, hprop.sine_zero, fun p hp => ?_⟩
    have happrox : |out p - Real.sin (2 * Real.pi * ((valueOf fmt p : ℚ) : ℝ))| ≤ bound := hprop.approx p hp
    have hsin : ∀ s : ℚ, quarterSine (valueOf fmt p) = some s → |out p - (s : ℝ)| ≤ bound := fun s hs => by
      rwa [quarterSine_eq hs] at happrox
    refine ⟨happrox, fun h => ?_, fun h => ?_, fun h => ?_⟩
    · simpa using hsin 1 (by norm_num [quarterSine, h])
    · simpa using hsin 0 (by norm_num [quarterSine, h])
    · simpa using hsin (-1) (by norm_num [quarterSine, h])
  · obtain h | ⟨-, h⟩ := (sineUnit fmt tol).2
    · exact absurd h (hnone _)
    · exact h

/-! O59: the sine scenario of `IDEAL`. -/

theorem idealRun_cons {c : IdealCommand} {cs : List IdealCommand} {s t : IdealState} (h : idealExec c s = .next t) :
    idealRun s (c :: cs) = idealRun t cs := by
  rw [idealRun, h]

theorem idealExec_oscNew {wf : Waveform} {bl : Mode} {sr hz : ℝ} (h : sr ≠ 0) (s : IdealState) :
    idealExec (.oscNew wf bl sr hz) s = .next (idealRespond .ack { s with osc := some (newOsc idealNum wf bl sr hz) }) :=
  if_neg h

/-- A naive oscillator divides by nothing, so `OSC.NEXT` is never refused. -/
theorem idealExec_oscNext_of_naive {s : IdealState} {o : Osc ℝ} (ho : s.osc = some o) (hbl : o.bl = .naive) :
    idealExec .oscNext s =
      .next (idealRespond (.sample (oscSample idealNum (advance idealNum o))) { s with osc := some (advance idealNum o) }) := by
  have hdef : ¬ sampleDividesByZero (advance idealNum o) := fun h => by
    have := h.1
    rw [advance, hbl] at this
    contradiction
  simp [idealExec, idealWithOsc, ho, unlessUndefined, hdef]

/-- The oscillator of scenario S1 at a phase: a naive sine at a quarter of the sample rate. -/
noncomputable def quarterRateSine (ph : ℝ) : Osc ℝ := { phase := ph, inc := 1 / 4, sr := 4, wf := .sine, bl := .naive }

theorem idealExec_oscNext_of_quarterRateSine {s : IdealState} {ph ph' y : ℝ} (ho : s.osc = some (quarterRateSine ph))
    (hph : accum idealNum ph (1 / 4) = ph') (hy : Real.sin (2 * Real.pi * ph') = y) :
    idealExec .oscNext s = .next (idealRespond (.sample y) { s with osc := some (quarterRateSine ph') }) := by
  subst hph hy
  exact idealExec_oscNext_of_naive ho rfl

/-- Settles O59: the phases 1/4, 1/2, 3/4 and 0, and the sine at each. -/
theorem idealSineScenario : Obligations.IdealSineScenario := by
  have hnew : newOsc idealNum .sine .naive 4 1 = quarterRateSine 0 := by
    simp [newOsc, quarterRateSine, idealNum]
  have hquarter : Real.sin (2 * Real.pi * (1 / 4)) = 1 := by
    simpa using quarterSine_eq (v := 1 / 4) (s := 1) (by norm_num [quarterSine])
  have hhalf : Real.sin (2 * Real.pi * (1 / 2)) = 0 := by
    simpa using quarterSine_eq (v := 1 / 2) (s := 0) (by norm_num [quarterSine])
  have hthree : Real.sin (2 * Real.pi * (3 / 4)) = -1 := by
    simpa using quarterSine_eq (v := 3 / 4) (s := -1) (by norm_num [quarterSine])
  have hzero : Real.sin (2 * Real.pi * 0) = 0 := by simp
  unfold Obligations.IdealSineScenario
  rw [idealRun_cons (idealExec_oscNew four_ne_zero _), hnew,
    idealRun_cons (idealExec_oscNext_of_quarterRateSine rfl (by norm_num [accum_ideal]) hquarter),
    idealRun_cons (idealExec_oscNext_of_quarterRateSine rfl (by norm_num [accum_ideal]) hhalf),
    idealRun_cons (idealExec_oscNext_of_quarterRateSine rfl (by norm_num [accum_ideal]) hthree),
    idealRun_cons (idealExec_oscNext_of_quarterRateSine rfl (by norm_num [accum_ideal]) hzero)]
  exact ⟨_, rfl, rfl⟩

end Sys2Proof.Machine
end

/-! PROOFS of the family 41_oscillator_control: what the four state commands and `OSC.NEXT` do, the elements a command leaves alone, the
phase as a run of its own, the repeated `OSC.SETF`, `OSC.RST` against `OSC.NEW`, the accumulator (O12 to O15, O22, O28, O29, O30,
O45, O58). -/

section
namespace Sys2Proof.Machine

/-! O12 to O15: each oscillator command in full. -/

/-- `+0.0` is the all-zero pattern (40_numerics.md R78). -/
theorem constBits_zero_eq_zero (fmt : Fmt) : constBits fmt .zero = 0 := by cases fmt <;> rfl

/-- Settles O12: `OSC.NEW` needs nothing of the state (`newOsc_ieee` gives its elements). -/
theorem oscNewConstructs : Obligations.OscNewConstructs := by
  intro wf bl sr hz s
  calc exec (.oscNew wf bl sr hz) s = .next (respond .ack { s with osc := some (newOsc s.num wf bl sr hz) }) := rfl
    _ = _ := by rw [num_eq, newOsc_ieee, constBits_zero_eq_zero]; rfl

/-- Settles O13: on an oscillator the command runs (`withOsc_some`), and its division is `fdiv`. -/
theorem oscSetfStoresTheQuotient : Obligations.OscSetfStoresTheQuotient :=
  fun _ _ _ ho => withOsc_some _ ho

theorem exec_oscRst_of_osc {s : State} {o : Osc Word} (h : s.osc = some o) :
    exec .oscRst s = .next (respond .ack { s with osc := some { o with phase := 0 } }) := by
  rw [← constBits_zero_eq_zero s.fmt]
  exact withOsc_some _ h

/-- Settles O14: on an oscillator both commands run (`withOsc_some`), and the fractional part is spelled out in `frac`. -/
theorem phaseCommandsStoreThePhase : Obligations.PhaseCommandsStoreThePhase :=
  fun _ _ _ ho => ⟨withOsc_some _ ho, exec_oscRst_of_osc ho⟩

theorem respond_sample (v : Word) (s : State) :
    respond (.sample v) s = { s with rsp := s.rsp ++ [BitVec.ofNat 66 (2 ^ s.fmt.width + v.toNat % 2 ^ s.fmt.width)] } := by
  rw [respond, rspWord, bitsOf, one_mul]

/-- Settles O15: `OSC.NEXT` runs (`exec_oscNext_of_osc`), and in each mode and waveform the sample is its formula. -/
theorem oscNextAdvancesThenSamples : Obligations.OscNextAdvancesThenSamples := by
  intro s o ho fmt K d p1 p sine saw square triangle corrector half p2 v
  have hblep : ∀ x, blep s.num x d = corrector x := fun x => blep_ieee fmt (sineUnit fmt s.sinTol).1 x d
  have hsample : mapSample s.num o.wf o.bl p d = v := by
    subst v
    cases o.bl with
    | naive => cases o.wf <;> rfl
    | bandlimited =>
      cases o.wf with
      | sine => rfl
      | saw => exact congrArg (fsub fmt saw) (hblep p)
      | square => exact congrArg₂ (fun x y => fsub fmt (fadd fmt square x) y) (hblep p) (hblep p2)
      | triangle => rfl
  have hadv : advance s.num o = { o with phase := p } := rfl
  rw [exec_oscNext_of_osc ho, respond_sample, oscSample, hadv, hsample]

/-! O22: what a command other than `OSC.NEW` leaves of an oscillator. -/

/-- Of the commands but `OSC.NEW` none unmakes an oscillator or writes rate, waveform or mode, `OSC.SETF` alone writes the increment,
and three write the phase (41_oscillator_control.md R86). -/
theorem exec_osc_of_ne_oscNew {i : Instr} {s t : State} {o : Osc Word} (he : exec i s = .next t) (ho : s.osc = some o)
    (h : ∀ wf bl sr hz, i ≠ .oscNew wf bl sr hz) :
    ∃ o', t.osc = some o' ∧ o'.sr = o.sr ∧ o'.wf = o.wf ∧ o'.bl = o.bl ∧
      (o'.inc ≠ o.inc → ∃ hz, i = .oscSetf hz) ∧
      (o'.phase ≠ o.phase → (∃ p, i = .oscSetp p) ∨ i = .oscRst ∨ i = .oscNext) := by
  rw [exec_osc he, ho]
  cases i with
  | oscNew wf bl sr hz => exact absurd rfl (h wf bl sr hz)
  | oscSetf hz => exact ⟨_, rfl, rfl, rfl, rfl, fun _ => ⟨hz, rfl⟩, (absurd rfl ·)⟩
  | oscSetp p => exact ⟨_, rfl, rfl, rfl, rfl, (absurd rfl ·), fun _ => .inl ⟨p, rfl⟩⟩
  | oscRst => exact ⟨_, rfl, rfl, rfl, rfl, (absurd rfl ·), fun _ => .inr (.inl rfl)⟩
  | oscNext => exact ⟨_, rfl, rfl, rfl, rfl, (absurd rfl ·), fun _ => .inr (.inr rfl)⟩
  | _ => exact ⟨o, rfl, rfl, rfl, rfl, (absurd rfl ·), (absurd rfl ·)⟩

theorem ne_oscNew_of_takesRandom {i : Instr} (h : takesRandom i = true) (wf : Waveform) (bl : Mode) (sr hz : Word) :
    i ≠ .oscNew wf bl sr hz := by
  rintro rfl
  exact Bool.false_ne_true h

/-- Settles O22: a step that neither resets nor accepts `OSC.NEW` executes another command, or touches no oscillator; a command in
flight is no `OSC.NEW`, since it waits for a random value. -/
theorem onlyOscNewChangesRateWaveformAndMode : Obligations.OnlyOscNewChangesRateWaveformAndMode := by
  refine ⟨fun _ _ _ _ => exec_osc_of_ne_oscNew, fun s t o hok hs ho hrst habandon hnew => ?_⟩
  obtain ⟨i, u, rest, hi, -, he⟩ | ⟨i, rest, -, -, hh, -⟩ | ⟨-, -, rfl⟩ | ⟨w, rest, i, -, hh, hd, he⟩ |
    ⟨w, rest, why, -, -, -, rfl⟩ | ⟨rest, -, hh, -⟩ | ⟨w, took, rest, -, hh, -⟩ := step_cases hs
  · obtain ⟨o', ho', hsr, hwf, hbl, -⟩ := exec_osc_of_ne_oscNew he ho (ne_oscNew_of_takesRandom (hok.inflight i hi))
    exact ⟨o', ho', hsr, hwf, hbl⟩
  · exact absurd hh (hrst rest)
  · exact ⟨o, ho, rfl, rfl, rfl⟩
  · have hne : ∀ wf bl sr hz, i ≠ .oscNew wf bl sr hz := fun wf bl sr hz hi => hnew w rest wf bl sr hz hh (hi ▸ hd)
    obtain ⟨o', ho', hsr, hwf, hbl, -⟩ := exec_osc_of_ne_oscNew he ho hne
    exact ⟨o', ho', hsr, hwf, hbl⟩
  · exact ⟨o, ho, rfl, rfl, rfl⟩
  · exact absurd hh (hrst rest)
  · exact absurd hh (habandon w took rest)

/-! Runs of commands. -/

theorem execAll_cons_next {i : Instr} {is : List Instr} {s t : State} (h : execAll (i :: is) s = .next t) :
    ∃ u, exec i s = .next u ∧ execAll is u = .next t := by
  obtain ⟨u, hu⟩ := exec_next i s
  exact ⟨u, hu, execAll_cons hu ▸ h⟩

/-- What each command of a list keeps, the run keeps. -/
theorem execAll_invariant {P : State → Prop} {is : List Instr} {s t : State}
    (hstep : ∀ i ∈ is, ∀ u u', P u → exec i u = .next u' → P u') (hs : P s) (h : execAll is s = .next t) : P t := by
  induction is generalizing s with
  | nil =>
    obtain rfl : s = t := Host.Outcome.next.inj h
    exact hs
  | cons i is ih =>
    obtain ⟨u, hu, hrun⟩ := execAll_cons_next h
    obtain ⟨hi, his⟩ := List.forall_mem_cons.1 hstep
    exact ih his (hi s u hs hu) hrun

/-! O28: the phase moves by itself. -/

/-- The elements of an oscillator that its phase depends on. -/
structure Motion where
  phase : Word
  inc : Word
  sr : Word

/-- `S.PHASE`, `S.INC` and `S.SR` of an oscillator. -/
def motionOf (o : Osc Word) : Motion := ⟨o.phase, o.inc, o.sr⟩

/-- What a command does to these elements; waveform, mode and the sine unit have no part in it (41_oscillator_control.md R93). -/
def motionAfter (fmt : Fmt) (i : Instr) (m : Option Motion) : Option Motion :=
  match i with
  | .oscNew _ _ sr hz => some ⟨constBits fmt .zero, fdiv fmt hz sr, sr⟩
  | .oscSetf hz => m.map fun m => { m with inc := fdiv fmt hz m.sr }
  | .oscSetp p => m.map fun m => { m with phase := fsub fmt p (ftrunc fmt p) }
  | .oscRst => m.map fun m => { m with phase := constBits fmt .zero }
  | .oscNext => m.map fun m =>
    let p := fadd fmt m.phase m.inc
    { m with phase := if fge fmt p (constBits fmt .one) then fsub fmt p (constBits fmt .one) else p }
  | _ => m

theorem map_motionOf_oscAfter (fmt : Fmt) (sin : Word → Word) (i : Instr) (osc : Option (Osc Word)) :
    (oscAfter (ieee fmt sin) i osc).map motionOf = motionAfter fmt i (osc.map motionOf) := by
  cases osc with
  | none => cases i <;> rfl
  | some o => cases i <;> rfl

theorem exec_motion {i : Instr} {s t : State} (h : exec i s = .next t) :
    t.osc.map motionOf = motionAfter s.fmt i (s.osc.map motionOf) := by
  rw [exec_osc h, num_eq, map_motionOf_oscAfter]

theorem execAll_motion {is : List Instr} {s t : State} (h : execAll is s = .next t) :
    t.osc.map motionOf = is.foldl (fun m i => motionAfter s.fmt i m) (s.osc.map motionOf) := by
  induction is generalizing s with
  | nil =>
    obtain rfl : s = t := Host.Outcome.next.inj h
    rfl
  | cons i is ih =>
    obtain ⟨u, hu, hrun⟩ := execAll_cons_next h
    rw [ih hrun, exec_fmt hu, exec_motion hu, List.foldl_cons]

/-- Settles O28: the two constructions leave the same motion, and the rest of the run acts on it alone (`execAll_motion`). -/
theorem phaseDoesNotDependOnWaveformOrMode : Obligations.PhaseDoesNotDependOnWaveformOrMode := by
  intro is s s' t t' wf wf' bl bl' sr hz hfmt h h'
  have hmotion : t.osc.map motionOf = t'.osc.map motionOf := by
    rw [execAll_motion h, execAll_motion h', ← hfmt]
    rfl
  simpa [Function.comp_def, motionOf] using congrArg (Option.map fun m => (m.phase, m.inc)) hmotion

/-! O29: `OSC.SETF` with the present frequency. -/

/-- There is an oscillator, and its increment is that of the frequency `hz` (41_oscillator_control.md R87). -/
def HasFrequency (hz : Word) (s : State) : Prop := ∃ o, s.osc = some o ∧ o.inc = fdiv s.fmt hz o.sr

theorem exec_oscSetf_of_hasFrequency {hz : Word} {s : State} (h : HasFrequency hz s) :
    exec (.oscSetf hz) s = .next { s with rsp := s.rsp ++ [0] } := by
  obtain ⟨o, ho, hinc⟩ := h
  rw [oscSetfStoresTheQuotient hz s o ho, ← hinc, ← ho]

theorem hasFrequency_of_exec_oscNew {wf : Waveform} {bl : Mode} {sr hz : Word} {s t : State}
    (h : exec (.oscNew wf bl sr hz) s = .next t) : HasFrequency hz t := by
  rw [oscNewConstructs] at h
  cases h
  exact ⟨_, rfl, rfl⟩

theorem hasFrequency_of_exec_oscSetf {hz : Word} {s t : State} (hosc : s.osc ≠ none) (h : exec (.oscSetf hz) s = .next t) :
    HasFrequency hz t := by
  obtain ⟨o, ho⟩ := Option.ne_none_iff_exists'.1 hosc
  rw [oscSetfStoresTheQuotient hz s o ho] at h
  cases h
  exact ⟨_, rfl, rfl⟩

/-- Every command but `OSC.NEW` and `OSC.SETF` leaves rate and increment, so the frequency. -/
theorem HasFrequency.exec {hz : Word} {i : Instr} {s t : State} (h : HasFrequency hz s) (hnew : ∀ wf bl sr x, i ≠ .oscNew wf bl sr x)
    (hsetf : ∀ x, i ≠ .oscSetf x) (he : Machine.exec i s = .next t) : HasFrequency hz t := by
  obtain ⟨o, ho, hinc⟩ := h
  obtain ⟨o', ho', hsr, -, -, hsame, -⟩ := exec_osc_of_ne_oscNew he ho hnew
  have hinc' : o'.inc = o.inc := not_not.1 fun hne => (hsame hne).elim hsetf
  exact ⟨o', ho', by rw [hinc', hinc, exec_fmt he, hsr]⟩

/-- Settles O29: the oscillator has the frequency after the command that gave it, the other commands keep it, and then `OSC.SETF`
stores the increment that is there. -/
theorem settingTheCurrentFrequencyChangesNothing : Obligations.SettingTheCurrentFrequencyChangesNothing := by
  refine ⟨fun s o hz ho hinc => exec_oscSetf_of_hasFrequency ⟨o, ho, hinc⟩, fun s t i is hz hgive hkeep h => ?_⟩
  obtain ⟨u, hu, hrun⟩ := execAll_cons_next h
  have hstart : HasFrequency hz u := by
    obtain ⟨wf, bl, sr, rfl⟩ | ⟨rfl, hosc⟩ := hgive
    · exact hasFrequency_of_exec_oscNew hu
    · exact hasFrequency_of_exec_oscSetf hosc hu
  have hend : HasFrequency hz t :=
    execAll_invariant (fun j hj _ _ hfreq he => hfreq.exec (hkeep j hj).1 (hkeep j hj).2 he) hstart hrun
  exact exec_oscSetf_of_hasFrequency hend

/-! O30: `OSC.RST` against a fresh oscillator. -/

/-- Settles O30: both commands leave phase `+0.0` and the same other elements, and answer `ACK`. -/
theorem resetOscillatorEqualsAFreshOne : Obligations.ResetOscillatorEqualsAFreshOne := by
  intro s t t' o hz ho hinc hrst hnew
  rw [exec_oscRst_of_osc ho] at hrst
  rw [oscNewConstructs, ← hinc] at hnew
  exact Host.Outcome.next.inj (hrst.symm.trans hnew)

/-! O45, O58: the accumulator. -/

/-- In `IDEAL` an advance adds the increment modulo 1 (41_oscillator_control.md R91): the sum is below 2, so one wrap is enough. -/
theorem accum_ideal_eq_fract {ph d : ℝ} (hph0 : 0 ≤ ph) (hph1 : ph < 1) (hd0 : 0 ≤ d) (hd1 : d < 1) :
    accum idealNum ph d = Int.fract (ph + d) := by
  rw [accum_ideal]
  split_ifs with hwrap
  · rw [← Int.fract_sub_one, Int.fract_eq_self.2 ⟨by linarith, by linarith⟩]
  · rw [Int.fract_eq_self.2 ⟨by linarith, by linarith⟩]

/-- Settles O45: in `IEEE` the largest sum is below 2 (`inUnit_accum`), in `IDEAL` the phase is a fractional part. -/
theorem accumulatorKeepsTheUnitInterval : Obligations.AccumulatorKeepsTheUnitInterval := by
  refine ⟨fun _ _ _ _ => inUnit_accum, fun ph d hph0 hph1 hd0 hd1 => ?_⟩
  rw [accum_ideal_eq_fract hph0 hph1 hd0 hd1]
  exact ⟨Int.fract_nonneg _, Int.fract_lt_one _⟩

/-- In `IDEAL` the phase after `n` advances is that of `n` increments at once, modulo 1: no rounding accumulates. -/
theorem iterate_accum_ideal (n : ℕ) {ph d : ℝ} (hph0 : 0 ≤ ph) (hph1 : ph < 1) (hd0 : 0 ≤ d) (hd1 : d < 1) :
    (fun x => accum idealNum x d)^[n] ph = Int.fract (ph + n * d) := by
  induction n with
  | zero => simp [Int.fract_eq_self.2 ⟨hph0, hph1⟩]
  | succ n ih =>
    have hsum : Int.fract (ph + n * d) + d = ph + (n + 1 : ℕ) * d - ⌊ph + n * d⌋ := by
      rw [Int.fract]; push_cast; ring
    rw [Function.iterate_succ_apply', ih, accum_ideal_eq_fract (Int.fract_nonneg _) (Int.fract_lt_one _) hd0 hd1, hsum,
      Int.fract_sub_intCast]

/-- Settles O58: a full cycle adds 1, which the fractional part does not see. -/
theorem idealPhaseIsPeriodic : Obligations.IdealPhaseIsPeriodic := by
  intro n ph d hph0 hph1 hd0 hd1 hcycle
  rw [iterate_accum_ideal n hph0 hph1 hd0 hd1, hcycle, Int.fract_add_one, Int.fract_eq_self.2 ⟨hph0, hph1⟩]

end Sys2Proof.Machine
end

/-! PROOFS of the family 42_naive_waveforms: the ranges of the four naive engines (O47). -/

section
namespace Sys2Proof.Machine

/-! Values between two words. -/

/-- `lo ≤ x ≤ hi`, `x` no NaN: the two-sided companion of `Bounded`. -/
def Between (fmt : Fmt) (lo hi x : Word) : Prop :=
  isNaN fmt x = false ∧ sunits fmt lo ≤ sunits fmt x ∧ sunits fmt x ≤ sunits fmt hi

theorem Between.isFinite {fmt : Fmt} {lo hi x : Word} (h : Between fmt lo hi x) (hlo : Machine.isFinite fmt lo = true)
    (hhi : Machine.isFinite fmt hi = true) : Machine.isFinite fmt x = true :=
  isFinite_of_bounds h.1 hlo hhi h.2.1 h.2.2

/-- A rounded result lies between any two words that enclose the exact one (40_numerics.md R83 item 5). -/
theorem between_of_signedRound {fmt : Fmt} {lo hi x : Word} {t : ℤ} {d : ℕ} (hd : 0 < d) (hlo : isNaN fmt lo = false)
    (hhi : isNaN fmt hi = false) (hx : isNaN fmt x = false ∧ sunits fmt x = signedRound fmt t d)
    (h0 : sunits fmt lo * d ≤ t) (h1 : t ≤ sunits fmt hi * d) : Between fmt lo hi x :=
  ⟨hx.1, hx.2 ▸ le_signedRound hd hlo h0, hx.2 ▸ signedRound_le hd hhi h1⟩

/-- A product with a whole factor `k`. -/
theorem between_fmul_of_whole {fmt : Fmt} {lo hi c p : Word} {k : ℤ} (hlo : isNaN fmt lo = false) (hhi : isNaN fmt hi = false)
    (hc : isFinite fmt c = true) (hp : isFinite fmt p = true) (hk : sunits fmt c = k * 2 ^ lsbExp fmt)
    (h0 : sunits fmt lo ≤ k * sunits fmt p) (h1 : k * sunits fmt p ≤ sunits fmt hi) : Between fmt lo hi (fmul fmt c p) := by
  have hone : (0 : ℤ) ≤ 2 ^ lsbExp fmt := by positivity
  have hexact : sunits fmt c * sunits fmt p = k * sunits fmt p * 2 ^ lsbExp fmt := by rw [hk]; ring
  refine between_of_signedRound (Nat.two_pow_pos _) hlo hhi (fmul_finite hc hp) ?_ ?_ <;> rw [hexact] <;> push_cast
  · exact mul_le_mul_of_nonneg_right h0 hone
  · exact mul_le_mul_of_nonneg_right h1 hone

/-- A finite word added to a value between two finite ones. -/
theorem Between.fadd {fmt : Fmt} {lo hi lo' hi' x y : Word} (h : Between fmt lo hi x) (hlo : Machine.isFinite fmt lo = true)
    (hhi : Machine.isFinite fmt hi = true) (hy : Machine.isFinite fmt y = true) (hlo' : isNaN fmt lo' = false) (hhi' : isNaN fmt hi' = false)
    (h0 : sunits fmt lo' ≤ sunits fmt lo + sunits fmt y) (h1 : sunits fmt hi + sunits fmt y ≤ sunits fmt hi') :
    Between fmt lo' hi' (Machine.fadd fmt x y) := by
  have hx := h.isFinite hlo hhi
  obtain ⟨-, hxlo, hxhi⟩ := h
  refine between_of_signedRound one_pos hlo' hhi' (fadd_finite hx hy) ?_ ?_ <;> push_cast <;> linarith

theorem Between.fsub {fmt : Fmt} {lo hi lo' hi' x y : Word} (h : Between fmt lo hi x) (hlo : Machine.isFinite fmt lo = true)
    (hhi : Machine.isFinite fmt hi = true) (hy : Machine.isFinite fmt y = true) (hlo' : isNaN fmt lo' = false) (hhi' : isNaN fmt hi' = false)
    (h0 : sunits fmt lo' ≤ sunits fmt lo - sunits fmt y) (h1 : sunits fmt hi - sunits fmt y ≤ sunits fmt hi') :
    Between fmt lo' hi' (Machine.fsub fmt x y) := by
  rw [sub_eq_add_neg, ← flipSign_finite.2] at h0 h1
  exact h.fadd hlo hhi (isFinite_flipSign.trans hy) hlo' hhi' h0 h1

theorem inSignedUnit_iff_between {fmt : Fmt} {x : Word} :
    inSignedUnit fmt x = true ↔ Between fmt (constBits fmt .negOne) (constBits fmt .one) x := by
  rw [inSignedUnit_iff, Between, sunits_negOne, sunits_one]

/-! The further constants of the engines, in units. -/

theorem sunits_three (fmt : Fmt) : sunits fmt (constBits fmt .three) = 3 * 2 ^ lsbExp fmt := by cases fmt <;> decide +kernel

theorem sunits_four (fmt : Fmt) : sunits fmt (constBits fmt .four) = 4 * 2 ^ lsbExp fmt := by cases fmt <;> decide +kernel

theorem sunits_negFour (fmt : Fmt) : sunits fmt (constBits fmt .negFour) = -4 * 2 ^ lsbExp fmt := by
  cases fmt <;> decide +kernel

theorem isFinite_belowTwo (fmt : Fmt) : isFinite fmt (belowTwo fmt) = true := by cases fmt <;> decide

/-! O47: the engines on [0, 1). -/

/-- The saw is at most the largest value below 1: twice a phase is at most the largest value below 2
(42_naive_waveforms.md R102, R105). -/
theorem between_saw {fmt : Fmt} {sin : Word → Word} {p : Word} (hp : inUnit fmt p = true) :
    Between fmt (constBits fmt .negOne) (belowOne fmt) (saw (ieee fmt sin) p) := by
  obtain ⟨-, hp0, hp1⟩ := inUnit_iff.1 hp
  have hple := le_belowOne hp1
  have hbelow := sunits_belowOne_lt fmt
  have hdouble : Between fmt (constBits fmt .zero) (belowTwo fmt) (fmul fmt (constBits fmt .two) p) :=
    between_fmul_of_whole (isNaN_constBits fmt .zero) (isNaN_belowTwo fmt) (isFinite_constBits fmt .two) (isFinite_of_inUnit hp)
      (sunits_two fmt) (by rw [sunits_zero]; linarith) (by rw [sunits_belowTwo]; linarith)
  rw [saw_ieee]
  refine hdouble.fsub (isFinite_constBits fmt .zero) (isFinite_belowTwo fmt) (isFinite_constBits fmt .one)
    (isNaN_constBits fmt .negOne) (isNaN_belowOne fmt) ?_ ?_
  · rw [sunits_zero, sunits_negOne, sunits_one]; linarith
  · rw [sunits_belowTwo, sunits_one]; linarith

theorem saw_inRange {fmt : Fmt} {sin : Word → Word} {p : Word} (hp : inUnit fmt p = true) :
    fge fmt (saw (ieee fmt sin) p) (constBits fmt .negOne) = true ∧ flt fmt (saw (ieee fmt sin) p) (constBits fmt .one) = true := by
  obtain ⟨hn, hlo, hhi⟩ := between_saw (sin := sin) hp
  rw [fge_iff hn (isNaN_constBits fmt .negOne), flt_iff hn (isNaN_constBits fmt .one), sunits_one]
  exact ⟨hlo, lt_of_le_of_lt hhi (sunits_belowOne_lt fmt)⟩

theorem square_eq_one_or_negOne {F : Type} (N : NumSys F) (p : F) : square N p = N.k .one ∨ square N p = N.k .negOne :=
  ite_eq_or_eq _ _ _

/-- The triangle's rising half takes 1 from a product in [0, 2] (42_naive_waveforms.md R104). -/
theorem inSignedUnit_rising {fmt : Fmt} {p : Word} (hfin : isFinite fmt p = true) (h0 : 0 ≤ sunits fmt p)
    (hhalf : sunits fmt p < sunits fmt (constBits fmt .half)) :
    inSignedUnit fmt (fsub fmt (fmul fmt (constBits fmt .four) p) (constBits fmt .one)) = true := by
  have hone := sunits_half fmt
  have hprod : Between fmt (constBits fmt .zero) (constBits fmt .two) (fmul fmt (constBits fmt .four) p) :=
    between_fmul_of_whole (isNaN_constBits fmt .zero) (isNaN_constBits fmt .two) (isFinite_constBits fmt .four) hfin
      (sunits_four fmt) (by rw [sunits_zero]; linarith) (by rw [sunits_two]; linarith)
  refine inSignedUnit_iff_between.2 (hprod.fsub (isFinite_constBits fmt .zero) (isFinite_constBits fmt .two)
    (isFinite_constBits fmt .one) (isNaN_constBits fmt .negOne) (isNaN_constBits fmt .one) ?_ ?_)
  · rw [sunits_zero, sunits_negOne, sunits_one]; linarith
  · rw [sunits_two, sunits_one]; linarith

/-- The triangle's falling half adds 3 to a product in [-4, -2] (42_naive_waveforms.md R104). -/
theorem inSignedUnit_falling {fmt : Fmt} {p : Word} (hfin : isFinite fmt p = true)
    (hhalf : sunits fmt (constBits fmt .half) ≤ sunits fmt p) (h1 : sunits fmt p < 2 ^ lsbExp fmt) :
    inSignedUnit fmt (fadd fmt (fmul fmt (constBits fmt .negFour) p) (constBits fmt .three)) = true := by
  have hone := sunits_half fmt
  have hnegTwo : sunits fmt (flipSign fmt (constBits fmt .two)) = -(2 * 2 ^ lsbExp fmt) := by
    rw [flipSign_finite.2, sunits_two]
  have hnegTwoFin : isFinite fmt (flipSign fmt (constBits fmt .two)) = true :=
    isFinite_flipSign.trans (isFinite_constBits fmt .two)
  have hprod : Between fmt (constBits fmt .negFour) (flipSign fmt (constBits fmt .two)) (fmul fmt (constBits fmt .negFour) p) :=
    between_fmul_of_whole (isNaN_constBits fmt .negFour) (isNaN_of_isFinite hnegTwoFin) (isFinite_constBits fmt .negFour) hfin
      (sunits_negFour fmt) (by rw [sunits_negFour]; linarith) (by rw [hnegTwo]; linarith)
  refine inSignedUnit_iff_between.2 (hprod.fadd (isFinite_constBits fmt .negFour) hnegTwoFin
    (isFinite_constBits fmt .three) (isNaN_constBits fmt .negOne) (isNaN_constBits fmt .one) ?_ ?_)
  · rw [sunits_negFour, sunits_negOne, sunits_three]; linarith
  · rw [hnegTwo, sunits_one, sunits_three]; linarith

theorem inSignedUnit_triangle {fmt : Fmt} {sin : Word → Word} {p : Word} (hp : inUnit fmt p = true) :
    inSignedUnit fmt (triangle (ieee fmt sin) p) = true := by
  obtain ⟨hn, hp0, hp1⟩ := inUnit_iff.1 hp
  have hhalf := flt_iff hn (isNaN_constBits fmt .half)
  rw [triangle_ieee]
  split_ifs with hrising
  · exact inSignedUnit_rising (isFinite_of_inUnit hp) hp0 (hhalf.1 hrising)
  · exact inSignedUnit_falling (isFinite_of_inUnit hp) (not_lt.1 (mt hhalf.2 hrising)) hp1

/-- The operand of the sine unit is finite on [0, 1), so `SIN_RANGE` applies, which every admitted unit has (40_numerics.md R76). -/
theorem inSignedUnit_sine {fmt : Fmt} {tol : Option Rat} {p : Word} (hp : inUnit fmt p = true) :
    inSignedUnit fmt (sine (hw fmt tol) p) = true := by
  obtain ⟨_, hprop⟩ := sineUnit_some fmt tol
  obtain ⟨hfin, -⟩ := twoPi_mul_near fmt hp
  exact hprop.range _ hfin

theorem abs_triangle_ideal_le_one {p : ℝ} (h0 : 0 ≤ p) (h1 : p < 1) : |triangle idealNum p| ≤ 1 := by
  rw [triangle_ideal, abs_le]
  split_ifs with hrising <;> constructor <;> linarith

/-- Settles O47: in `IEEE` roundings keep the enclosing words (`between_of_signedRound`) and the sine unit has `SIN_RANGE`; in `IDEAL` the
engines are linear but for the sine. -/
theorem naiveEnginesStayInTheirRange : Obligations.NaiveEnginesStayInTheirRange := by
  refine ⟨fun fmt tol p hp => ⟨saw_inRange hp, square_eq_one_or_negOne _ p, inSignedUnit_triangle hp, inSignedUnit_sine hp⟩,
    fun p h0 h1 => ⟨?_, ?_, abs_triangle_ideal_le_one h0 h1, Real.abs_sin_le_one _⟩⟩
  · rw [saw_ideal]
    constructor <;> linarith
  · simpa [idealNum] using square_eq_one_or_negOne idealNum p

end Sys2Proof.Machine
end

/-! PROOFS of the family 43_polyblep: the command `OSC.BLEP`, the two waveforms without a corrector, and the corrector in both profiles: its
boundary phases, the phase zero, no window, the bandlimited ranges and the integrals (O16, O31, O50, O51, O52, O57, O60). -/

section
namespace Sys2Proof.Machine

/-! O16: the command. -/

/-- Settles O16: on an oscillator the command runs (`withOsc_some`), and its sample is the corrector in the primitives (`blep_ieee`). -/
theorem oscBlepAnswersTheCorrector : Obligations.OscBlepAnswersTheCorrector := by
  intro p s o ho fmt K d v
  have hblep : blep s.num p d = v := blep_ieee fmt (sineUnit fmt s.sinTol).1 p d
  calc exec (.oscBlep p) s = .next (respond (.sample (blep s.num p d)) s) := withOsc_some _ ho
    _ = _ := by rw [respond_sample, hblep]

/-! O31: sine and triangle. -/

/-- The waveforms without a step have no correction, in any number system (43_polyblep.md R120). -/
theorem bandlimited_eq_naive {F : Type} (N : NumSys F) {wf : Waveform} (h : wf = .sine ∨ wf = .triangle) (p d : F) :
    bandlimited N wf p d = naive N wf p := by
  obtain rfl | rfl := h
  · rfl
  · rfl

/-- `s` with the oscillator `o`, put into the mode `bl`. -/
def State.inMode (s : State) (o : Osc Word) (bl : Mode) : State := { s with osc := some { o with bl := bl } }

/-- One `OSC.NEXT` on an uncorrected waveform: the sample is the naive one in either mode. -/
theorem exec_oscNext_inMode {o : Osc Word} (h : o.wf = .sine ∨ o.wf = .triangle) (s : State) (bl : Mode) :
    exec .oscNext (s.inMode o bl) =
      .next ((respond (.sample (naive s.num o.wf (advance s.num o).phase)) s).inMode (advance s.num o) bl) := by
  have hsample : mapSample s.num o.wf bl (advance s.num o).phase o.inc = naive s.num o.wf (advance s.num o).phase := by
    cases bl with
    | naive => rfl
    | bandlimited => exact bandlimited_eq_naive s.num h _ _
  rw [← hsample]
  exact exec_oscNext_of_osc (s := s.inMode o bl) (o := { o with bl := bl }) rfl

/-- On an uncorrected waveform a run of `OSC.NEXT` does not show the mode. -/
theorem execAll_oscNext_rsp_eq {o : Osc Word} (h : o.wf = .sine ∨ o.wf = .triangle) (n : ℕ) {s t t' : State} {bl bl' : Mode}
    (ht : execAll (List.replicate n .oscNext) (s.inMode o bl) = .next t)
    (ht' : execAll (List.replicate n .oscNext) (s.inMode o bl') = .next t') : t.rsp = t'.rsp := by
  induction n generalizing s o with
  | zero =>
    cases ht
    cases ht'
    rfl
  | succ n ih =>
    rw [List.replicate_succ, execAll_cons (exec_oscNext_inMode h s _)] at ht ht'
    exact ih (o := advance s.num o) h ht ht'

/-- Settles O31: the values are equal by the waveform (`bandlimited_eq_naive`), and the two constructions differ in the mode alone. -/
theorem sineAndTriangleAreNotCorrected : Obligations.SineAndTriangleAreNotCorrected := by
  refine fun wf h => ⟨fun fmt sin => bandlimited_eq_naive _ h, bandlimited_eq_naive _ h, fun n sr hz s t t' ht ht' => ?_⟩
  rw [execAll_cons rfl] at ht ht'
  exact execAll_oscNext_rsp_eq (o := newOsc s.num wf .naive sr hz) (s := respond .ack s) h n ht ht'

/-! Further facts on zeros and infinities. -/

section Words
variable {fmt : Fmt} {x y : Word}

theorem isInf_or_isFinite (h : isNaN fmt x = false) : isInf fmt x = true ∨ isFinite fmt x = true :=
  (isNaN_or_isInf_or_isFinite fmt x).resolve_left (by simp [h])

theorem isZero_iff_sunits : isZero fmt x = true ↔ sunits fmt x = 0 := isZero_iff.trans sunits_eq_zero_iff.symm

theorem isZero_eq_false_iff_sunits : isZero fmt x = false ↔ sunits fmt x ≠ 0 := by rw [← Bool.not_eq_true, isZero_iff_sunits]

@[simp] theorem isZero_zeroWord (fmt : Fmt) (neg : Bool) : isZero fmt (zeroWord fmt neg) = true :=
  isZero_iff_sunits.2 (sunits_zeroWord fmt neg)

theorem negOf_of_sunits_neg (h : sunits fmt x < 0) : negOf fmt x = true :=
  (sunits_neg_iff (mt sunits_eq_zero_iff.2 h.ne)).1 h

theorem isZero_fmul_right (hx : isFinite fmt x = true) (hy : isZero fmt y = true) : isZero fmt (fmul fmt x y) = true := by
  rw [isZero_iff_sunits, (fmul_finite hx (isFinite_of_isZero hy)).2, isZero_iff_sunits.1 hy, mul_zero, signedRound_zero (Nat.two_pow_pos _)]

theorem isZero_fsub (hx : isZero fmt x = true) (hy : isZero fmt y = true) : isZero fmt (fsub fmt x y) = true := by
  rw [isZero_iff_sunits, (fsub_finite (isFinite_of_isZero hx) (isFinite_of_isZero hy)).2, isZero_iff_sunits.1 hx, isZero_iff_sunits.1 hy,
    sub_zero, signedRound_zero one_pos]

/-- A zero divided by a positive value, infinity included, is a zero. -/
theorem isZero_fdiv_of_pos (hx : isZero fmt x = true) (hy : flt fmt (constBits fmt .zero) y = true) : isZero fmt (fdiv fmt x y) = true := by
  obtain ⟨-, hn, hpos⟩ := flt_elim hy
  rw [sunits_zero] at hpos
  rcases isInf_or_isFinite hn with hinf | hfin
  · rw [fdiv_of_isInf_right (isFinite_of_isZero hx) hinf, isZero_zeroWord]
  · rw [fdiv_of_isZero_left hx hfin (isZero_eq_false_iff_sunits.2 hpos.ne'), isZero_zeroWord]

/-- A negative value, infinity included, divided by a zero (40_numerics.md R68). -/
theorem fdiv_zeroWord_of_neg (hx : flt fmt x (constBits fmt .zero) = true) (neg : Bool) :
    fdiv fmt x (zeroWord fmt neg) = infWord fmt (!neg) := by
  obtain ⟨hn, -, hneg⟩ := flt_elim hx
  rw [sunits_zero] at hneg
  have hsign : (negOf fmt x != negOf fmt (zeroWord fmt neg)) = !neg := by simp [negOf_of_sunits_neg hneg]
  rcases isInf_or_isFinite hn with hinf | hfin
  · rw [fdiv_of_isInf_left hinf (isNaN_zeroWord fmt neg), isInf_of_isFinite (isFinite_zeroWord fmt neg), hsign, if_neg Bool.false_ne_true]
  · rw [fdiv_of_isZero_right hfin (isZero_zeroWord fmt neg), isZero_eq_false_iff_sunits.2 hneg.ne, hsign, if_neg Bool.false_ne_true]

/-- A zero added to a value that is none gives that value. -/
theorem fadd_of_isZero_left (hx : isZero fmt x = true) (hy : isFinite fmt y = true) (hy0 : isZero fmt y = false) :
    fadd fmt x y = toWidth fmt y := by
  have hne : sunits fmt y ≠ 0 := isZero_eq_false_iff_sunits.1 hy0
  have hround : roundMag fmt (unitsOf fmt (magOf fmt y)) 1 = magOf fmt y := by
    simpa using roundMag_exact one_pos (isFinite_iff.1 hy).le
  rw [fadd_of_isFinite (isFinite_of_isZero hx) hy, isZero_iff_sunits.1 hx, zero_add, if_neg hne, natAbs_sunits, hround,
    ← mkWord_negOf_magOf]
  simp [sunits_neg_iff (mt sunits_eq_zero_iff.2 hne)]

end Words

/-! The corrector in the `IEEE` profile. -/

section Ieee
variable {fmt : Fmt} {sin : Word → Word} {p d : Word}

/-- The polynomial of the window after the step, `(2t - t*t) - 1` (43_polyblep.md R110). -/
def afterStepPoly (fmt : Fmt) (t : Word) : Word :=
  fsub fmt (fsub fmt (fmul fmt (constBits fmt .two) t) (fmul fmt t t)) (constBits fmt .one)

theorem afterStepPoly_of_isZero {t : Word} (h : isZero fmt t = true) : afterStepPoly fmt t = constBits fmt .negOne := by
  have hinner : isZero fmt (fsub fmt (fmul fmt (constBits fmt .two) t) (fmul fmt t t)) = true :=
    isZero_fsub (isZero_fmul_right (isFinite_constBits fmt .two) h) (isZero_fmul_right (isFinite_of_isZero h) h)
  rw [afterStepPoly, fsub, fadd_of_isZero_left hinner (isFinite_flipSign.trans (isFinite_constBits fmt .one)) (by cases fmt <;> decide)]
  cases fmt <;> decide

/-- `-inf` stays, and `+inf` meets its own square with the sign changed. -/
theorem afterStepPoly_infWord (fmt : Fmt) :
    afterStepPoly fmt (infWord fmt true) = infWord fmt true ∧ afterStepPoly fmt (infWord fmt false) = canonNaN fmt := by
  cases fmt <;> decide

theorem blep_ieee_of_flt (h : flt fmt p d = true) : blep (ieee fmt sin) p d = afterStepPoly fmt (fdiv fmt p d) := by
  rw [blep_ieee, if_pos h, afterStepPoly]

theorem blep_ieee_of_not (h : ¬ flt fmt p d = true) (h' : ¬ fgt fmt p (fsub fmt (constBits fmt .one) d) = true) :
    blep (ieee fmt sin) p d = zeroWord fmt false := by
  rw [blep_ieee, if_neg h, if_neg h', constBits_zero]

/-- For `0 < d ≤ 1/2` the rounded `1 - d` is not below `d`: the exact one is not, and `d` is a value of the format. -/
theorem le_one_sub (hd0 : flt fmt (constBits fmt .zero) d = true) (hd1 : fge fmt (constBits fmt .half) d = true) :
    isNaN fmt (fsub fmt (constBits fmt .one) d) = false ∧ sunits fmt d ≤ sunits fmt (fsub fmt (constBits fmt .one) d) := by
  obtain ⟨-, hn, hpos⟩ := flt_elim hd0
  obtain ⟨-, -, hle⟩ := fge_elim hd1
  have hhalf := sunits_half fmt
  have hfin : isFinite fmt d = true := isFinite_of_bounds hn (isFinite_constBits fmt .zero) (isFinite_constBits fmt .half) hpos.le hle
  obtain ⟨hn', hdiff⟩ := fsub_finite (isFinite_constBits fmt .one) hfin
  refine ⟨hn', hdiff ▸ le_signedRound one_pos hn ?_⟩
  rw [sunits_one]
  push_cast
  linarith

/-- For a width that is a zero or negative, `-inf` included, the window before the step begins at 1 or later. -/
theorem one_le_one_sub (hd : fge fmt (constBits fmt .zero) d = true) :
    isNaN fmt (fsub fmt (constBits fmt .one) d) = false ∧
      sunits fmt (constBits fmt .one) ≤ sunits fmt (fsub fmt (constBits fmt .one) d) := by
  obtain ⟨-, hn, hle⟩ := fge_elim hd
  rw [sunits_zero] at hle
  rcases isInf_or_isFinite hn with hinf | hfin
  · have hneg : negOf fmt d = true :=
      negOf_of_sunits_neg (lt_of_le_of_ne hle (isZero_eq_false_iff_sunits.1 (isZero_of_isInf hinf)))
    have hdiff : fsub fmt (constBits fmt .one) d = infWord fmt false := by
      rw [fsub, fadd_of_isInf_right (isFinite_constBits fmt .one) ((isInf_flipSign fmt d).trans hinf), negOf_flipSign, hneg, Bool.not_true]
    rw [hdiff]
    exact ⟨isNaN_infWord fmt false, by cases fmt <;> decide +kernel⟩
  · obtain ⟨hn', hdiff⟩ := fsub_finite (isFinite_constBits fmt .one) hfin
    refine ⟨hn', hdiff ▸ le_signedRound one_pos (isNaN_constBits fmt .one) ?_⟩
    push_cast
    linarith

theorem blep_ieee_of_nonpos (hp : inUnit fmt p = true) (hd : fge fmt (constBits fmt .zero) d = true) :
    blep (ieee fmt sin) p d = zeroWord fmt false := by
  obtain ⟨hpn, hp0, hp1⟩ := inUnit_iff.1 hp
  obtain ⟨-, hn, hle⟩ := fge_elim hd
  obtain ⟨hn', hone⟩ := one_le_one_sub hd
  rw [sunits_zero] at hle
  rw [sunits_one] at hone
  exact blep_ieee_of_not (by rw [flt_iff hpn hn]; exact (hle.trans hp0).not_gt) (by rw [fgt_iff hpn hn']; exact (hp1.le.trans hone).not_gt)

/-- A NaN width makes both tests false. -/
theorem blep_ieee_of_isNaN (h : isNaN fmt d = true) : blep (ieee fmt sin) p d = zeroWord fmt false := by
  have hdiff : isNaN fmt (fsub fmt (constBits fmt .one) d) = true := by
    rw [fsub, fadd_of_isNaN (.inr ((isNaN_flipSign fmt d).trans h)), isNaN_canonNaN]
  exact blep_ieee_of_not (by simp [compare_of_isNaN (x := p) (.inr h)]) (by simp [compare_of_isNaN (x := p) (.inr hdiff)])

theorem blep_ieee_zeroWord_of_neg (hp : flt fmt p (constBits fmt .zero) = true) (neg : Bool) :
    blep (ieee fmt sin) p (zeroWord fmt neg) = afterStepPoly fmt (infWord fmt (!neg)) := by
  obtain ⟨hn, -, hneg⟩ := flt_elim hp
  have hlt : flt fmt p (zeroWord fmt neg) = true := by
    rwa [flt_iff hn (isNaN_zeroWord fmt neg), sunits_zeroWord, ← sunits_zero fmt]
  rw [blep_ieee_of_flt hlt, fdiv_zeroWord_of_neg hp]

end Ieee

/-! The corrector over the reals. -/

section Ideal
variable {p d : ℝ}

theorem blep_ideal_of_lt (h : p < d) : blep idealNum p d = -(1 - p / d) ^ 2 := by
  rw [blep_ideal, if_pos h]
  ring

theorem blep_ideal_of_gt (h : d ≤ p) (h' : 1 - d < p) : blep idealNum p d = (1 - (1 - p) / d) ^ 2 := by
  rw [blep_ideal, if_neg h.not_gt, if_pos h']
  ring

theorem blep_ideal_of_between (h : d ≤ p) (h' : p ≤ 1 - d) : blep idealNum p d = 0 := by
  rw [blep_ideal, if_neg h.not_gt, if_neg h'.not_gt]

/-- While the windows do not overlap, the correction before the step is that after it with the sign changed (43_polyblep.md R110). -/
theorem blep_ideal_one_sub (hd : d ≤ 1 / 2) (p : ℝ) : blep idealNum (1 - p) d = -blep idealNum p d := by
  rcases lt_or_ge p d with hafter | hafter
  · rw [blep_ideal_of_lt hafter, blep_ideal_of_gt (by linarith) (by linarith), sub_sub_cancel, neg_neg]
  · rcases lt_or_ge (1 - d) p with hbefore | hbefore
    · rw [blep_ideal_of_gt hafter hbefore, blep_ideal_of_lt (by linarith)]
    · rw [blep_ideal_of_between hafter hbefore, blep_ideal_of_between (by linarith) (by linarith), neg_zero]

/-- On the first half of the cycle a window of at most a quarter corrects after the step only, by at most 1. -/
theorem blep_ideal_firstHalf (h0 : 0 ≤ p) (h1 : p ≤ 1 / 2) (hd0 : 0 < d) (hd1 : d ≤ 1 / 4) :
    -1 ≤ blep idealNum p d ∧ blep idealNum p d ≤ 0 := by
  rcases lt_or_ge p d with hafter | hafter
  · have ht0 : 0 ≤ p / d := div_nonneg h0 hd0.le
    have ht1 : p / d < 1 := (div_lt_one hd0).2 hafter
    rw [blep_ideal_of_lt hafter]
    constructor <;> nlinarith
  · rw [blep_ideal_of_between hafter (by linarith)]
    norm_num

/-- Of two phases whose sum is half a cycle only one lies in a window of at most a quarter. -/
theorem blep_ideal_add_of_add_eq_half {q : ℝ} (hp : 0 ≤ p) (hq : 0 ≤ q) (hsum : p + q = 1 / 2) (hd0 : 0 < d) (hd1 : d ≤ 1 / 4) :
    -1 ≤ blep idealNum p d + blep idealNum q d ∧ blep idealNum p d + blep idealNum q d ≤ 0 := by
  rcases le_total d p with hpd | hpd
  · rw [blep_ideal_of_between hpd (by linarith), zero_add]
    exact blep_ideal_firstHalf hq (by linarith) hd0 hd1
  · rw [blep_ideal_of_between (p := q) (by linarith) (by linarith), add_zero]
    exact blep_ideal_firstHalf hp (by linarith) hd0 hd1

/-- The bandlimited saw, window by window: with `t` the distance from the step in widths it is `2td - 1 + (1 - t)^2` after the step, and
the same with the sign changed before it. -/
theorem abs_blSaw_ideal_le_one (h0 : 0 ≤ p) (h1 : p < 1) (hd0 : 0 < d) (hd1 : d ≤ 1) : |blSaw idealNum p d| ≤ 1 := by
  rw [blSaw_ideal, abs_le]
  rcases lt_or_ge p d with hafter | hafter
  · have ht0 : 0 ≤ p / d := div_nonneg h0 hd0.le
    have ht1 : p / d < 1 := (div_lt_one hd0).2 hafter
    have hp : p = p / d * d := (div_mul_cancel₀ p hd0.ne').symm
    rw [blep_ideal_of_lt hafter]
    generalize p / d = t at *
    constructor <;> nlinarith
  · rcases lt_or_ge (1 - d) p with hbefore | hbefore
    · have ht0 : 0 < (1 - p) / d := div_pos (by linarith) hd0
      have ht1 : (1 - p) / d < 1 := (div_lt_one hd0).2 (by linarith)
      have hp : 1 - p = (1 - p) / d * d := (div_mul_cancel₀ _ hd0.ne').symm
      rw [blep_ideal_of_gt hafter hbefore]
      generalize (1 - p) / d = t at *
      constructor <;> nlinarith
    · rw [blep_ideal_of_between hafter hbefore]
      constructor <;> linarith

/-- The shifted phase is the phase half a cycle on, modulo 1 (43_polyblep.md R119). -/
theorem halfShift_ideal_eq_fract (h : 0 ≤ p) : halfShift idealNum p = Int.fract (p + 1 / 2) := by
  rw [halfShift_ideal, realTrunc, if_pos (by linarith), Int.fract]

/-- The bandlimited square: in each half of the cycle the two corrections, seen from their steps (`blep_ideal_one_sub`), are those of
two phases whose sum is half a cycle, and move the value toward 0. -/
theorem abs_blSquare_ideal_le_one (h0 : 0 ≤ p) (h1 : p < 1) (hd0 : 0 < d) (hd1 : d ≤ 1 / 4) : |blSquare idealNum p d| ≤ 1 := by
  rw [blSquare_ideal, square_ideal, halfShift_ideal_eq_fract h0, abs_le]
  split_ifs with hhalf
  · obtain ⟨hlo, hhi⟩ := blep_ideal_add_of_add_eq_half h0 (by linarith : 0 ≤ 1 / 2 - p) (by ring) hd0 hd1
    have hshift : Int.fract (p + 1 / 2) = 1 - (1 / 2 - p) := by
      rw [Int.fract_eq_self.2 ⟨by linarith, by linarith⟩]
      ring
    rw [hshift, blep_ideal_one_sub (by linarith)]
    constructor <;> linarith
  · obtain ⟨hlo, hhi⟩ := blep_ideal_add_of_add_eq_half (by linarith : 0 ≤ 1 - p) (by linarith : 0 ≤ p - 1 / 2) (by ring) hd0 hd1
    have hshift : Int.fract (p + 1 / 2) = p - 1 / 2 := by
      rw [← Int.fract_sub_one, Int.fract_eq_self.2 ⟨by linarith, by linarith⟩]
      ring
    rw [blep_ideal_one_sub (by linarith)] at hlo hhi
    rw [hshift]
    constructor <;> linarith

/-- The polynomial after the step holds at the end of its window too, where the corrector is 0. -/
theorem integral_blep_ideal_afterStep (hd0 : 0 < d) (hd1 : d ≤ 1 / 2) : (∫ p in (0 : ℝ)..d, blep idealNum p d) = -(d / 3) := by
  have hformula : ∀ p ∈ Set.uIcc 0 d, blep idealNum p d = -(1 - p / d) ^ 2 := fun p hp => by
    obtain hlt | rfl := (Set.uIcc_of_le hd0.le ▸ hp).2.lt_or_eq
    · exact blep_ideal_of_lt hlt
    · rw [blep_ideal_of_between le_rfl (by linarith), div_self hd0.ne']
      norm_num
  calc (∫ p in (0 : ℝ)..d, blep idealNum p d)
      = -∫ p in (0 : ℝ)..d, (1 - p / d) ^ 2 := by
        rw [intervalIntegral.integral_congr hformula, intervalIntegral.integral_neg]
    _ = -(d * ∫ t in (0 : ℝ)..1, t ^ 2) := by
        rw [intervalIntegral.integral_comp_sub_div (fun t => t ^ 2) hd0.ne', div_self hd0.ne', zero_div, sub_self, sub_zero, smul_eq_mul]
    _ = -(d / 3) := by
        rw [integral_pow]
        norm_num
        ring

end Ideal

/-! O50, O51, O52: the corrector at single phases. -/

/-- Settles O50: `d ≤ 1 - d` (in `IEEE` by `le_one_sub`), so neither strict test holds at either phase. -/
theorem blepIsZeroAtItsBoundaries : Obligations.BlepIsZeroAtItsBoundaries := by
  refine ⟨fun fmt sin d hd0 hd1 => ?_, fun d hd0 hd1 => ?_⟩
  · obtain ⟨-, hn, -⟩ := flt_elim hd0
    obtain ⟨hn', hle⟩ := le_one_sub hd0 hd1
    constructor
    · exact blep_ieee_of_not (by simp [flt_iff hn hn]) (by rw [fgt_iff hn hn']; exact hle.not_gt)
    · exact blep_ieee_of_not (by rw [flt_iff hn' hn]; exact hle.not_gt) (by simp [fgt_iff hn' hn'])
  · exact ⟨blep_ideal_of_between le_rfl (by linarith), blep_ideal_of_between (by linarith) le_rfl⟩

/-- Settles O51: the quotient is a zero (`isZero_fdiv_of_pos`), of which the polynomial is -1.0 (`afterStepPoly_of_isZero`). -/
theorem blepAtPhaseZeroIsMinusOne : Obligations.BlepAtPhaseZeroIsMinusOne := by
  refine ⟨fun fmt sin p d hp hd => ?_, fun d hd => ?_⟩
  · obtain ⟨-, hn, hpos⟩ := flt_elim hd
    have hlt : flt fmt p d = true := by
      rwa [flt_iff (isNaN_of_isFinite (isFinite_of_isZero hp)) hn, isZero_iff_sunits.1 hp, ← sunits_zero fmt]
    rw [blep_ieee_of_flt hlt, afterStepPoly_of_isZero (isZero_fdiv_of_pos hp hd)]
  · rw [blep_ideal_of_lt hd]
    norm_num

/-- Settles O52: a NaN width (`blep_ieee_of_isNaN`), a zero or negative one (`blep_ieee_of_nonpos`), and the division of a negative phase by
either zero (`blep_ieee_zeroWord_of_neg`). -/
theorem blepWithoutAWindowIsZero : Obligations.BlepWithoutAWindowIsZero := by
  refine ⟨fun fmt sin p d hp hd => hd.elim blep_ieee_of_isNaN (blep_ieee_of_nonpos hp), fun fmt sin p hp => ?_,
    fun p d h0 h1 => ?_, fun p hp => ⟨.inl hp, rfl⟩⟩
  · rw [blep_ieee_zeroWord_of_neg hp, blep_ieee_zeroWord_of_neg hp]
    exact afterStepPoly_infWord fmt
  · rintro ⟨h | h, rfl⟩ <;> linarith

/-! O57, O60: the bandlimited values and the integrals over the reals. -/

/-- Settles O57: `abs_blSaw_ideal_le_one` and `abs_blSquare_ideal_le_one`. -/
theorem idealBandlimitedSamplesAreBounded : Obligations.IdealBandlimitedSamplesAreBounded :=
  fun _ _ h0 h1 hd0 => ⟨abs_blSaw_ideal_le_one h0 h1 hd0, abs_blSquare_ideal_le_one h0 h1 hd0⟩

/-- Settles O60: the window after the step (`integral_blep_ideal_afterStep`), which the one before it mirrors (`blep_ideal_one_sub`). -/
theorem idealCorrectionIntegratesToZero : Obligations.IdealCorrectionIntegratesToZero := by
  intro d hd0 hd1
  have hafter := integral_blep_ideal_afterStep hd0 hd1
  refine ⟨hafter, ?_⟩
  calc (∫ p in (1 - d)..1, blep idealNum p d)
      = ∫ p in (0 : ℝ)..d, blep idealNum (1 - p) d := by
        rw [intervalIntegral.integral_comp_sub_left (fun p => blep idealNum p d), sub_zero]
    _ = -∫ p in (0 : ℝ)..d, blep idealNum p d := by
        simp_rw [blep_ideal_one_sub hd1]
        exact intervalIntegral.integral_neg
    _ = d / 3 := by rw [hafter, neg_neg]

end Sys2Proof.Machine
end

/-! PROOFS of the family 44_noise: the five commands, their independence of the oscillator, the white remap, the bounds that every step
keeps, NaN draws, and the sample bounds of `IDEAL` (O18 to O21, O27, O53, O36, O54, O55, O56). -/

section
namespace Sys2Proof.Machine

/-! O18 to O21: each noise command in full. -/

/-- The value taken, when the port carries no bit above `W - 1`, is the value presented. -/
theorem withRandom_cons_of_fits {i : Instr} {s : State} {u : Word} {rest : List Word} (k : Word → State → State)
    (hrnd : s.rnd = u :: rest) (hfits : fits s.fmt u = true) : withRandom i s k = .next (k u { s with rnd := rest }) := by
  rw [withRandom_cons k hrnd, toWidth_of_fits hfits]

/-- Settles O18: the draw is taken (`withRandom_cons_of_fits`) and answered by the remap (`white_ieee`). -/
theorem whiteNextAnswersTheRemap : Obligations.WhiteNextAnswersTheRemap := by
  intro s u rest hrnd hfits v
  have hw : white s.num u = v := white_ieee s.fmt (sineUnit s.fmt s.sinTol).1 u
  calc exec .whiteNext s = .next (respond (.sample (white s.num u)) { s with rnd := rest }) := by
        unfold exec execWhiteNext
        exact withRandom_cons_of_fits _ hrnd hfits
    _ = _ := by rw [hw, respond_sample]

/-- Settles O19: neither command needs anything of the state, and the zero that both store is the all-zero pattern. -/
theorem noiseConstructorsZeroTheirState : Obligations.NoiseConstructorsZeroTheirState := by
  intro s
  have hzero : s.num.k .zero = 0 := constBits_zero_eq_zero s.fmt
  constructor
  · calc exec .pinkNew s = .next (respond .ack { s with taps := tapsOf (s.num.k .zero) }) := rfl
      _ = _ := by rw [hzero]; rfl
  · calc exec .brownNew s = .next (respond .ack { s with prev := s.num.k .zero }) := rfl
      _ = _ := by rw [hzero]; rfl

theorem pinkOut_ieee (fmt : Fmt) (sin : Word → Word) (b : Taps Word) (w : Word) : pinkOut (ieee fmt sin) b w =
    fmul fmt (fadd fmt (fadd fmt (fadd fmt (fadd fmt (fadd fmt (fadd fmt b.b0 b.b1) b.b2) b.b3) b.b4) b.b5)
      (fmul fmt w (constBits fmt .pw))) (constBits fmt .ps) := by
  simp only [pinkOut, ieee]

/-- Settles O20: the draw is taken (`withRandom_cons_of_fits`), and taps and sample are their formulas in the primitives. -/
theorem pinkNextUpdatesTapsThenSums : Obligations.PinkNextUpdatesTapsThenSums := by
  intro s u rest hrnd hfits K w b0 b1 b2 b3 b4 b5 sum v
  have hw : white s.num u = w := rfl
  have htaps : pinkTaps s.num s.taps w = ⟨b0, b1, b2, b3, b4, b5⟩ := by
    simp only [pinkTaps, num_eq, tapStep_ieee, b0, b1, b2, b3, b4, b5, K]
  have hout : pinkOut s.num ⟨b0, b1, b2, b3, b4, b5⟩ w = v := by
    rw [num_eq, pinkOut_ieee]
  calc exec .pinkNext s
      = .next (respond (.sample (pinkOut s.num (pinkTaps s.num s.taps (white s.num u)) (white s.num u)))
          { s with rnd := rest, taps := pinkTaps s.num s.taps (white s.num u) }) := by
        unfold exec execPinkNext
        exact withRandom_cons_of_fits _ hrnd hfits
    _ = _ := by rw [hw, htaps, hout, respond_sample]

/-- Settles O21: the draw is taken (`withRandom_cons_of_fits`), and accumulator and sample are their formulas in the primitives. -/
theorem brownNextIntegratesThenScales : Obligations.BrownNextIntegratesThenScales := by
  intro s u rest hrnd hfits K w p
  have hprev : brownPrev s.num s.prev (white s.num u) = p := rfl
  have hout : brownOut s.num p = fmul s.fmt p (K .bs) := rfl
  calc exec .brownNext s
      = .next (respond (.sample (brownOut s.num (brownPrev s.num s.prev (white s.num u))))
          { s with rnd := rest, prev := brownPrev s.num s.prev (white s.num u) }) := by
        unfold exec execBrownNext
        exact withRandom_cons_of_fits _ hrnd hfits
    _ = _ := by rw [hprev, hout, respond_sample]

/-! O27: the noise commands and the oscillator. -/

/-- `s` with another oscillator, or none. -/
def State.setOsc (s : State) (osc : Option (Osc Word)) : State := { s with osc := osc }

/-- Taking a random value does not look at the oscillator, if what follows does not. -/
theorem withRandom_setOsc {i : Instr} {s t : State} {k : Word → State → State} (osc : Option (Osc Word))
    (hk : ∀ u s, k u (s.setOsc osc) = (k u s).setOsc osc) (h : withRandom i s k = .next t) :
    withRandom i (s.setOsc osc) k = .next (t.setOsc osc) := by
  obtain ⟨hrnd, rfl⟩ | ⟨u, rest, hrnd, rfl⟩ := withRandom_next h
  · exact withRandom_nil k hrnd
  · rw [← hk]
    exact withRandom_cons k hrnd

/-- Settles O27: the two constructors complete alike, and the three sample commands by `withRandom_setOsc`; what no noise command writes
is `exec_osc`. -/
theorem noiseDoesNotDependOnTheOscillator : Obligations.NoiseDoesNotDependOnTheOscillator := by
  rintro i s t osc (rfl | rfl | rfl | rfl | rfl) h <;> refine ⟨exec_osc h, ?_⟩
  · unfold exec execWhiteNext at h ⊢
    exact withRandom_setOsc osc (fun _ _ => rfl) h
  · cases h; rfl
  · unfold exec execPinkNext at h ⊢
    exact withRandom_setOsc osc (fun _ _ => rfl) h
  · cases h; rfl
  · unfold exec execBrownNext at h ⊢
    exact withRandom_setOsc osc (fun _ _ => rfl) h

/-! O53: the white remap. -/

/-- The white remap is the expression of the saw engine (44_noise.md R126). -/
theorem white_eq_saw {F : Type} (N : NumSys F) (u : F) : white N u = saw N u := rfl

/-- Settles O53: the range of the saw (`saw_inRange`), and over the reals `2u - 1` itself. -/
theorem whiteRemapIsBelowOne : Obligations.WhiteRemapIsBelowOne := by
  refine ⟨fun fmt sin u hu => saw_inRange hu, fun u h0 h1 => ?_⟩
  rw [white_ideal]
  constructor <;> linarith

/-! O36: taps and accumulator within their bounds, rounding included. -/

section Ieee

variable {fmt : Fmt} {sin : Word → Word}

theorem inSignedUnit_white {u : Word} (hu : inUnit fmt u = true) : inSignedUnit fmt (white (ieee fmt sin) u) = true := by
  obtain ⟨hn, hlo, hhi⟩ := between_saw (sin := sin) hu
  rw [white_eq_saw, inSignedUnit_iff_between]
  exact ⟨hn, hlo, hhi.trans (sunits_one fmt ▸ (sunits_belowOne_lt fmt).le)⟩

/-- The bound `B` survives one step at full scale, rounding included: what `within_tapStep` asks of a tap's two constants. -/
def keepsBound (fmt : Fmt) (decay gain : Const) (B : Word) : Bool :=
  let decayed := fmul fmt (constBits fmt decay) B
  let driven := fmul fmt (constBits fmt .one) (constBits fmt gain)
  let next := fadd fmt (magWord fmt decayed) (magWord fmt driven)
  isFinite fmt B && decide (0 ≤ sunits fmt B) && isFinite fmt decayed && isFinite fmt driven && isFinite fmt next &&
    decide (sunits fmt next ≤ sunits fmt B)

theorem within_tapStep_of_keepsBound {decay gain : Const} {B b w : Word} (hB : keepsBound fmt decay gain B = true)
    (hb : within fmt B b = true) (hw : inSignedUnit fmt w = true) : within fmt B (tapStep (ieee fmt sin) decay gain b w) = true := by
  simp only [keepsBound, Bool.and_eq_true, decide_eq_true_eq] at hB
  obtain ⟨⟨⟨⟨⟨hfin, hpos⟩, hdecayed⟩, hdriven⟩, hnext⟩, hle⟩ := hB
  exact within_tapStep hfin hpos hb hw hdecayed hdriven hnext hle

/-- The six bounds of log 12, each evaluated with its tap's constants. -/
theorem keepsBound_tapBound (fmt : Fmt) :
    keepsBound fmt .pa0 .pg0 (tapBound fmt).b0 = true ∧ keepsBound fmt .pa1 .pg1 (tapBound fmt).b1 = true ∧
    keepsBound fmt .pa2 .pg2 (tapBound fmt).b2 = true ∧ keepsBound fmt .pa3 .pg3 (tapBound fmt).b3 = true ∧
    keepsBound fmt .pa4 .pg4 (tapBound fmt).b4 = true ∧ keepsBound fmt .pa5 .pg5 (tapBound fmt).b5 = true := by
  cases fmt <;> decide +kernel

theorem tapsWithin_iff {b : Taps Word} : tapsWithin fmt b = true ↔
    within fmt (tapBound fmt).b0 b.b0 = true ∧ within fmt (tapBound fmt).b1 b.b1 = true ∧ within fmt (tapBound fmt).b2 b.b2 = true ∧
    within fmt (tapBound fmt).b3 b.b3 = true ∧ within fmt (tapBound fmt).b4 b.b4 = true ∧ within fmt (tapBound fmt).b5 b.b5 = true := by
  simp only [tapsWithin, Bool.and_eq_true, and_assoc]

theorem tapsWithin_zero (fmt : Fmt) : tapsWithin fmt (tapsOf 0) = true := by cases fmt <;> decide +kernel

theorem inSignedUnit_zero (fmt : Fmt) : inSignedUnit fmt 0 = true := by cases fmt <;> decide +kernel

theorem tapsWithin_pinkTaps {b : Taps Word} {w : Word} (hb : tapsWithin fmt b = true) (hw : inSignedUnit fmt w = true) :
    tapsWithin fmt (pinkTaps (ieee fmt sin) b w) = true := by
  obtain ⟨k0, k1, k2, k3, k4, k5⟩ := keepsBound_tapBound fmt
  obtain ⟨h0, h1, h2, h3, h4, h5⟩ := tapsWithin_iff.1 hb
  exact tapsWithin_iff.2 ⟨within_tapStep_of_keepsBound k0 h0 hw, within_tapStep_of_keepsBound k1 h1 hw,
    within_tapStep_of_keepsBound k2 h2 hw, within_tapStep_of_keepsBound k3 h3 hw, within_tapStep_of_keepsBound k4 h4 hw,
    within_tapStep_of_keepsBound k5 h5 hw⟩

/-- The brown integrator at full scale, in units: `(1 + 0.02) / 1.02` rounds to no more than 1. -/
theorem brownPrev_at_one (fmt : Fmt) :
    let driven := fmul fmt (constBits fmt .bg) (constBits fmt .one)
    let sum := fadd fmt (constBits fmt .one) driven
    isFinite fmt driven = true ∧ 0 ≤ sunits fmt driven ∧ isFinite fmt sum = true ∧ magOf fmt (constBits fmt .bd) ≠ 0 ∧
      Bounded fmt (constBits fmt .one) (fdiv fmt sum (constBits fmt .bd)) := by
  unfold Bounded
  cases fmt <;> decide +kernel

/-- The accumulator stays in [-1, 1] (44_noise.md R137): each operation is bounded by its value at full scale. -/
theorem inSignedUnit_brownPrev {prev w : Word} (hp : inSignedUnit fmt prev = true) (hw : inSignedUnit fmt w = true) :
    inSignedUnit fmt (brownPrev (ieee fmt sin) prev w) = true := by
  rw [inSignedUnit_iff_bounded] at hp hw ⊢
  obtain ⟨hdriven, hpos, hsum, hbd, hnext⟩ := brownPrev_at_one fmt
  have hone : 0 ≤ sunits fmt (constBits fmt .one) := by rw [sunits_one]; positivity
  have h1 := (bounded_refl (isFinite_constBits fmt .bg)).fmul hw hdriven
  have h2 := hp.fadd h1 hone hpos hsum
  rw [brownPrev_ieee]
  exact (h2.fdiv (isFinite_constBits fmt .bd) hbd hnext.isFinite).trans hnext

theorem tapsAfter_within (i : Instr) {b : Taps Word} {rnd : List Word} (hb : tapsWithin fmt b = true)
    (hrnd : ∀ u ∈ rnd, inUnit fmt (toWidth fmt u) = true) : tapsWithin fmt (tapsAfter fmt (ieee fmt sin) i b rnd) = true := by
  unfold tapsAfter
  split
  · change tapsWithin fmt (tapsOf (constBits fmt .zero)) = true
    rw [constBits_zero_eq_zero]
    exact tapsWithin_zero fmt
  · exact tapsWithin_pinkTaps hb (inSignedUnit_white (hrnd _ List.mem_cons_self))
  · exact hb

theorem prevAfter_inSignedUnit (i : Instr) {prev : Word} {rnd : List Word} (hp : inSignedUnit fmt prev = true)
    (hrnd : ∀ u ∈ rnd, inUnit fmt (toWidth fmt u) = true) : inSignedUnit fmt (prevAfter fmt (ieee fmt sin) i prev rnd) = true := by
  unfold prevAfter
  split
  · change inSignedUnit fmt (constBits fmt .zero) = true
    rw [constBits_zero_eq_zero]
    exact inSignedUnit_zero fmt
  · exact inSignedUnit_brownPrev hp (inSignedUnit_white (hrnd _ List.mem_cons_self))
  · exact hp

end Ieee

theorem noiseBounded_hardReset (s : State) : NoiseBounded (hardReset s) := ⟨tapsWithin_zero s.fmt, inSignedUnit_zero s.fmt⟩

theorem NoiseBounded.exec {i : Instr} {s t : State} (h : NoiseBounded s) (hrnd : ∀ u ∈ s.rnd, inUnit s.fmt (toWidth s.fmt u) = true)
    (he : Machine.exec i s = .next t) : NoiseBounded t := by
  obtain ⟨htaps, hprev⟩ := h
  unfold NoiseBounded
  rw [exec_fmt he, exec_taps he, exec_prev he]
  exact ⟨tapsAfter_within i htaps hrnd, prevAfter_inSignedUnit i hprev hrnd⟩

/-- Settles O36: the invariant case by case of what a step can do; the arithmetic is `tapsWithin_pinkTaps` and
`inSignedUnit_brownPrev`. -/
theorem everyStepKeepsTheNoiseStateBounded : Obligations.EveryStepKeepsTheNoiseStateBounded := by
  intro s t h hrnd hs
  obtain ⟨i, u, rest, -, -, he⟩ | ⟨i, rest, -, -, -, rfl⟩ | ⟨-, -, rfl⟩ | ⟨w, rest, i, -, -, -, he⟩ |
    ⟨w, rest, why, -, -, -, rfl⟩ | ⟨rest, -, -, rfl⟩ | ⟨w, took, rest, -, -, rfl⟩ := step_cases hs
  · exact NoiseBounded.exec (s := { s with inflight := none }) h hrnd he
  · exact noiseBounded_hardReset _
  · exact h
  · exact NoiseBounded.exec (s := { s with host := rest }) h hrnd he
  · exact h
  · exact noiseBounded_hardReset _
  · exact noiseBounded_hardReset _

/-! O54: NaN. -/

section Ieee

variable {fmt : Fmt} {sin : Word → Word}

theorem white_of_isNaN {u : Word} (h : isNaN fmt u = true) : white (ieee fmt sin) u = canonNaN fmt := by
  rw [white_ieee, fmul_of_isNaN (.inr h)]
  exact fadd_of_isNaN (.inl (isNaN_canonNaN fmt))

theorem tapStep_of_isNaN {decay gain : Const} {b w : Word} (h : isNaN fmt b = true ∨ isNaN fmt w = true) :
    tapStep (ieee fmt sin) decay gain b w = canonNaN fmt := by
  rw [tapStep_ieee]
  obtain hb | hw := h
  · rw [fmul_of_isNaN (y := b) (.inr hb)]
    exact fadd_of_isNaN (.inl (isNaN_canonNaN fmt))
  · rw [fmul_of_isNaN (x := w) (.inl hw)]
    exact fadd_of_isNaN (.inr (isNaN_canonNaN fmt))

theorem pinkTaps_of_isNaN {b : Taps Word} {w : Word}
    (h : (isNaN fmt b.b0 && isNaN fmt b.b1 && isNaN fmt b.b2 && isNaN fmt b.b3 && isNaN fmt b.b4 && isNaN fmt b.b5) = true ∨ isNaN fmt w = true) :
    pinkTaps (ieee fmt sin) b w = tapsOf (canonNaN fmt) := by
  obtain ⟨h0, h1, h2, h3, h4, h5⟩ : (isNaN fmt b.b0 = true ∨ isNaN fmt w = true) ∧ (isNaN fmt b.b1 = true ∨ isNaN fmt w = true) ∧
      (isNaN fmt b.b2 = true ∨ isNaN fmt w = true) ∧ (isNaN fmt b.b3 = true ∨ isNaN fmt w = true) ∧
      (isNaN fmt b.b4 = true ∨ isNaN fmt w = true) ∧ (isNaN fmt b.b5 = true ∨ isNaN fmt w = true) := by
    simp only [Bool.and_eq_true] at h
    tauto
  simp only [pinkTaps, tapsOf, tapStep_of_isNaN h0, tapStep_of_isNaN h1, tapStep_of_isNaN h2, tapStep_of_isNaN h3, tapStep_of_isNaN h4,
    tapStep_of_isNaN h5]

/-- The direct term is NaN with the white value, and so are the sum and the sample. -/
theorem pinkOut_of_isNaN (b : Taps Word) {w : Word} (h : isNaN fmt w = true) : pinkOut (ieee fmt sin) b w = canonNaN fmt := by
  have hcanon := isNaN_canonNaN fmt
  rw [pinkOut_ieee, fmul_of_isNaN (x := w) (.inl h), fadd_of_isNaN (.inr hcanon)]
  exact fmul_of_isNaN (.inl hcanon)

theorem brownPrev_of_isNaN {prev w : Word} (h : isNaN fmt prev = true ∨ isNaN fmt w = true) :
    brownPrev (ieee fmt sin) prev w = canonNaN fmt := by
  have hsum : fadd fmt prev (fmul fmt (constBits fmt .bg) w) = canonNaN fmt := by
    refine fadd_of_isNaN (h.imp_right fun hw => ?_)
    rw [fmul_of_isNaN (.inr hw)]
    exact isNaN_canonNaN fmt
  rw [brownPrev_ieee, hsum]
  exact fdiv_of_isNaN (.inl (isNaN_canonNaN fmt))

end Ieee

/-- Settles O54: the white value is NaN with its draw (`white_of_isNaN`), and each formula with a NaN operand answers the canonical NaN. -/
theorem naNPoisonsTheNoiseState : Obligations.NaNPoisonsTheNoiseState := by
  intro fmt sin u prev b
  dsimp only
  refine ⟨fun hu => ?_, fun hb => pinkTaps_of_isNaN (.inl hb), fun hp => brownPrev_of_isNaN (.inl hp)⟩
  have hcanon := isNaN_canonNaN fmt
  rw [white_of_isNaN hu]
  refine ⟨rfl, pinkTaps_of_isNaN (.inr hcanon), pinkOut_of_isNaN _ hcanon, brownPrev_of_isNaN (.inr hcanon), ?_⟩
  rw [brownPrev_of_isNaN (.inr hcanon), brownOut_ieee]
  exact fmul_of_isNaN (.inl hcanon)

/-! O55, O56: the noise samples of `IDEAL`. -/

/-- A command that takes one random value and answers one sample of magnitude at most `M`, and keeps `I`, while its values lie in [0, 1). -/
def SamplesWithin (c : IdealCommand) (I : IdealState → Prop) (M : ℝ) : Prop :=
  ∀ (s : IdealState) (u : ℝ) (rest : List ℝ), I s → s.rnd = u :: rest → 0 ≤ u → u < 1 →
    ∃ (t : IdealState) (v : ℝ), idealExec c s = .next t ∧ I t ∧ t.rnd = rest ∧ t.rsp = s.rsp ++ [.sample v] ∧ |v| ≤ M

/-- A run of such a command completes with one sample per random value, each within the bound. -/
theorem SamplesWithin.run {c : IdealCommand} {I : IdealState → Prop} {M : ℝ} (hc : SamplesWithin c I M) (us : List ℝ)
    (hus : ∀ u ∈ us, 0 ≤ u ∧ u < 1) (s : IdealState) (hs : I s) (hrnd : s.rnd = us) :
    ∃ (t : IdealState) (vs : List ℝ), idealRun s (us.map fun _ => c) = .next t ∧
      t.rsp = s.rsp ++ vs.map Response.sample ∧ vs.length = us.length ∧ ∀ v ∈ vs, |v| ≤ M := by
  induction us generalizing s with
  | nil => exact ⟨s, [], rfl, (List.append_nil _).symm, rfl, nofun⟩
  | cons u rest ih =>
    obtain ⟨⟨hu0, hu1⟩, hrest⟩ := List.forall_mem_cons.1 hus
    obtain ⟨t, v, hexec, hI, htrnd, htrsp, hv⟩ := hc s u rest hs hrnd hu0 hu1
    obtain ⟨t', vs, hrun, hrsp, hlen, hvs⟩ := ih hrest t hI htrnd
    refine ⟨t', v :: vs, ?_, ?_, by simp [hlen], List.forall_mem_cons.2 ⟨hv, hvs⟩⟩
    · rw [List.map_cons, idealRun_cons hexec, hrun]
    · rw [hrsp, htrsp, List.append_assoc, List.map_cons, List.singleton_append]

theorem idealExec_brownNext_of_cons {s : IdealState} {u : ℝ} {rest : List ℝ} (h : s.rnd = u :: rest) :
    idealExec .brownNext s = .next (idealRespond (.sample (brownOut idealNum (brownPrev idealNum s.prev (white idealNum u))))
      { s with rnd := rest, prev := brownPrev idealNum s.prev (white idealNum u) }) := by
  simp [idealExec, idealWithRandom, h]

theorem idealExec_pinkNext_of_cons {s : IdealState} {u : ℝ} {rest : List ℝ} (h : s.rnd = u :: rest) :
    idealExec .pinkNext s = .next (idealRespond
      (.sample (pinkOut idealNum (pinkTaps idealNum s.taps (white idealNum u)) (white idealNum u)))
      { s with rnd := rest, taps := pinkTaps idealNum s.taps (white idealNum u) }) := by
  simp [idealExec, idealWithRandom, h]

theorem abs_white_ideal_le_one {u : ℝ} (h0 : 0 ≤ u) (h1 : u < 1) : |white idealNum u| ≤ 1 := by
  rw [white_ideal, abs_le]
  constructor <;> linarith

theorem abs_mul_le_of_abs_le_one {w c : ℝ} (hw : |w| ≤ 1) : |w * c| ≤ |c| := by
  rw [abs_mul]
  exact mul_le_of_le_one_left (abs_nonneg c) hw

theorem abs_brownPrev_ideal_le_one {prev w : ℝ} (hp : |prev| ≤ 1) (hw : |w| ≤ 1) : |brownPrev idealNum prev w| ≤ 1 := by
  have hbg : idealConst .bg = 1 / 50 := by norm_num [idealConst, constLiteral]
  have hbd : idealConst .bd = 51 / 50 := by norm_num [idealConst, constLiteral]
  rw [abs_le] at hp hw
  rw [brownPrev_ideal, hbg, hbd, abs_le]
  constructor <;> linarith

theorem samplesWithin_brownNext : SamplesWithin .brownNext (fun s => |s.prev| ≤ 1) (7 / 2) := by
  intro s u rest hp hrnd h0 h1
  have hnext := abs_brownPrev_ideal_le_one hp (abs_white_ideal_le_one h0 h1)
  refine ⟨_, _, idealExec_brownNext_of_cons hrnd, hnext, rfl, rfl, ?_⟩
  have hbs : idealConst .bs = 7 / 2 := by norm_num [idealConst, constLiteral]
  rw [brownOut_ideal, hbs]
  exact (abs_mul_le_of_abs_le_one hnext).trans (by norm_num)

/-- Settles O55: the accumulator stays in [-1, 1], and the scale is 3.5. -/
theorem idealBrownSamplesAreBounded : Obligations.IdealBrownSamplesAreBounded := fun us hus =>
  samplesWithin_brownNext.run us hus { idealReset with rnd := us } (by simp [idealReset]) rfl

/-- The bound of a tap (44_noise.md R133): the limit of its magnitude under a white value of magnitude 1. -/
noncomputable def tapLimit (decay gain : Const) : ℝ := |idealConst gain| / (1 - |idealConst decay|)

theorem abs_tapStep_ideal_le {decay gain : Const} {b w : ℝ} (hdecay : |idealConst decay| < 1) (hb : |b| ≤ tapLimit decay gain) (hw : |w| ≤ 1) :
    |tapStep idealNum decay gain b w| ≤ tapLimit decay gain := by
  have hpos : 0 < 1 - |idealConst decay| := by linarith
  calc |tapStep idealNum decay gain b w|
      ≤ |idealConst decay * b| + |w * idealConst gain| := abs_add_le _ _
    _ ≤ |idealConst decay| * tapLimit decay gain + |idealConst gain| := by
        rw [abs_mul]
        exact add_le_add (mul_le_mul_of_nonneg_left hb (abs_nonneg _)) (abs_mul_le_of_abs_le_one hw)
    _ = tapLimit decay gain := by
        unfold tapLimit
        field_simp
        ring

/-- Every tap within its limit. -/
def TapsWithinLimits (b : Taps ℝ) : Prop :=
  |b.b0| ≤ tapLimit .pa0 .pg0 ∧ |b.b1| ≤ tapLimit .pa1 .pg1 ∧ |b.b2| ≤ tapLimit .pa2 .pg2 ∧ |b.b3| ≤ tapLimit .pa3 .pg3 ∧
    |b.b4| ≤ tapLimit .pa4 .pg4 ∧ |b.b5| ≤ tapLimit .pa5 .pg5

theorem tapsWithinLimits_zero : TapsWithinLimits (tapsOf 0) := by
  norm_num [TapsWithinLimits, tapsOf, tapLimit, idealConst, constLiteral]

theorem TapsWithinLimits.pinkTaps {b : Taps ℝ} {w : ℝ} (hb : TapsWithinLimits b) (hw : |w| ≤ 1) :
    TapsWithinLimits (Machine.pinkTaps idealNum b w) := by
  obtain ⟨h0, h1, h2, h3, h4, h5⟩ := hb
  refine ⟨abs_tapStep_ideal_le ?_ h0 hw, abs_tapStep_ideal_le ?_ h1 hw, abs_tapStep_ideal_le ?_ h2 hw, abs_tapStep_ideal_le ?_ h3 hw,
    abs_tapStep_ideal_le ?_ h4 hw, abs_tapStep_ideal_le ?_ h5 hw⟩ <;> norm_num [idealConst, constLiteral, abs_lt]

/-- The limits and the direct gain add up to less than 69.02, and 0.11 times that is below 7.60 (44_noise.md R133). -/
theorem abs_pinkOut_ideal_le {b : Taps ℝ} {w : ℝ} (hb : TapsWithinLimits b) (hw : |w| ≤ 1) : |pinkOut idealNum b w| ≤ 760 / 100 := by
  obtain ⟨h0, h1, h2, h3, h4, h5⟩ := hb
  have hdirect : |w * idealConst .pw| ≤ |idealConst .pw| := abs_mul_le_of_abs_le_one hw
  have hscale : idealConst .ps = 11 / 100 := by norm_num [idealConst, constLiteral]
  have hsum : tapLimit .pa0 .pg0 + tapLimit .pa1 .pg1 + tapLimit .pa2 .pg2 + tapLimit .pa3 .pg3 + tapLimit .pa4 .pg4 +
      tapLimit .pa5 .pg5 + |idealConst .pw| ≤ 6902 / 100 := by
    norm_num [tapLimit, idealConst, constLiteral]
  rw [pinkOut_ideal, hscale, abs_le]
  rw [abs_le] at h0 h1 h2 h3 h4 h5 hdirect
  constructor <;> linarith

theorem samplesWithin_pinkNext : SamplesWithin .pinkNext (fun s => TapsWithinLimits s.taps) (760 / 100) := by
  intro s u rest hb hrnd h0 h1
  have hw := abs_white_ideal_le_one h0 h1
  have hnext := hb.pinkTaps hw
  exact ⟨_, _, idealExec_pinkNext_of_cons hrnd, hnext, rfl, rfl, abs_pinkOut_ideal_le hnext hw⟩

/-- Settles O56: the taps stay within their limits (`TapsWithinLimits.pinkTaps`), which bound the sample (`abs_pinkOut_ideal_le`). -/
theorem idealPinkSamplesAreBounded : Obligations.IdealPinkSamplesAreBounded := fun us hus =>
  samplesWithin_pinkNext.run us hus { idealReset with rnd := us } tapsWithinLimits_zero rfl

end Sys2Proof.Machine
end

/-! PROOFS of the family 60_exceptions: the sticky bits as no input of a command, the wait for a random value, the fault `UNC` (O26, O11,
O17). -/

section
namespace Sys2Proof.Machine

/-! O26: what a command does is the same whatever the sticky bits. -/

/-- A noise sample command that finds no random value waits (60_exceptions.md R162). -/
theorem exec_of_waits {i : Instr} {s : State} (hr : takesRandom i = true) (hrnd : s.rnd = []) :
    exec i s = .next { s with inflight := some i } := by
  rw [exec_eq, if_pos ⟨hr, hrnd⟩]

/-- Settles O26: a waiting command leaves both bits alone; one that completes reads neither (`exec_eq`), and can only set `S.UNC`. -/
theorem statusBitsDoNotChangeBehaviour : Obligations.StatusBitsDoNotChangeBehaviour := by
  intro i s t a b h
  obtain ⟨hr, hrnd, rfl⟩ | ⟨hcompletes, rfl⟩ := exec_cases h
  · exact ⟨b, exec_of_waits hr hrnd, id⟩
  · refine ⟨b || (needsOsc i && s.osc.isNone), ?_, fun hb => by rw [hb, Bool.true_or]⟩
    rw [exec_eq, if_neg hcompletes]
    rfl

/-! O11: the wait for a random value. -/

theorem step_of_inflight {s : State} {i : Instr} (hi : s.inflight = some i) : step s = resumeInflight i s := by
  simp only [step, hi]

theorem resumeInflight_of_value (i : Instr) {s : State} (hrnd : s.rnd ≠ []) :
    resumeInflight i s = exec i { s with inflight := none } := by
  obtain ⟨u, rest, hcons⟩ := List.exists_cons_of_ne_nil hrnd
  simp only [resumeInflight, hcons]

/-- Without a value and without `rst` the wait has no end: no other event of the host is accepted. -/
theorem resumeInflight_of_stuck (i : Instr) {s : State} (hrnd : s.rnd = []) (hrst : ∀ rest, s.host ≠ .rst :: rest) :
    resumeInflight i s = .fault .stuckOnRandom := by
  -- `hrst` is the side condition of the last equation of `resumeInflight`.
  simp only [resumeInflight, hrnd]

/-- Settles O11: the command begins to wait (`exec_of_waits`), and a step of the waiting block is `resumeInflight`. -/
theorem noiseSampleCommandWaitsForItsRandomValue : Obligations.NoiseSampleCommandWaitsForItsRandomValue := by
  intro s i
  refine ⟨fun hrnd hi => exec_of_waits (takesRandom_iff.2 hi) hrnd, fun hi => ⟨?_, fun hrnd hrst => ?_, fun hrnd => ?_⟩⟩
  · rw [State.cmdReady, hi, Option.isNone_some]
  · rw [step_of_inflight hi, resumeInflight_of_stuck i hrnd hrst]
  · rw [step_of_inflight hi, resumeInflight_of_value i hrnd]

/-! O17: the oscillator commands while `S.V = 0`. -/

/-- Settles O17: each of the five commands asks for the oscillator, and without one the fault is all it does (`withOsc_none`). -/
theorem oscillatorCommandsFaultBeforeConstruction : Obligations.OscillatorCommandsFaultBeforeConstruction := by
  rintro s i ho (rfl | rfl | ⟨x, rfl | rfl | rfl⟩) <;> exact withOsc_none _ ho

end Sys2Proof.Machine
end

/-! PROOFS of the family 70_reset_and_hazards: the responses and draws of a command, the increment of a good rate, the hardware reset
(O24, O46, O8). -/

section
namespace Sys2Proof.Machine

/-! O24: responses and draws. -/

/-- Settles O24: a command waits or completes (`exec_cases`), and only a completed one responds or draws. -/
theorem oneResponseAndAtMostOneDrawPerCommand : Obligations.OneResponseAndAtMostOneDrawPerCommand := by
  intro i s t h
  obtain ⟨hr, hrnd, hwait⟩ | ⟨hcompletes, rfl⟩ := exec_cases h
  · exact .inr ⟨hwait, hr, hrnd⟩
  · exact .inl ⟨⟨_, rfl⟩, rfl, rfl, hcompletes⟩

/-! O46: the increment of a good rate. -/

theorem div_ideal (x y : ℝ) : idealNum.div x y = x / y := rfl

/-- Settles O46: in `IEEE` no quotient below 1 rounds up to 1 (`inUnit_fdiv_of_goodRate`); over the reals it is the exact quotient. -/
theorem incrementOfAGoodRateIsBelowOne : Obligations.IncrementOfAGoodRateIsBelowOne := by
  refine ⟨fun _ _ _ => inUnit_fdiv_of_goodRate, fun sr hz h0 hlt => ?_⟩
  have hsr : 0 < sr := h0.trans_lt hlt
  rw [div_ideal]
  exact ⟨div_nonneg h0 hsr.le, (div_lt_one hsr).2 hlt⟩

/-! O8: the hardware reset. -/

theorem resumeInflight_of_rst (i : Instr) {s : State} {rest : List HostEvent} (hrnd : s.rnd = []) (hh : s.host = .rst :: rest) :
    resumeInflight i s = .next (hardReset { s with host := rest }) := by
  simp only [resumeInflight, hrnd, hh]

/-- `rst` between commands, or on a waiting command that finds no random value (70_reset_and_hazards.md R163, R165; log 5). -/
theorem step_of_rst {s : State} {rest : List HostEvent} (hh : s.host = .rst :: rest) (h : s.inflight = none ∨ s.rnd = []) :
    step s = .next (hardReset { s with host := rest }) := by
  obtain hi | ⟨i, hi⟩ := Option.eq_none_or_eq_some s.inflight
  · exact step_of_event hi hh
  · have hrnd : s.rnd = [] := h.resolve_left (by simp [hi])
    rw [step_of_inflight hi, resumeInflight_of_rst i hrnd hh]

/-- Settles O8: `rst` alone by `step_of_rst`, and a command abandoned before its response by the event that the step accepts. -/
theorem hardwareResetGivesTheResetState : Obligations.HardwareResetGivesTheResetState := by
  intro s rest rnd
  constructor
  · rintro hh rfl h
    exact step_of_rst hh h
  · rintro w took hh hi rfl
    exact step_of_event hi hh

end Sys2Proof.Machine
end
